-- ==== Sys2Proof/Word.lean ====
section
/-! DEFINITION. The words of the pkt-line frame scanner (spec/00_scope.md R12: a byte is 0 to 255, a
nibble 0 to 15; spec/10_state.md R20: lengths, counts and view registers are 16 bits wide). -/

namespace Sys2Proof

/-- A byte (R12). -/
abbrev Byte := BitVec 8

/-- A nibble, the value of one hex digit (R12). -/
abbrev Nibble := BitVec 4

/-- The width of `L` and of the registers `LEN`, `PCNT`, `VIEW_OFF`, `VIEW_LEN` (R8 `L_WIDTH`, R20). -/
abbrev Word16 := BitVec 16

end Sys2Proof
end

