-- ==== Sys2Proof/Config.lean ====
section
/-! DEFINITION. The implementation parameters of spec/00_scope.md R8 and the one free value of the model. -/

namespace Sys2Proof

/-- The two parameters a model takes as arguments (R8; spec/92_eei_decisions.md D19), with the document's
values as defaults. The others of R8 are part of the wire format and are fixed: `HDR_LEN` = `MIN_DATA_LEN` = 4,
`L_WIDTH` = 16, the tags 1, 2, 3 and `ERR_MAGIC`. -/
structure Params where
  /-- `MAX_DECLARED`, the greatest declared length the scanner accepts. -/
  maxDeclared : Nat := 65520
  /-- `BUF_CAP`, the bytes of the frame buffer. -/
  bufCap : Nat := 65524
  deriving DecidableEq, Repr

/-- `MAX_PAYLOAD_ENC = MAX_DECLARED - HDR_LEN` (R8). -/
def Params.maxPayloadEnc (P : Params) : Nat := P.maxDeclared - 4

/-- The constraints R8 puts on the parameters (with `HDR_LEN` = `MIN_DATA_LEN` = 4 and `L_WIDTH` = 16). -/
abbrev Params.Valid (P : Params) : Prop :=
  4 ≤ P.maxDeclared ∧ P.maxDeclared ≤ 65535 ∧ P.maxDeclared ≤ P.bufCap

/-- The parameters of this hardware: the document's values, the defaults (R8). An instance with others has them in
its `State.params` (DESIGN CHOICE, assumption log 1). -/
abbrev Config.params : Params := {}

/-- `ERR_MAGIC`, the four bytes "ERR " (R8, R72). -/
def Config.errMagic : List Byte := [0x45, 0x52, 0x52, 0x20]

/-- FREE VALUE (DESIGN CHOICE, assumption log 5). What the read port shows where spec/20_memory.md R53 (b), (c), (d)
leaves it unspecified: "a free draw per read". The first argument numbers the read, the second is `rd_addr`. It has no
body, so no proof can rest on a value of it. -/
opaque Config.freeRead : Nat → BitVec 16 → Byte

end Sys2Proof
end

