-- ==== Sys2Proof/Syntax.lean ====
section
/-! DEFINITION. The syntax: one constructor of `Instr` per row of spec/opcode_table.json, and the signals at the
block's ports that the decoder reads (spec/30_encoding.md R70, R83, R88, R89). -/

namespace Sys2Proof

/-- `PHASE` (spec/10_state.md R21). The code 3 "is never written by any rule" and has no constructor. -/
inductive Phase where
  | idle | hdr | pay
  deriving DecidableEq, Repr

/-- A sideband tag (spec/30_encoding.md R91). -/
inductive Tag where
  | invalid | pack | progress | fatal
  deriving DecidableEq, Repr

/-- The four bytes of a length prefix, first received first (spec/30_encoding.md R70 format H). -/
structure Header where
  c0 : Byte
  c1 : Byte
  c2 : Byte
  c3 : Byte
  deriving DecidableEq, Repr

/-- The header as the byte sequence it is on the wire. -/
def Header.bytes (h : Header) : List Byte := [h.c0, h.c1, h.c2, h.c3]

/-- The instructions: every row of spec/opcode_table.json, in the table's order. -/
inductive Instr where
  /-- `FLUSH` (H, R121): the frame "0000". -/
  | flush
  /-- `DELIM` (H, R122): the frame "0001". -/
  | delim
  /-- `RESPONSE_END` (H, R123): the frame "0002". -/
  | responseEnd
  /-- `RSVD3` (H, R124): the header "0003". -/
  | rsvd3
  /-- `DATA` (H, R159): a frame with its header as spelled and its `L - 4` payload bytes, not starting "ERR ". -/
  | data (hdr : Header) (payload : List Byte)
  /-- `ERRLINE` (H, R160): a frame whose payload is "ERR " and then `text`. -/
  | errline (hdr : Header) (text : List Byte)
  /-- `OVERMAX` (H, R125): four hex digits spelling more than `MAX_DECLARED`. -/
  | overmax (hdr : Header)
  /-- `NONHEX` (H, R127): a header with a byte outside `HEXDIG`. -/
  | nonhex (hdr : Header)
  /-- `SB_PACK` (S, R181): tag byte 0x01, then `content`. -/
  | sbPack (content : List Byte)
  /-- `SB_PROGRESS` (S, R182): tag byte 0x02, then `content`. -/
  | sbProgress (content : List Byte)
  /-- `SB_FATAL` (S, R183): tag byte 0x03, then `content`. -/
  | sbFatal (content : List Byte)
  /-- `SB_INVALID` (S, R184): an empty payload, or one whose first byte is no tag. -/
  | sbInvalid (payload : List Byte)
  /-- `HEXDIG_DEC` (X, R100): a byte 0x30 to 0x39. -/
  | hexdigDec (b : Byte)
  /-- `HEXDIG_UPPER` (X, R100): a byte 0x41 to 0x46. -/
  | hexdigUpper (b : Byte)
  /-- `HEXDIG_LOWER` (X, R100): a byte 0x61 to 0x66. -/
  | hexdigLower (b : Byte)
  /-- `HEXDIG_NONE` (X, R100): any of the other 234 bytes. -/
  | hexdigNone (b : Byte)
  /-- `RESET` (EV, R240). -/
  | reset
  /-- `PULL` (EV, R142). -/
  | pull
  /-- `SRC_BYTE_HDR` (EV, R143): `SRC(BYTE b)` in `HDR`. -/
  | srcByteHdr (b : Byte)
  /-- `SRC_BYTE_PAY` (EV, R147): `SRC(BYTE b)` in `PAY`. -/
  | srcBytePay (b : Byte)
  /-- `SRC_EOI_HDR` (EV, R145). -/
  | srcEoiHdr
  /-- `SRC_EOI_PAY` (EV, R149). -/
  | srcEoiPay
  /-- `SRC_FAIL_HDR` (EV, R145). -/
  | srcFailHdr
  /-- `SRC_FAIL_PAY` (EV, R149). -/
  | srcFailPay
  /-- `SRC_RSVD` (EV, R88): `src_kind` = 3. -/
  | srcRsvd
  /-- `HEXENC` (REF, R191): `hexEncode(n)`. -/
  | hexenc (n : Nibble)
  /-- `ENC_LENGTH` (REF, R192): `encodeLength(payloadLen)`. -/
  | encLength (payloadLen : Nat)
  /-- `ENC_FRAME` (REF, R194): `encodeFrame(p)`. -/
  | encFrame (p : List Byte)
  /-- `ENC_FLUSH` (REF, R195). -/
  | encFlush
  /-- `ENC_DELIM` (REF, R196). -/
  | encDelim
  /-- `ENC_RESPONSE_END` (REF, R197). -/
  | encResponseEnd
  /-- `ENC_SIDEBAND` (REF, R198): `encodeSideband(g, c)`. -/
  | encSideband (g : Byte) (c : List Byte)
  deriving DecidableEq, Repr

/-- A call of an encoder reference function. Format REF "has no bit pattern" (R89), so the call is by name. -/
inductive RefCall where
  | hexEncode (n : Nibble)
  | encodeLength (payloadLen : Nat)
  | encodeFrame (p : List Byte)
  | encodeFlush
  | encodeDelim
  | encodeResponseEnd
  | encodeSideband (g : Byte) (c : List Byte)
  deriving DecidableEq, Repr

/-- The five formats of the opcode table (R89). -/
inductive Format where
  | h | s | x | ev | ref
  deriving DecidableEq, Repr

/-- What is decoded: the bits of one instruction, under the format they are presented in. Within a format the
rows are mutually exclusive; across formats the same bits stand for different rows (R89), so the format is part
of the signal. -/
inductive Signal where
  /-- Format H: the bytes of one wire frame. -/
  | frame (bytes : List Byte)
  /-- Format S: the bytes of one payload, read as a sideband message. -/
  | message (payload : List Byte)
  /-- Format X: one byte, read as a hex digit. -/
  | digit (b : Byte)
  /-- Format EV: port `rst` (R39). -/
  | rst
  /-- Format EV: port `pull_req` (R39). -/
  | pullReq
  /-- Format EV: ports `src_kind` and `src_data` under `src_valid` (R39, R88). -/
  | src (kind : BitVec 2) (data : Byte)
  /-- Format REF. -/
  | call (f : RefCall)
  deriving DecidableEq, Repr

/-- The format a signal is presented in. -/
def Signal.format : Signal → Format
  | .frame _ => .h
  | .message _ => .s
  | .digit _ => .x
  | .rst | .pullReq | .src _ _ => .ev
  | .call _ => .ref

/-- The format the table gives the instruction's row. -/
def Instr.format : Instr → Format
  | .flush | .delim | .responseEnd | .rsvd3 | .data _ _ | .errline _ _ | .overmax _ | .nonhex _ => .h
  | .sbPack _ | .sbProgress _ | .sbFatal _ | .sbInvalid _ => .s
  | .hexdigDec _ | .hexdigUpper _ | .hexdigLower _ | .hexdigNone _ => .x
  | .reset | .pull | .srcByteHdr _ | .srcBytePay _ | .srcEoiHdr | .srcEoiPay | .srcFailHdr | .srcFailPay
  | .srcRsvd => .ev
  | .hexenc _ | .encLength _ | .encFrame _ | .encFlush | .encDelim | .encResponseEnd | .encSideband _ _ => .ref

/-- The phase in which the table's row accepts the event: `SRC_..._HDR` rows in `HDR`, `SRC_..._PAY` rows in
`PAY` ("accepted_when"); every other row is read alike in every phase. -/
def Instr.fitsPhase (ph : Phase) : Instr → Bool
  | .srcByteHdr _ | .srcEoiHdr | .srcFailHdr => ph == .hdr
  | .srcBytePay _ | .srcEoiPay | .srcFailPay => ph == .pay
  | .flush | .delim | .responseEnd | .rsvd3 | .data _ _ | .errline _ _ | .overmax _ | .nonhex _
  | .sbPack _ | .sbProgress _ | .sbFatal _ | .sbInvalid _
  | .hexdigDec _ | .hexdigUpper _ | .hexdigLower _ | .hexdigNone _
  | .reset | .pull | .srcRsvd
  | .hexenc _ | .encLength _ | .encFrame _ | .encFlush | .encDelim | .encResponseEnd | .encSideband _ _ => true

end Sys2Proof
end

