-- ==== Sys2Proof/Machine/Operands.lean ====
section
/-! DEFINITION. The operand forms: the hex-length parser (spec/40_hex_length_parser.md), the length validator and
control-frame classifier (spec/41_length_classifier.md), the "ERR " test and the sideband demultiplexer
(spec/43_sideband_demux.md). Pure functions, with no state. -/

namespace Sys2Proof.Machine

/-! ## The hex-length parser -/

/-- `'0'` to `'9'` (R72; the ASCII values are PRESUMED, assumption log 15). -/
def isDecDigit (b : Byte) : Bool := 0x30 ≤ b && b ≤ 0x39

/-- `'a'` to `'f'` (R72). -/
def isLowerDigit (b : Byte) : Bool := 0x61 ≤ b && b ≤ 0x66

/-- `'A'` to `'F'` (R72). -/
def isUpperDigit (b : Byte) : Bool := 0x41 ≤ b && b ≤ 0x46

/-- Membership in `HEXDIG`, the 22 hex digit bytes (R73). -/
def isHexDigit (b : Byte) : Bool := isDecDigit b || isLowerDigit b || isUpperDigit b

/-- The value of a decimal digit, `b - 0x30` (R100). -/
def decValue (b : Byte) : Nibble := (b - 0x30).setWidth 4

/-- The value of a lower-case digit, `b - 0x61 + 10` (R100). -/
def lowerValue (b : Byte) : Nibble := (b - 0x61 + 10).setWidth 4

/-- The value of an upper-case digit, `b - 0x41 + 10` (R100). -/
def upperValue (b : Byte) : Nibble := (b - 0x41 + 10).setWidth 4

/-- `hexDecode(b)` (R100): the nibble, or none; there is no nibble when `ok` is false (R101). -/
def hexDecode (b : Byte) : Option Nibble :=
  if isDecDigit b then some (decValue b)
  else if isLowerDigit b then some (lowerValue b)
  else if isUpperDigit b then some (upperValue b)
  else none

/-- `(n0 << 12) | (n1 << 8) | (n2 << 4) | n3`, each nibble zero-extended (R74, R104). -/
def assembleLength (n0 n1 n2 n3 : Nibble) : Word16 :=
  (n0.setWidth 16 <<< 12) ||| (n1.setWidth 16 <<< 8) ||| (n2.setWidth 16 <<< 4) ||| n3.setWidth 16

/-- `LenParse(h)` (R104): all or nothing (R105). -/
def lenParse (h : Header) : Option Word16 :=
  match hexDecode h.c0, hexDecode h.c1, hexDecode h.c2, hexDecode h.c3 with
  | some n0, some n1, some n2, some n3 => some (assembleLength n0 n1 n2 n3)
  | _, _, _, _ => none

/-! ## The classifier -/

/-- The header classes of R120; `data n` carries the payload length `n = L - 4`. -/
inductive HeaderClass where
  | nonhex | flush | delim | responseEnd | rsvd3 | overmax
  | data (n : Nat)
  deriving DecidableEq, Repr

/-- `Classify(r)` (R120). -/
def classify (P : Params) : Option Word16 → HeaderClass
  | none => .nonhex
  | some l =>
    if l = 0 then .flush
    else if l = 1 then .delim
    else if l = 2 then .responseEnd
    else if l = 3 then .rsvd3
    else if P.maxDeclared < l.toNat then .overmax
    else .data (l.toNat - 4)

/-- The number of payload bytes the scanner reads after the header (R76's column "payload bytes read"). -/
def HeaderClass.payloadBytes : HeaderClass → Nat
  | .data n => n
  | .nonhex | .flush | .delim | .responseEnd | .rsvd3 | .overmax => 0

/-- The "ERR " test on a complete payload (R148, R82): byte-exact, on payload bytes 0 to 3. -/
def startsWithErr (p : List Byte) : Bool := p.take 4 == Config.errMagic

/-! ## The sideband demultiplexer -/

/-- `code(tag)` on `SB_TAG` (R91). -/
def tagCode : Tag → BitVec 2
  | .invalid => 0
  | .pack => 1
  | .progress => 2
  | .fatal => 3

/-- The tag a first payload byte stands for (R83). -/
def tagOfByte (b : Byte) : Tag :=
  if b = 1 then .pack else if b = 2 then .progress else if b = 3 then .fatal else .invalid

/-- `decodeSideband(p)` (R180). -/
def decodeSideband : List Byte → Tag × List Byte
  | [] => (.invalid, [])
  | b :: rest =>
    match tagOfByte b with
    | .invalid => (.invalid, b :: rest)
    | t => (t, rest)

end Sys2Proof.Machine
end

