-- ==== Sys2Proof/WellFormed.lean ====
section
/-! DEFINITION. Which terms of `Instr` stand for an encoding: the conditions that spec/opcode_table.json writes in
words for the rows without one match under one mask (R76, R83, R100, R159, R160). -/

namespace Sys2Proof

open Machine in
/-- The condition of the instruction's row, for an instance with the parameters `P` (R8). A reference call whose precondition fails (R193, R199) is a
well-formed call; its meaning refuses it. -/
def Instr.wellFormed (P : Params) : Instr → Bool
  | .data h p =>
    match lenParse h with
    | some l => decide (4 ≤ l.toNat) && decide (l.toNat ≤ P.maxDeclared)
        && decide (p.length + 4 = l.toNat) && !startsWithErr p
    | none => false
  | .errline h t =>
    match lenParse h with
    | some l => decide (l.toNat ≤ P.maxDeclared) && decide (t.length + 8 = l.toNat)
    | none => false
  | .overmax h =>
    match lenParse h with
    | some l => decide (P.maxDeclared < l.toNat)
    | none => false
  | .nonhex h => (lenParse h).isNone
  | .sbInvalid [] => true
  | .sbInvalid (b :: _) => tagOfByte b == .invalid
  | .hexdigDec b => isDecDigit b
  | .hexdigUpper b => isUpperDigit b
  | .hexdigLower b => isLowerDigit b
  | .hexdigNone b => !isHexDigit b
  | .flush | .delim | .responseEnd | .rsvd3 | .sbPack _ | .sbProgress _ | .sbFatal _ => true
  | .reset | .pull | .srcByteHdr _ | .srcBytePay _ | .srcEoiHdr | .srcEoiPay | .srcFailHdr | .srcFailPay
  | .srcRsvd => true
  | .hexenc _ | .encLength _ | .encFrame _ | .encFlush | .encDelim | .encResponseEnd | .encSideband _ _ => true

end Sys2Proof
end

