-- ==== Sys2Proof/Decode.lean ====
section
/-! DEFINITION. The decoder, total on every signal and rejecting by name, and after it the encoder, both from
the encoding tables of spec/30_encoding.md (R70, R76, R83, R88). -/

namespace Sys2Proof

open Machine

/-- Why the decoder gives no instruction. -/
inductive DecodeError where
  /-- Fewer than the four header bytes (R81: "A frame's length is known only after its first four bytes"). -/
  | shortHeader
  /-- Fewer than the `L - 4` payload bytes the header promises. -/
  | shortPayload
  /-- Bytes left over after the frame: they belong to the next frame (R81). -/
  | trailingBytes
  /-- A source symbol in `IDLE`, where no source event is accepted (R150). -/
  | notAccepted
  deriving DecidableEq, Repr

/-! ## Decoding -/

/-- The frame that stands at the front of a byte sequence, and the bytes after it (R76, R81). -/
def decodeFrame (P : Params) : List Byte → Except DecodeError (Instr × List Byte)
  | c0 :: c1 :: c2 :: c3 :: rest =>
    let h : Header := ⟨c0, c1, c2, c3⟩
    match classify P (lenParse h) with
    | .nonhex => .ok (.nonhex h, rest)
    | .flush => .ok (.flush, rest)
    | .delim => .ok (.delim, rest)
    | .responseEnd => .ok (.responseEnd, rest)
    | .rsvd3 => .ok (.rsvd3, rest)
    | .overmax => .ok (.overmax h, rest)
    | .data n =>
      if rest.length < n then .error .shortPayload
      else if startsWithErr (rest.take n) then .ok (.errline h ((rest.take n).drop 4), rest.drop n)
      else .ok (.data h (rest.take n), rest.drop n)
  | _ => .error .shortHeader

/-- The sideband message a payload is (R83): total over all payloads. -/
def decodeMessage : List Byte → Instr
  | [] => .sbInvalid []
  | b :: rest =>
    match tagOfByte b with
    | .pack => .sbPack rest
    | .progress => .sbProgress rest
    | .fatal => .sbFatal rest
    | .invalid => .sbInvalid (b :: rest)

/-- The hex digit class of a byte (R73, R100): total over all bytes. -/
def decodeDigit (b : Byte) : Instr :=
  if isDecDigit b then .hexdigDec b
  else if isLowerDigit b then .hexdigLower b
  else if isUpperDigit b then .hexdigUpper b
  else .hexdigNone b

/-- The source event a symbol is in a phase (R88, R150). `src_data` is ignored unless `src_kind` = 0. The reserved kind
is read as `SRC_RSVD` in every phase (DEDUCED, assumption log 17). -/
def decodeSrc (ph : Phase) (kind : BitVec 2) (data : Byte) : Except DecodeError Instr :=
  if kind = 3 then .ok .srcRsvd
  else match ph with
    | .idle => .error .notAccepted
    | .hdr => .ok (if kind = 0 then .srcByteHdr data else if kind = 1 then .srcEoiHdr else .srcFailHdr)
    | .pay => .ok (if kind = 0 then .srcBytePay data else if kind = 1 then .srcEoiPay else .srcFailPay)

/-- The reference function a call names (R190). -/
def decodeCall : RefCall → Instr
  | .hexEncode n => .hexenc n
  | .encodeLength k => .encLength k
  | .encodeFrame p => .encFrame p
  | .encodeFlush => .encFlush
  | .encodeDelim => .encDelim
  | .encodeResponseEnd => .encResponseEnd
  | .encodeSideband g c => .encSideband g c

/-- The instruction a signal is, in a phase, for an instance with the parameters `P` (R8). -/
def decode (P : Params) (ph : Phase) : Signal → Except DecodeError Instr
  | .frame bs =>
    match decodeFrame P bs with
    | .ok (i, []) => .ok i
    | .ok (_, _ :: _) => .error .trailingBytes
    | .error e => .error e
  | .message p => .ok (decodeMessage p)
  | .digit b => .ok (decodeDigit b)
  | .rst => .ok .reset
  | .pullReq => .ok .pull
  | .src kind data => decodeSrc ph kind data
  | .call f => .ok (decodeCall f)

/-! ## Encoding -/

/-- "0000" (R77). -/
def Header.flush : Header := ⟨0x30, 0x30, 0x30, 0x30⟩
/-- "0001" (R77). -/
def Header.delim : Header := ⟨0x30, 0x30, 0x30, 0x31⟩
/-- "0002" (R77). -/
def Header.responseEnd : Header := ⟨0x30, 0x30, 0x30, 0x32⟩
/-- "0003" (R78). -/
def Header.rsvd3 : Header := ⟨0x30, 0x30, 0x30, 0x33⟩

/-- The signal of an instruction. For `SRC(EOI)`, `SRC(FAIL)` and the reserved kind, whose `src_data` is ignored
(R88), the encoder writes 0 there. -/
def encode : Instr → Signal
  | .flush => .frame Header.flush.bytes
  | .delim => .frame Header.delim.bytes
  | .responseEnd => .frame Header.responseEnd.bytes
  | .rsvd3 => .frame Header.rsvd3.bytes
  | .data h p => .frame (h.bytes ++ p)
  | .errline h t => .frame (h.bytes ++ (Config.errMagic ++ t))
  | .overmax h => .frame h.bytes
  | .nonhex h => .frame h.bytes
  | .sbPack c => .message (1 :: c)
  | .sbProgress c => .message (2 :: c)
  | .sbFatal c => .message (3 :: c)
  | .sbInvalid p => .message p
  | .hexdigDec b => .digit b
  | .hexdigUpper b => .digit b
  | .hexdigLower b => .digit b
  | .hexdigNone b => .digit b
  | .reset => .rst
  | .pull => .pullReq
  | .srcByteHdr b => .src 0 b
  | .srcBytePay b => .src 0 b
  | .srcEoiHdr => .src 1 0
  | .srcEoiPay => .src 1 0
  | .srcFailHdr => .src 2 0
  | .srcFailPay => .src 2 0
  | .srcRsvd => .src 3 0
  | .hexenc n => .call (.hexEncode n)
  | .encLength k => .call (.encodeLength k)
  | .encFrame p => .call (.encodeFrame p)
  | .encFlush => .call .encodeFlush
  | .encDelim => .call .encodeDelim
  | .encResponseEnd => .call .encodeResponseEnd
  | .encSideband g c => .call (.encodeSideband g c)

/-- The bytes a format H instruction puts on the wire; none for the other formats. -/
def wireBytes (i : Instr) : List Byte :=
  match encode i with
  | .frame bs => bs
  | _ => []

/-! ## The opcode table's words -/

/-- The bytes of a frame from a table word (R92: the first header byte is bits 31:24 of the 32-bit header). The
payload bytes the header promises count on from bit 32, first byte lowest. -/
def tableFrameBytes (P : Params) (w : Nat) : List Byte :=
  let h : Header := ⟨BitVec.ofNat 8 (w >>> 24), BitVec.ofNat 8 (w >>> 16), BitVec.ofNat 8 (w >>> 8), BitVec.ofNat 8 w⟩
  h.bytes ++ (List.range (classify P (lenParse h)).payloadBytes).map
    fun j => BitVec.ofNat 8 (w >>> (32 + 8 * j))

/-- The signal a table word is, by its width (DESIGN CHOICE, assumption log 9): 32 bits a frame header; 8 bits one of
the three tag bytes, where the row's mask is 0xff; otherwise the low two bits are `src_kind`, where the mask is 0x3. -/
def tableSignal (P : Params) (nbits w : Nat) : Signal :=
  if 8 < nbits then .frame (tableFrameBytes P w)
  else if 2 < nbits ∧ tagOfByte (BitVec.ofNat 8 w) ≠ .invalid then .message [BitVec.ofNat 8 w]
  else .src (BitVec.ofNat 2 w) 0

/-- The instruction the decoder reads from a table word, for an instance with the parameters `P`. A source symbol is
read in `HDR` (DESIGN CHOICE, assumption log 9). -/
def decodeTableWordFor (P : Params) (nbits w : Nat) : Option Instr :=
  match decode P .hdr (tableSignal P nbits w) with
  | .ok i => some i
  | .error _ => none

/-- The instruction the decoder reads from a table word, for the document's parameters (R8: "the values of this
hardware"). -/
def decodeTableWord (nbits w : Nat) : Option Instr := decodeTableWordFor Config.params nbits w

end Sys2Proof
end

