-- ==== Sys2Proof/Machine/State.lean ====
section
/-! DEFINITION. The state of one scanner instance (spec/10_state.md R20), the environment it is run in (the byte
source of spec/20_memory.md R57 and the moves of spec/00_scope.md R10's agents), the reasons to stop, and the
state after reset (R40). -/

namespace Sys2Proof.Machine

/-- The outcome kinds (spec/30_encoding.md R90). The codes 9 to 15 are "never produced" and have no constructor
(assumption log 21). -/
inductive OutKind where
  | flush | delim | responseEnd | invalidLength | payload | errorLine | endOfInput | truncated | sourceFailure
  deriving DecidableEq, Repr

/-- BUF: the cells that have been written, addresses strictly rising (R54: any other cell "holds no value"). -/
abbrev Memory := List Host.Cell

/-- What follows the source's last byte (spec/00_scope.md R15). -/
inductive Terminator where
  | eoi | fail | stall
  deriving DecidableEq, Repr

/-- The source as a value: the bytes it will still deliver and what follows them (R15, R57). -/
structure Source where
  bs : List Byte
  term : Terminator
  deriving DecidableEq, Repr

/-- What the environment does next. The model holds the moves to come as data, so that the total order of events
(R11) is one list and a step is a function of the state (DESIGN CHOICE, assumption log 2). -/
inductive Move where
  /-- `rst`: the event `RESET` (R240). -/
  | rst
  /-- `pull_req` (R142). -/
  | pull
  /-- The source presents its next symbol, as R57 says which. -/
  | src
  /-- Raw port values `src_kind`, `src_data` under `src_valid`, not taken from `source` (R88; R58: a source whose
  end of input is not permanent; DESIGN CHOICE, assumption log 10). -/
  | present (kind : BitVec 2) (data : Byte)
  /-- One whole decode call on a source in which the whole frame stands ready (R141, R169; DESIGN CHOICE, assumption
  log 3). -/
  | call
  /-- A source is attached in place of the present one (R241; DESIGN CHOICE, assumption log 11). -/
  | attach (s : Source)
  /-- The consumer applies `decodeSideband` to bytes it has (R180, R185). -/
  | demux (p : List Byte)
  /-- `hexDecode` is applied to a byte (R100). -/
  | digit (b : Byte)
  /-- An encoder reference function is called (R190). -/
  | ref (f : RefCall)
  deriving DecidableEq, Repr

/-- The value a pure function of the spec returned to its caller (DESIGN CHOICE, assumption log 4). -/
inductive Answer where
  /-- No function has been applied. -/
  | none
  /-- The result of `hexDecode` (R100). -/
  | nibble (r : Option Nibble)
  /-- The result of `decodeSideband` (R180). -/
  | sideband (tag : Tag) (rest : List Byte)
  /-- The bytes an encoder function returned (R190). -/
  | bytes (bs : List Byte)
  deriving DecidableEq, Repr

/-- The machine's state. The first ten fields are the scanner's (R20: "exactly this state and no other"); the last
four are the model's own, for what R38 calls "parameters or environment of a model". -/
structure State where
  /-- `PHASE` (R21). -/
  phase : Phase
  /-- `HCNT`, header bytes received in the current decode (R22). -/
  hcnt : BitVec 3
  /-- `LEN`, the declared length (R23). -/
  len : Word16
  /-- `PCNT`, payload bytes received in the current decode (R24). -/
  pcnt : Word16
  /-- `OUT_VALID` (R25). -/
  outValid : Bool
  /-- `OUT_KIND` (R26). -/
  outKind : OutKind
  /-- `VIEW_OFF` (R27). -/
  viewOff : Word16
  /-- `VIEW_LEN` (R27). -/
  viewLen : Word16
  /-- `BUF` (R29, R51). -/
  buf : Memory
  /-- `CONSUMED`, ghost: bytes taken from the source since reset, without a width (R33). -/
  consumed : Nat
  /-- The parameters of the instance, "fixed before reset" (R8, R35, R38; DESIGN CHOICE, assumption log 1). No event
  writes them. -/
  params : Params
  /-- The environment's source (R57). -/
  source : Source
  /-- The environment's moves still to come, first one next (R11). -/
  moves : List Move
  /-- What the last pure function applied returned. -/
  answer : Answer
  deriving DecidableEq, Repr

/-- Why the machine stops with a fault. -/
inductive Fault where
  /-- Raised by a BUF write at or above `BUF_CAP` (R14: `0 ≤ a < BUF_CAP`). Safe: no state that meets the invariant
  raises it (R131). -/
  | bufAddress
  /-- Raised by a header or "ERR " read of a cell that was never written (R54: it "holds no value"). Safe: no state
  that meets the invariant raises it (R54). -/
  | unwrittenRead
  deriving DecidableEq, Repr

/-- Why an instruction has no step. -/
inductive Refusal where
  /-- Raised by `exec` for an instruction with no meaning yet. Safe. -/
  | notModelled (mnemonic : String)
  /-- Raised by `SRC_RSVD`: "a model refuses (gives no step to) a source" that presents `src_kind` 3 (R88). Safe. -/
  | reservedSrcKind
  /-- Raised by `ENC_LENGTH` and `ENC_FRAME` above `MAX_PAYLOAD_ENC` (R193 EncoderPreconditionViolation). Safe. -/
  | encoderPreconditionViolation
  /-- Raised by `ENC_SIDEBAND` for a tag outside 1 to 3: "a model refuses the call" (R199). Safe. -/
  | sidebandTagUndefined
  /-- Raised by the meaning of a term that stands for no encoding (`Instr.wellFormed`). Safe: the decoder never
  gives one. -/
  | illFormed
  deriving DecidableEq, Repr

/-- What one instruction does. -/
abbrev Result := Host.Outcome State Fault Refusal

/-- The state after reset (R40), with BUF never written, of the hardware with the document's parameters (R8). The
environment's fields are the model's own: no byte arrives and nothing is asked until a stream and moves are supplied
(DESIGN CHOICE, assumption log 6). -/
def State.reset : State where
  phase := .idle
  hcnt := 0
  len := 0
  pcnt := 0
  outValid := false
  outKind := .flush
  viewOff := 0
  viewLen := 0
  buf := []
  consumed := 0
  params := Config.params
  source := ⟨[], .stall⟩
  moves := []
  answer := .none

/-- The state after reset of an instance with the parameters `P` (R8, R243 (1)). -/
def State.resetFor (P : Params) : State := { State.reset with params := P }

end Sys2Proof.Machine
end

