-- ==== Sys2Proof/Machine/Memory.lean ====
section
/-! DEFINITION. Reading and writing BUF (spec/20_memory.md R51 to R54). Every access is one byte (R61). -/

namespace Sys2Proof.Machine

/-- The byte at an address, or none where no event has written (R54; safe, assumption log 7). -/
def Memory.read : Memory → Nat → Option Byte
  | [], _ => none
  | (k, v) :: m, a => if a = k then some v else Memory.read m a

/-- `BUF[a] <- b`, keeping the addresses strictly rising. -/
def Memory.write : Memory → Nat → Byte → Memory
  | [], a, b => [(a, b)]
  | (k, v) :: m, a, b =>
    if a < k then (a, b) :: (k, v) :: m
    else if a = k then (a, b) :: m
    else (k, v) :: Memory.write m a b

/-- Bytes in arrival order at ascending addresses (R52). -/
def Memory.writeAll : Memory → Nat → List Byte → Memory
  | m, _, [] => m
  | m, a, b :: bs => Memory.writeAll (Memory.write m a b) (a + 1) bs

/-- `MemRead(a, n)` (R14), or none where a cell of the range was never written. -/
def Memory.readRange (m : Memory) : Nat → Nat → Option (List Byte)
  | _, 0 => some []
  | a, n + 1 =>
    match Memory.read m a, Memory.readRange m (a + 1) n with
    | some b, some bs => some (b :: bs)
    | _, _ => none

/-- `MemRead(0, 4)`, the raw header (R28, R144). -/
def Memory.header (m : Memory) : Option Header :=
  match Memory.read m 0, Memory.read m 1, Memory.read m 2, Memory.read m 3 with
  | some c0, some c1, some c2, some c3 => some ⟨c0, c1, c2, c3⟩
  | _, _, _, _ => none

/-- Addresses strictly rising from `lo` on. -/
def Memory.risingFrom : Memory → Nat → Bool
  | [], _ => true
  | (k, _) :: m, lo => decide (lo ≤ k) && Memory.risingFrom m (k + 1)

/-- The canonical form: addresses strictly rising. No entry can equal what an unlisted address reads as, which is
no value. -/
def Memory.wf (m : Memory) : Bool := Memory.risingFrom m 0

/-- Every written address lies below `n`. -/
def Memory.below : Memory → Nat → Bool
  | [], _ => true
  | (k, _) :: m, n => decide (k < n) && Memory.below m n

end Sys2Proof.Machine
end

