-- ==== Sys2Proof/Machine/Ops.lean ====
section
/-! DEFINITION. The shared operations of the events: storing bytes, publishing an outcome (`Finish` and `raise`,
this block's only exception entry, spec/60_exceptions.md R212 and R222), opening the next decode (`PULL`, its
return, R224), reset, and the two completions (R144, R148). -/

namespace Sys2Proof.Machine

/-- Sequencing: a fault or refusal ends the instruction. -/
def andThen (o : Result) (f : State → Result) : Result :=
  match o with
  | .next s => f s
  | .fault r => .fault r
  | .refused r => .refused r

/-! ## Storing -/

/-- `MemWrite(a, 1, b)` (R14). Out of BUF is a fault (DEDUCED, safe, assumption log 13). -/
def memWrite (a : Nat) (b : Byte) (s : State) : Result :=
  if a < s.params.bufCap then .next { s with buf := s.buf.write a b } else .fault .bufAddress

/-- One `MemWrite` after another, at ascending addresses (R52, R159). -/
def storeBytes : Nat → List Byte → State → Result
  | _, [], s => .next s
  | a, b :: bs, s => andThen (memWrite a b s) (storeBytes (a + 1) bs)

/-! ## Reporting an outcome and going on -/

/-- `Finish(k, off, len)` (R146). All five writes are simultaneous. -/
def finish (k : OutKind) (off len : Word16) (s : State) : State :=
  { s with outKind := k, viewOff := off, viewLen := len, outValid := true, phase := .idle }

/-- `raise K(info)` (R212): the view `(0, 4)` for `INVALID_LENGTH`, whose info is the raw header, and `(0, 0)` for
the other failure kinds. -/
def raiseFailure (k : OutKind) (s : State) : State :=
  match k with
  | .invalidLength => finish .invalidLength 0 4 s
  | .flush | .delim | .responseEnd | .payload | .errorLine | .endOfInput | .truncated | .sourceFailure =>
    finish k 0 0 s

/-- The writes of an accepted `PULL` (R142). -/
def startDecode (s : State) : State :=
  { s with outValid := false, viewLen := 0, hcnt := 0, pcnt := 0, phase := .hdr }

/-- The writes of `RESET` (R240). BUF, the parameters, the source, the moves and the
consumer's answer are not written. -/
def resetRegisters (s : State) : State :=
  { s with phase := .idle, hcnt := 0, len := 0, pcnt := 0, outValid := false, outKind := .flush,
           viewOff := 0, viewLen := 0, consumed := 0 }

/-! ## What each header class does at header completion (R121 to R127, R159) -/

/-- R121: `LEN <- 0; Finish(FLUSH, 0, 0)`. -/
def endFlush (s : State) : State := finish .flush 0 0 { s with len := 0 }

/-- R122: `LEN <- 1; Finish(DELIM, 0, 0)`. -/
def endDelim (s : State) : State := finish .delim 0 0 { s with len := 1 }

/-- R123: `LEN <- 2; Finish(RESPONSE_END, 0, 0)`. -/
def endResponseEnd (s : State) : State := finish .responseEnd 0 0 { s with len := 2 }

/-- R124: `LEN <- 3; raise INVALID_LENGTH(RAW)`. -/
def endRsvd3 (s : State) : State := raiseFailure .invalidLength { s with len := 3 }

/-- R125: `LEN <- L; raise INVALID_LENGTH(RAW)`. -/
def endOvermax (l : Word16) (s : State) : State := raiseFailure .invalidLength { s with len := l }

/-- R127: `LEN <- 0; raise INVALID_LENGTH(RAW)`. -/
def endNonhex (s : State) : State := raiseFailure .invalidLength { s with len := 0 }

/-- R144, the `DATA(0)` arm: `LEN <- 4; Finish(PAYLOAD, 4, 0)`. -/
def endEmptyData (s : State) : State := finish .payload 4 0 { s with len := 4 }

/-- R144, the `DATA(n)` arm with `n > 0`: `LEN <- L; PCNT <- 0; PHASE <- PAY`. -/
def enterPayload (l : Word16) (s : State) : State := { s with len := l, pcnt := 0, phase := .pay }

/-- Header completion (R144). -/
def completeHeader (s : State) : Result :=
  match s.buf.header with
  | none => .fault .unwrittenRead
  | some h =>
    match classify s.params (lenParse h) with
    | .nonhex => .next (endNonhex s)
    | .flush => .next (endFlush s)
    | .delim => .next (endDelim s)
    | .responseEnd => .next (endResponseEnd s)
    | .rsvd3 => .next (endRsvd3 s)
    | .overmax => .next (endOvermax ((lenParse h).getD 0) s)
    | .data 0 => .next (endEmptyData s)
    | .data (_ + 1) => .next (enterPayload ((lenParse h).getD 0) s)

/-- Payload completion (R148): the "ERR " test, once, on the complete payload. -/
def completePayload (s : State) : Result :=
  if 8 ≤ s.len.toNat then
    match s.buf.readRange 4 4 with
    | none => .fault .unwrittenRead
    | some q =>
      if q = Config.errMagic then .next (finish .errorLine 8 (s.len - 8) s)
      else .next (finish .payload 4 (s.len - 4) s)
  else .next (finish .payload 4 (s.len - 4) s)

/-! ## A whole frame at once (R141) -/

/-- A decode call is accepted in `IDLE` only; otherwise it has no effect (R150). -/
def whenIdle (f : State → Result) (s : State) : Result :=
  if s.phase = .idle then f s else .next s

/-- A `PULL` and the four header bytes taken into `BUF[0..3]` (R121: "has already written the four bytes to
`BUF[0..3]`, set `HCNT = 4` and added 4 to `CONSUMED`"). -/
def takeHeader (h : Header) (s : State) : Result :=
  andThen (storeBytes 0 h.bytes (startDecode s)) fun t =>
    .next { t with hcnt := 4, consumed := t.consumed + 4 }

/-- The payload bytes taken into BUF from address 4 (R159). -/
def takePayload (p : List Byte) (s : State) : Result :=
  andThen (storeBytes 4 p s) fun t =>
    .next { t with pcnt := BitVec.ofNat 16 p.length, consumed := t.consumed + p.length }

/-- A pure function's value handed to its caller; nothing of the scanner is written (R180, R190). -/
def giveAnswer (r : Answer) (s : State) : Result := .next { s with answer := r }

/-- An instruction that stands for no encoding has no meaning (DEDUCED, safe, assumption log 8). -/
def whenWellFormed (i : Instr) (f : State → Result) (s : State) : Result :=
  if i.wellFormed s.params then f s else .refused .illFormed

end Sys2Proof.Machine
end

