-- ==== Sys2Proof/Machine/Events.lean ====
section
/-! DEFINITION. Format EV: the events of the machine (spec/42_frame_scanner.md R142 to R150; spec/70_reset_and_hazards.md
R240). An event that is not accepted has no effect (R150). -/

namespace Sys2Proof.Machine

/-- An event accepted in one phase only. -/
def whenPhase (ph : Phase) (f : State → Result) (s : State) : Result :=
  if s.phase = ph then f s else .next s

/-- `RESET` (R240), accepted in every phase. -/
def execReset (s : State) : Result := .next (resetRegisters s)

/-- `PULL` (R142). -/
def execPull (s : State) : Result := whenPhase .idle (fun s => .next (startDecode s)) s

/-- `SRC(BYTE b)` in `HDR` (R143), with header completion in the same event on the fourth byte (R144). -/
def execSrcByteHdr (b : Byte) (s : State) : Result :=
  whenPhase .hdr (fun s =>
    andThen (memWrite s.hcnt.toNat b s) fun t =>
      let u := { t with hcnt := t.hcnt + 1, consumed := t.consumed + 1 }
      if u.hcnt = 4 then completeHeader u else .next u) s

/-- `SRC(BYTE b)` in `PAY` (R147), with payload completion in the same event on the last byte (R148). The test
`PCNT = LEN - 4` is written without the subtraction (spec/90_conflicts.md C12). -/
def execSrcBytePay (b : Byte) (s : State) : Result :=
  whenPhase .pay (fun s =>
    andThen (memWrite (4 + s.pcnt.toNat) b s) fun t =>
      let u := { t with pcnt := t.pcnt + 1, consumed := t.consumed + 1 }
      if u.pcnt.toNat + 4 = u.len.toNat then completePayload u else .next u) s

/-- `SRC(EOI)` in `HDR` (R145): clean end before the first header byte, truncation after it. -/
def execSrcEoiHdr (s : State) : Result :=
  whenPhase .hdr (fun s =>
    .next (raiseFailure (if s.hcnt = 0 then .endOfInput else .truncated) s)) s

/-- `SRC(EOI)` in `PAY` (R149). -/
def execSrcEoiPay (s : State) : Result :=
  whenPhase .pay (fun s => .next (raiseFailure .truncated s)) s

/-- `SRC(FAIL)` in `HDR` (R145), whatever has arrived (R216). -/
def execSrcFailHdr (s : State) : Result :=
  whenPhase .hdr (fun s => .next (raiseFailure .sourceFailure s)) s

/-- `SRC(FAIL)` in `PAY` (R149), whatever has arrived (R216). -/
def execSrcFailPay (s : State) : Result :=
  whenPhase .pay (fun s => .next (raiseFailure .sourceFailure s)) s

/-- `SRC_RSVD` (R88): "a model refuses (gives no step to) a source that does" (assumption log 17). -/
def execSrcRsvd (_ : State) : Result := .refused .reservedSrcKind

end Sys2Proof.Machine
end

