-- ==== Sys2Proof/Machine/Frames.lean ====
section
/-! DEFINITION. Format H: the meaning of a whole wire frame, as one decode call on it (spec/42_frame_scanner.md R141,
R159, R160; spec/41_length_classifier.md R121 to R127). The call is a `PULL` and the frame's bytes; a call made
while a decode is running is not accepted (R150). -/

namespace Sys2Proof.Machine

/-- `FLUSH` (R121). -/
def execFlush (s : State) : Result :=
  whenIdle (fun s => andThen (takeHeader Header.flush s) fun t => .next (endFlush t)) s

/-- `DELIM` (R122). -/
def execDelim (s : State) : Result :=
  whenIdle (fun s => andThen (takeHeader Header.delim s) fun t => .next (endDelim t)) s

/-- `RESPONSE_END` (R123). -/
def execResponseEnd (s : State) : Result :=
  whenIdle (fun s => andThen (takeHeader Header.responseEnd s) fun t => .next (endResponseEnd t)) s

/-- `RSVD3` (R124). -/
def execRsvd3 (s : State) : Result :=
  whenIdle (fun s => andThen (takeHeader Header.rsvd3 s) fun t => .next (endRsvd3 t)) s

/-- `OVERMAX` (R125). -/
def execOvermax (h : Header) (s : State) : Result :=
  whenWellFormed (.overmax h)
    (whenIdle fun s => andThen (takeHeader h s) fun t => .next (endOvermax ((lenParse h).getD 0) t)) s

/-- `NONHEX` (R127). -/
def execNonhex (h : Header) (s : State) : Result :=
  whenWellFormed (.nonhex h)
    (whenIdle fun s => andThen (takeHeader h s) fun t => .next (endNonhex t)) s

/-- `DATA` (R159): `LEN <- L`, the payload stored from address 4, `Finish(PAYLOAD, 4, n)`. -/
def execData (h : Header) (p : List Byte) (s : State) : Result :=
  whenWellFormed (.data h p)
    (whenIdle fun s =>
      andThen (takeHeader h s) fun t =>
        andThen (takePayload p { t with len := (lenParse h).getD 0 }) fun u =>
          .next (finish .payload 4 (BitVec.ofNat 16 p.length) u)) s

/-- `ERRLINE` (R160): as `DATA` up to the test, then `Finish(ERROR_LINE, 8, L - 8)`. -/
def execErrline (h : Header) (txt : List Byte) (s : State) : Result :=
  whenWellFormed (.errline h txt)
    (whenIdle fun s =>
      andThen (takeHeader h s) fun t =>
        andThen (takePayload (Config.errMagic ++ txt) { t with len := (lenParse h).getD 0 }) fun u =>
          .next (finish .errorLine 8 (BitVec.ofNat 16 txt.length) u)) s

end Sys2Proof.Machine
end

