-- ==== Sys2Proof/Machine/HexDigits.lean ====
section
/-! DEFINITION. Format X: `hexDecode` on one byte, one row per digit class (spec/40_hex_length_parser.md R100). -/

namespace Sys2Proof.Machine

/-- `HEXDIG_DEC` (R100): `Some (b - 0x30)`. -/
def execHexdigDec (b : Byte) (s : State) : Result :=
  whenWellFormed (.hexdigDec b) (giveAnswer (.nibble (some (decValue b)))) s

/-- `HEXDIG_UPPER` (R100): `Some (b - 0x41 + 10)`. -/
def execHexdigUpper (b : Byte) (s : State) : Result :=
  whenWellFormed (.hexdigUpper b) (giveAnswer (.nibble (some (upperValue b)))) s

/-- `HEXDIG_LOWER` (R100): `Some (b - 0x61 + 10)`. -/
def execHexdigLower (b : Byte) (s : State) : Result :=
  whenWellFormed (.hexdigLower b) (giveAnswer (.nibble (some (lowerValue b)))) s

/-- `HEXDIG_NONE` (R100): `None`. -/
def execHexdigNone (b : Byte) (s : State) : Result :=
  whenWellFormed (.hexdigNone b) (giveAnswer (.nibble none)) s

end Sys2Proof.Machine
end

