-- ==== Sys2Proof/Machine/Reference.lean ====
section
/-! DEFINITION. Format REF: the frame encoder, as reference functions outside the block (spec/44_encoder_reference.md).
"None touches the scanner's state": only the caller's answer is written (R190). -/

namespace Sys2Proof.Machine

/-! ## The pure functions -/

/-- `hexEncode(n)` (R191), always lower case. -/
def hexEncode (n : Nibble) : Byte :=
  if n.toNat ≤ 9 then BitVec.ofNat 8 (0x30 + n.toNat) else BitVec.ofNat 8 (0x61 + (n.toNat - 10))

/-- `encodeLength(payloadLen)` (R192), refused above the maximum (R193; DEDUCED, assumption log 16). `& 15` is the
4-bit argument. -/
def encodeLength (P : Params) (payloadLen : Nat) : Option Header :=
  let v := payloadLen + 4
  if P.maxDeclared < v then none
  else some ⟨hexEncode (BitVec.ofNat 4 (v >>> 12)), hexEncode (BitVec.ofNat 4 (v >>> 8)),
             hexEncode (BitVec.ofNat 4 (v >>> 4)), hexEncode (BitVec.ofNat 4 v)⟩

/-- `encodeFrame(p)` (R194). -/
def encodeFrame (P : Params) (p : List Byte) : Option (List Byte) :=
  (encodeLength P p.length).map fun h => h.bytes ++ p

/-- `encodeSideband(g, c)` (R198), not defined for other tags (R199). -/
def encodeSideband (g : Byte) (c : List Byte) : Option (List Byte) :=
  match tagOfByte g with
  | .invalid => none
  | .pack | .progress | .fatal => some (g :: c)

/-! ## The instructions -/

/-- `HEXENC` (R191). -/
def execHexenc (n : Nibble) (s : State) : Result := giveAnswer (.bytes [hexEncode n]) s

/-- `ENC_LENGTH` (R192, R193). -/
def execEncLength (payloadLen : Nat) (s : State) : Result :=
  match encodeLength s.params payloadLen with
  | some h => giveAnswer (.bytes h.bytes) s
  | none => .refused .encoderPreconditionViolation

/-- `ENC_FRAME` (R194, R193). -/
def execEncFrame (p : List Byte) (s : State) : Result :=
  match encodeFrame s.params p with
  | some bs => giveAnswer (.bytes bs) s
  | none => .refused .encoderPreconditionViolation

/-- `ENC_FLUSH` (R195): "0000". -/
def execEncFlush (s : State) : Result := giveAnswer (.bytes [0x30, 0x30, 0x30, 0x30]) s

/-- `ENC_DELIM` (R196): "0001". -/
def execEncDelim (s : State) : Result := giveAnswer (.bytes [0x30, 0x30, 0x30, 0x31]) s

/-- `ENC_RESPONSE_END` (R197): "0002". -/
def execEncResponseEnd (s : State) : Result := giveAnswer (.bytes [0x30, 0x30, 0x30, 0x32]) s

/-- `ENC_SIDEBAND` (R198, R199). -/
def execEncSideband (g : Byte) (c : List Byte) (s : State) : Result :=
  match encodeSideband g c with
  | some bs => giveAnswer (.bytes bs) s
  | none => .refused .sidebandTagUndefined

end Sys2Proof.Machine
end

