-- ==== Sys2Proof/Machine/Sideband.lean ====
section
/-! DEFINITION. Format S: `decodeSideband` on a payload, one rule per tag (spec/43_sideband_demux.md R181 to R184). The
demultiplexer "has no state, takes no event and never changes BUF": only the consumer's answer is written. -/

namespace Sys2Proof.Machine

/-- `SB_PACK` (R181): `return (PACK, p[1..])`. -/
def execSbPack (content : List Byte) (s : State) : Result := giveAnswer (.sideband .pack content) s

/-- `SB_PROGRESS` (R182): `return (PROGRESS, p[1..])`. -/
def execSbProgress (content : List Byte) (s : State) : Result := giveAnswer (.sideband .progress content) s

/-- `SB_FATAL` (R183): `return (FATAL, p[1..])`. It "raises nothing, stops nothing". -/
def execSbFatal (content : List Byte) (s : State) : Result := giveAnswer (.sideband .fatal content) s

/-- `SB_INVALID` (R184): `return (INVALID, p)`, "the original bytes unchanged". -/
def execSbInvalid (p : List Byte) (s : State) : Result :=
  whenWellFormed (.sbInvalid p) (giveAnswer (.sideband .invalid p)) s

end Sys2Proof.Machine
end

