-- ==== Sys2Proof/Machine/Dispatch.lean ====
section
/-! DEFINITION. One arm per constructor of `Instr`, in the opcode table's order. -/

namespace Sys2Proof.Machine

def exec (i : Instr) (s : State) : Host.Outcome State Fault Refusal :=
  match i with
  -- format H
  | .flush => Sys2Proof.Machine.execFlush s
  | .delim => Sys2Proof.Machine.execDelim s
  | .responseEnd => Sys2Proof.Machine.execResponseEnd s
  | .rsvd3 => Sys2Proof.Machine.execRsvd3 s
  | .data hdr payload => Sys2Proof.Machine.execData hdr payload s
  | .errline hdr txt => Sys2Proof.Machine.execErrline hdr txt s
  | .overmax hdr => Sys2Proof.Machine.execOvermax hdr s
  | .nonhex hdr => Sys2Proof.Machine.execNonhex hdr s
  -- format S
  | .sbPack content => Sys2Proof.Machine.execSbPack content s
  | .sbProgress content => Sys2Proof.Machine.execSbProgress content s
  | .sbFatal content => Sys2Proof.Machine.execSbFatal content s
  | .sbInvalid payload => Sys2Proof.Machine.execSbInvalid payload s
  -- format X
  | .hexdigDec b => Sys2Proof.Machine.execHexdigDec b s
  | .hexdigUpper b => Sys2Proof.Machine.execHexdigUpper b s
  | .hexdigLower b => Sys2Proof.Machine.execHexdigLower b s
  | .hexdigNone b => Sys2Proof.Machine.execHexdigNone b s
  -- format EV
  | .reset => Sys2Proof.Machine.execReset s
  | .pull => Sys2Proof.Machine.execPull s
  | .srcByteHdr b => Sys2Proof.Machine.execSrcByteHdr b s
  | .srcBytePay b => Sys2Proof.Machine.execSrcBytePay b s
  | .srcEoiHdr => Sys2Proof.Machine.execSrcEoiHdr s
  | .srcEoiPay => Sys2Proof.Machine.execSrcEoiPay s
  | .srcFailHdr => Sys2Proof.Machine.execSrcFailHdr s
  | .srcFailPay => Sys2Proof.Machine.execSrcFailPay s
  | .srcRsvd => Sys2Proof.Machine.execSrcRsvd s
  -- format REF
  | .hexenc n => Sys2Proof.Machine.execHexenc n s
  | .encLength payloadLen => Sys2Proof.Machine.execEncLength payloadLen s
  | .encFrame p => Sys2Proof.Machine.execEncFrame p s
  | .encFlush => Sys2Proof.Machine.execEncFlush s
  | .encDelim => Sys2Proof.Machine.execEncDelim s
  | .encResponseEnd => Sys2Proof.Machine.execEncResponseEnd s
  | .encSideband g c => Sys2Proof.Machine.execEncSideband g c s

end Sys2Proof.Machine
end

