-- ==== Sys2Proof/Machine/Stream.lean ====
section
/-! DEFINITION. One decode as a function on the whole remaining stream, the spec's normative behaviour
(spec/42_frame_scanner.md R141), and the sequence of outcomes of successive pulls (R170). -/

namespace Sys2Proof.Machine

/-- The next symbol of a source (R57), as port values: none when the source stalls. -/
def Source.next (src : Source) : Option (BitVec 2 × Byte × Source) :=
  match src.bs, src.term with
  | b :: bs, t => some (0, b, ⟨bs, t⟩)
  | [], .eoi => some (1, 0, src)
  | [], .fail => some (2, 0, src)
  | [], .stall => none

/-- One decode's result (R141): the kind, the bytes it carries, and the source left for the next decode. -/
structure Decoded where
  kind : OutKind
  carried : List Byte
  rest : Source
  deriving DecidableEq, Repr

/-- What a decode reports when the source ends before the bytes it needs; none is `Blocked`. -/
def endEarly (term : Terminator) (atEoi : OutKind) : Option Decoded :=
  match term with
  | .stall => none
  | .fail => some ⟨.sourceFailure, [], ⟨[], .fail⟩⟩
  | .eoi => some ⟨atEoi, [], ⟨[], .eoi⟩⟩

/-- Steps 4 to 6 of R140: the payload of length `n`. -/
def decodePayload (n : Nat) (rest : List Byte) (term : Terminator) : Option Decoded :=
  if rest.length < n then endEarly term .truncated
  else if 4 ≤ n ∧ (rest.take n).take 4 = Config.errMagic then
    some ⟨.errorLine, (rest.take n).drop 4, ⟨rest.drop n, term⟩⟩
  else some ⟨.payload, rest.take n, ⟨rest.drop n, term⟩⟩

/-- `Decode1(s)` (R141). None is `Blocked`. -/
def decode1 (P : Params) (src : Source) : Option Decoded :=
  match src.bs with
  | [] => endEarly src.term .endOfInput
  | c0 :: c1 :: c2 :: c3 :: rest =>
    let h : Header := ⟨c0, c1, c2, c3⟩
    match classify P (lenParse h) with
    | .nonhex => some ⟨.invalidLength, h.bytes, ⟨rest, src.term⟩⟩
    | .flush => some ⟨.flush, [], ⟨rest, src.term⟩⟩
    | .delim => some ⟨.delim, [], ⟨rest, src.term⟩⟩
    | .responseEnd => some ⟨.responseEnd, [], ⟨rest, src.term⟩⟩
    | .rsvd3 => some ⟨.invalidLength, h.bytes, ⟨rest, src.term⟩⟩
    | .overmax => some ⟨.invalidLength, h.bytes, ⟨rest, src.term⟩⟩
    | .data n => decodePayload n rest src.term
  | _ => endEarly src.term .truncated

/-- The first `k` elements of `Outcomes(s)` (R170); fewer where a decode is `Blocked`. -/
def outcomes (P : Params) : Nat → Source → List (OutKind × List Byte)
  | 0, _ => []
  | k + 1, src =>
    match decode1 P src with
    | none => []
    | some d => (d.kind, d.carried) :: outcomes P k d.rest

/-- The source events of one decode (R164): one per byte consumed, and one more where an end of the source decided
the outcome. -/
def eventsOf (src : Source) (d : Decoded) : Nat :=
  (src.bs.length - d.rest.bs.length) +
    match d.kind with
    | .endOfInput | .truncated | .sourceFailure => 1
    | .flush | .delim | .responseEnd | .invalidLength | .payload | .errorLine => 0

end Sys2Proof.Machine
end

