-- ==== Sys2Proof/Machine/Fetch.lean ====
section
/-! DEFINITION. Fetching: which instruction the environment's next move makes the machine run, and in which state.
An event happens only when it is offered and the matching ready is 1 (spec/10_state.md R39,
spec/92_eei_decisions.md D2). -/

namespace Sys2Proof.Machine

/-- What a move comes to. -/
inductive Fetched where
  /-- The instruction to run, and the state it runs in (the move, and a symbol taken, are gone). -/
  | run (i : Instr) (s : State)
  /-- No event happens. -/
  | quiet (s : State)
  deriving DecidableEq, Repr

/-- The instruction a signal is in the state's phase; a signal that is not accepted has no effect (R150) and leaves
the state `unchanged`, the move used up (DEDUCED, assumption log 12). -/
def fetchSignal (g : Signal) (taken unchanged : State) : Fetched :=
  match decode taken.params taken.phase g with
  | .ok i => .run i taken
  | .error _ => .quiet unchanged

/-- A move, in the state without it. -/
def fetchMove (m : Move) (s : State) : Fetched :=
  match m with
  | .rst => fetchSignal .rst s s
  | .pull => fetchSignal .pullReq s s
  | .src =>
    match s.source.next with
    | none => .quiet s
    | some (kind, data, rest) => fetchSignal (.src kind data) { s with source := rest } s
  | .present kind data => fetchSignal (.src kind data) s s
  | .call =>
    if s.phase = .idle then
      match decodeFrame s.params s.source.bs with
      | .ok (i, rest) => .run i { s with source := ⟨rest, s.source.term⟩ }
      | .error _ => fetchSignal .pullReq s s
    else fetchSignal .pullReq s s
  | .attach src => .quiet { s with source := src }
  | .demux p => fetchSignal (.message p) s s
  | .digit b => fetchSignal (.digit b) s s
  | .ref f => fetchSignal (.call f) s s

/-- What the machine does next. With no move to come it waits (R151, R250). -/
def fetch (s : State) : Fetched :=
  match s.moves with
  | [] => .quiet s
  | m :: ms => fetchMove m { s with moves := ms }

/-- The state in which a table signal is what `fetch` takes next. -/
def placeSignal (s : State) (g : Signal) : State :=
  match g with
  | .frame bs =>
    { s with phase := .idle, source := ⟨bs ++ s.source.bs, s.source.term⟩, moves := .call :: s.moves }
  | .message p => { s with moves := .demux p :: s.moves }
  | .digit b => { s with moves := .digit b :: s.moves }
  | .rst => { s with moves := .rst :: s.moves }
  | .pullReq => { s with phase := .idle, moves := .pull :: s.moves }
  | .src kind data => { s with phase := .hdr, moves := .present kind data :: s.moves }
  | .call f => { s with moves := .ref f :: s.moves }

end Sys2Proof.Machine
end

