-- ==== Sys2Proof/Machine/Step.lean ====
section
/-! DEFINITION. The step: the environment's next move, decoded, and the instruction it is run (spec/00_scope.md R11). -/

namespace Sys2Proof.Machine

/-- One step of the machine. -/
def step (s : State) : Host.Outcome State Fault Refusal :=
  match fetch s with
  | .run i t => exec i t
  | .quiet t => .next t

/-- The state in which the next step fetches and runs the instruction of a table word (DESIGN CHOICE, assumption
log 9). -/
def State.withFetchWord (s : State) (nbits w : Nat) : State := placeSignal s (tableSignal s.params nbits w)

end Sys2Proof.Machine
end

