-- ==== Sys2Proof/Machine/Flags.lean ====
section
/-! DEFINITION. The outputs that are functions of the state (spec/10_state.md R28, R30, R31, R39): status, the
outcome's code and view, the raw header, the read port, the sideband outputs; and the readings of an outcome that
spec/60_exceptions.md gives its consumer (R211, R215, R226). -/

namespace Sys2Proof.Machine

/-! ## Codes -/

/-- The code of `PHASE` (R21). -/
def phaseCode : Phase → BitVec 2
  | .idle => 0
  | .hdr => 1
  | .pay => 2

/-- The code on `OUT_KIND` (R90). -/
def outKindCode : OutKind → BitVec 4
  | .flush => 0
  | .delim => 1
  | .responseEnd => 2
  | .invalidLength => 3
  | .payload => 4
  | .errorLine => 5
  | .endOfInput => 6
  | .truncated => 7
  | .sourceFailure => 8

/-! ## Status (R30) -/

/-- `BUSY`. -/
def State.busy (s : State) : Bool := s.phase != .idle

/-- `PULL_READY`. -/
def State.pullReady (s : State) : Bool := s.phase == .idle

/-- `SRC_READY`. -/
def State.srcReady (s : State) : Bool := s.phase == .hdr || s.phase == .pay

/-! ## The outcome -/

/-- `View()` = `MemRead(VIEW_OFF, VIEW_LEN)` (R14). -/
def State.view (s : State) : Option (List Byte) := s.buf.readRange s.viewOff.toNat s.viewLen.toNat

/-- `RAW` where it is meaningful: `OUT_VALID` = 1 and `HCNT` = 4 (R28). -/
def State.raw (s : State) : Option Header :=
  if s.outValid ∧ s.hcnt = 4 then s.buf.header else none

/-- The raw header as one word, the first byte in bits 31:24 (R92). -/
def rawWord (h : Header) : BitVec 32 := h.c0 ++ h.c1 ++ h.c2 ++ h.c3

/-! ## The read port -/

/-- `rd_data` where R53 specifies it, case (a); none in the cases (b), (c) and (d). -/
def State.readPort (s : State) (addr : BitVec 16) : Option Byte :=
  if s.phase = .idle ∧ addr.toNat < s.params.bufCap then s.buf.read addr.toNat else none

/-- `rd_data` as a port that always shows something: a free draw, numbered by `draw`, where R53 leaves it
unspecified. -/
def State.rdData (s : State) (draw : Nat) (addr : BitVec 16) : Byte :=
  (s.readPort addr).getD (Config.freeRead draw addr)

/-! ## The sideband outputs -/

/-- `SB_TAG`, `SB_OFF`, `SB_LEN`. -/
structure SidebandOut where
  tag : Tag
  off : Word16
  len : Word16
  deriving DecidableEq, Repr

/-- The sideband outputs (R185). None only where the view names a cell that was never written, which no state
that meets the invariant has. -/
def State.sidebandOut (s : State) : Option SidebandOut :=
  if s.outValid ∧ s.outKind = .payload then
    match s.view with
    | none => none
    | some p =>
      match (decodeSideband p).1 with
      | .invalid => some ⟨.invalid, s.viewOff, s.viewLen⟩
      | t => some ⟨t, s.viewOff + 1, s.viewLen - 1⟩
  else some ⟨.invalid, s.viewOff, s.viewLen⟩

/-! ## How a consumer reads an outcome -/

/-- The classes of R211. -/
inductive OutClass where
  | payload | control | errorLine | failure
  deriving DecidableEq, Repr

/-- `Class(kind)` (R211). -/
def classOf : OutKind → OutClass
  | .payload => .payload
  | .flush | .delim | .responseEnd => .control
  | .errorLine => .errorLine
  | .invalidLength | .endOfInput | .truncated | .sourceFailure => .failure

/-- The causes of `INVALID_LENGTH` (R215). -/
inductive InvalidCause where
  | nonhex | rsvd3 | overmax
  deriving DecidableEq, Repr

/-- `InvalidCause(raw)` (R215). -/
def invalidCause (h : Header) : InvalidCause :=
  match lenParse h with
  | none => .nonhex
  | some l => if l = 3 then .rsvd3 else .overmax

/-- Whether the next decode starts at a true frame boundary (R226). -/
def leavesInStep : OutKind → Bool
  | .payload | .errorLine | .flush | .delim | .responseEnd | .endOfInput => true
  | .invalidLength | .truncated | .sourceFailure => false

end Sys2Proof.Machine
end

