-- ==== Sys2Proof/Machine/Run.lean ====
section
/-! DEFINITION. Several steps, and the next state of a result as an option. -/

namespace Sys2Proof.Machine

/-- `k` steps, stopping at the first fault or refusal. -/
def runSteps : Nat → State → Result
  | 0, s => .next s
  | k + 1, s => andThen (step s) (runSteps k)

/-- The next state, if there is one. -/
def nextState : Result → Option State
  | .next s => some s
  | .fault _ => none
  | .refused _ => none

/-- Whether a move is the source presenting a symbol, from its value or as raw port values. -/
def Move.ofSource : Move → Bool
  | .src | .present _ _ => true
  | .rst | .pull | .call | .attach _ | .demux _ | .digit _ | .ref _ => false

end Sys2Proof.Machine
end

