-- ==== Sys2Proof/Safety.lean ====
section
/-! DEFINITION. The invariant of spec/10_state.md R32 (with spec/20_memory.md R51, R54 and spec/42_frame_scanner.md R146),
and how a run ends (spec/70_reset_and_hazards.md R251). -/

namespace Sys2Proof.Machine

/-- Every cell of `[a, a + n)` has been written (R54). -/
abbrev Written (m : Memory) (a n : Nat) : Prop := ∀ k, k < n → (m.read (a + k)).isSome = true

/-- The header in `BUF[0..3]` spells `LEN` (R32 (c), (f)): `LenParse(MemRead(0, 4)) = LEN`. -/
abbrev HeaderSpellsLen (s : State) : Prop := s.buf.header.bind lenParse = some s.len

/-- The view each kind publishes (R146's table). -/
def ViewOfKind (s : State) : Prop :=
  match s.outKind with
  | .flush | .delim | .responseEnd | .endOfInput | .truncated | .sourceFailure => s.viewOff = 0 ∧ s.viewLen = 0
  | .invalidLength => s.viewOff = 0 ∧ s.viewLen = 4
  | .payload => s.viewOff = 4
  | .errorLine => s.viewOff = 8 ∧ s.buf.readRange 4 4 = some Config.errMagic

/-- The invariant of every state reachable from reset (R32). -/
structure Inv (s : State) : Prop where
  /-- The parameters meet R8's constraints. -/
  paramsValid : s.params.Valid
  /-- BUF is in canonical form. -/
  bufWf : s.buf.wf = true
  /-- (e): no address at or above `MAX_DECLARED` has been written. -/
  bufBelow : s.buf.below s.params.maxDeclared = true
  /-- R22: `HCNT` is 0 to 4. -/
  hcntLe : s.hcnt.toNat ≤ 4
  /-- The header bytes counted by `HCNT` have been written. -/
  headerWritten : Written s.buf 0 s.hcnt.toNat
  /-- (b). -/
  inHdr : s.phase = .hdr → s.hcnt.toNat ≤ 3 ∧ s.outValid = false
  /-- (c), and the payload bytes counted by `PCNT` have been written. -/
  inPay : s.phase = .pay → s.hcnt = 4 ∧ s.outValid = false ∧ 5 ≤ s.len.toNat ∧
    s.len.toNat ≤ s.params.maxDeclared ∧ s.pcnt.toNat + 4 < s.len.toNat ∧ HeaderSpellsLen s ∧
    Written s.buf 4 s.pcnt.toNat
  /-- (d), the view of the kind, and the view's bytes have been written. -/
  published : s.outValid = true → s.phase = .idle ∧
    s.viewOff.toNat + s.viewLen.toNat ≤ s.params.maxDeclared ∧ ViewOfKind s ∧
    Written s.buf s.viewOff.toNat s.viewLen.toNat
  /-- (f). -/
  frameInBuf : s.outValid = true → s.outKind = .payload ∨ s.outKind = .errorLine →
    s.hcnt = 4 ∧ s.len.toNat = s.viewOff.toNat + s.viewLen.toNat ∧ HeaderSpellsLen s

/-! ## What an event leaves alone -/

/-- The parameters and the environment's fields, which no instruction but a pure function's answer writes. -/
def SameEnvironment (s t : State) : Prop :=
  t.params = s.params ∧ t.source = s.source ∧ t.moves = s.moves ∧ t.answer = s.answer

/-- Every BUF address outside `[a, a + n)` reads as before. -/
def SameOutside (s t : State) (a n : Nat) : Prop :=
  ∀ x, x < a ∨ a + n ≤ x → t.buf.read x = s.buf.read x

/-- Every BUF address reads as before. -/
def SameBuffer (s t : State) : Prop := ∀ x, t.buf.read x = s.buf.read x

/-- The bytes `bs` stand in BUF from address `a`. -/
def Holds (t : State) (a : Nat) (bs : List Byte) : Prop := t.buf.readRange a bs.length = some bs

/-- The five writes of `Finish(k, off, len)` (R146). -/
def Published (t : State) (k : OutKind) (off len : Nat) : Prop :=
  t.outValid = true ∧ t.phase = .idle ∧ t.outKind = k ∧ t.viewOff.toNat = off ∧ t.viewLen.toNat = len

/-! ## Runs -/

/-- A run has ended normally: the published outcome is `END_OF_INPUT` (R251). -/
def EndedNormally (s : State) : Prop := s.outValid = true ∧ s.outKind = .endOfInput

/-- A run whose last outcome is this one ended abnormally (R251). -/
def EndedAbnormally (s : State) : Prop :=
  s.outValid = true ∧ (s.outKind = .truncated ∨ s.outKind = .sourceFailure ∨ s.outKind = .invalidLength)

end Sys2Proof.Machine
end

