-- ==== Sys2Proof/Certificates/Slice0/Obligations.lean ====
section
/-! DEFINITION. The statements for the provers, from the numbered rules of spec/. They hold for an instance with any
parameters that meet R8's constraints (`Params.Valid`); the document's values are 65520, 65516 and 65524 for
`maxDeclared`, `maxPayloadEnc` and `bufCap`. -/

open Sys2Proof Sys2Proof.Machine

/-! ## Encodings -/

/-- R70, R76, R83, R88: decoding the signal of a well-formed instruction, in a phase its row accepts, gives the
instruction back, with every operand at every value the encoding admits. -/
def Obligations.DecodeOfEncodeIsTheInstruction : Prop :=
  ∀ (P : Params) (ph : Phase) (i : Instr), P.Valid → i.wellFormed P = true → i.fitsPhase ph = true →
    decode P ph (encode i) = .ok i

/-- What the decoder answers is a well-formed instruction of the signal's format that fits the phase and encodes to
the signal again, but for the `src_data` that R88 says is ignored. -/
def Obligations.DecodedInstructionEncodesBack : Prop :=
  ∀ (P : Params) (ph : Phase) (g : Signal) (i : Instr), decode P ph g = .ok i →
    i.wellFormed P = true ∧ i.fitsPhase ph = true ∧ i.format = g.format ∧
    (encode i = g ∨ ∃ k d, k ≠ 0 ∧ g = .src k d ∧ encode i = .src k 0)

/-- R81: the frame at the front of a stream is exactly the instruction's wire bytes, and the next frame begins at
the very next byte. -/
def Obligations.FrameDecodingSplitsTheStreamExactly : Prop :=
  ∀ (P : Params) (bs rest : List Byte) (i : Instr), P.Valid →
    (decodeFrame P bs = .ok (i, rest) ↔ (i.format = .h ∧ i.wellFormed P = true ∧ bs = wireBytes i ++ rest))

/-- R120 (with R77, R78 for the spellings): every header is in exactly the class its conditions name. -/
def Obligations.EveryHeaderIsInTheClassOfItsValue : Prop :=
  ∀ (P : Params) (h : Header), P.Valid →
    (classify P (lenParse h) = .nonhex ↔ ∃ b ∈ h.bytes, isHexDigit b = false) ∧
    (classify P (lenParse h) = .flush ↔ h = ⟨0x30, 0x30, 0x30, 0x30⟩) ∧
    (classify P (lenParse h) = .delim ↔ h = ⟨0x30, 0x30, 0x30, 0x31⟩) ∧
    (classify P (lenParse h) = .responseEnd ↔ h = ⟨0x30, 0x30, 0x30, 0x32⟩) ∧
    (classify P (lenParse h) = .rsvd3 ↔ h = ⟨0x30, 0x30, 0x30, 0x33⟩) ∧
    (classify P (lenParse h) = .overmax ↔ ∃ l, lenParse h = some l ∧ P.maxDeclared < l.toNat) ∧
    (∀ n, classify P (lenParse h) = .data n ↔
      ∃ l, lenParse h = some l ∧ 4 ≤ l.toNat ∧ l.toNat ≤ P.maxDeclared ∧ n = l.toNat - 4)

/-- R100: the value of every hex digit, and no other byte has one. -/
def Obligations.HexDecodeOfEveryByte : Prop :=
  ∀ b : Byte,
    (0x30 ≤ b.toNat ∧ b.toNat ≤ 0x39 → hexDecode b = some (BitVec.ofNat 4 (b.toNat - 0x30))) ∧
    (0x61 ≤ b.toNat ∧ b.toNat ≤ 0x66 → hexDecode b = some (BitVec.ofNat 4 (b.toNat - 0x61 + 10))) ∧
    (0x41 ≤ b.toNat ∧ b.toNat ≤ 0x46 → hexDecode b = some (BitVec.ofNat 4 (b.toNat - 0x41 + 10))) ∧
    (b.toNat < 0x30 ∨ (0x39 < b.toNat ∧ b.toNat < 0x41) ∨ (0x46 < b.toNat ∧ b.toNat < 0x61) ∨ 0x66 < b.toNat →
      hexDecode b = none)

/-- R74, R104, R105: the field has a value exactly when all four characters are hex digits, and the value is
`4096*n0 + 256*n1 + 16*n2 + n3`, the first byte most significant (R59). -/
def Obligations.LengthFieldValueAllOrNothing : Prop :=
  ∀ h : Header,
    (lenParse h = none ↔ hexDecode h.c0 = none ∨ hexDecode h.c1 = none ∨ hexDecode h.c2 = none ∨ hexDecode h.c3 = none) ∧
    (∀ n0 n1 n2 n3, hexDecode h.c0 = some n0 → hexDecode h.c1 = some n1 → hexDecode h.c2 = some n2 →
      hexDecode h.c3 = some n3 →
      ∃ l, lenParse h = some l ∧ l.toNat = 4096 * n0.toNat + 256 * n1.toNat + 16 * n2.toNat + n3.toNat)

/-- Words of the opcode table, written out from R72, R77, R78, R83 and R88, decode to the instructions they stand
for. How a bare table word is told apart by its width is the model's choice (DESIGN CHOICE, assumption log 9). -/
def Obligations.TableWordsDecodeToTheirRows : Prop :=
  decodeTableWord 32 0x30303030 = some .flush ∧ decodeTableWord 32 0x30303031 = some .delim ∧
  decodeTableWord 32 0x30303032 = some .responseEnd ∧ decodeTableWord 32 0x30303033 = some .rsvd3 ∧
  decodeTableWord 32 0x30303034 = some (.data ⟨0x30, 0x30, 0x30, 0x34⟩ []) ∧
  decodeTableWord 32 0x66666631 = some (.overmax ⟨0x66, 0x66, 0x66, 0x31⟩) ∧
  decodeTableWord 32 0x24242424 = some (.nonhex ⟨0x24, 0x24, 0x24, 0x24⟩) ∧
  decodeTableWord 8 1 = some (.sbPack []) ∧ decodeTableWord 8 2 = some (.sbProgress []) ∧
  decodeTableWord 8 3 = some (.sbFatal []) ∧
  decodeTableWord 2 0 = some (.srcByteHdr 0) ∧ decodeTableWord 2 1 = some .srcEoiHdr ∧
  decodeTableWord 2 2 = some .srcFailHdr ∧ decodeTableWord 2 3 = some .srcRsvd ∧
  decode Config.params .pay (.src 0 0x5a) = .ok (.srcBytePay 0x5a) ∧
  decode Config.params .pay (.src 1 0) = .ok .srcEoiPay ∧
  decode Config.params .pay (.src 2 0) = .ok .srcFailPay ∧
  decode Config.params .idle (.digit 0x39) = .ok (.hexdigDec 0x39) ∧
  decode Config.params .idle (.digit 0x46) = .ok (.hexdigUpper 0x46) ∧
  decode Config.params .idle (.digit 0x61) = .ok (.hexdigLower 0x61) ∧
  decode Config.params .idle (.digit 0x67) = .ok (.hexdigNone 0x67)

/-! ## The pure functions as instructions -/

/-- R100: each digit class's row returns the digit's value, and the fourth returns none; nothing else is written. That
the result goes to `answer` is the model's choice (DESIGN CHOICE, assumption log 4). -/
def Obligations.HexDigitRowsReturnTheNibble : Prop :=
  ∀ (b : Byte) (s : State),
    (0x30 ≤ b.toNat ∧ b.toNat ≤ 0x39 →
      exec (.hexdigDec b) s = .next { s with answer := .nibble (some (BitVec.ofNat 4 (b.toNat - 0x30))) }) ∧
    (0x41 ≤ b.toNat ∧ b.toNat ≤ 0x46 →
      exec (.hexdigUpper b) s = .next { s with answer := .nibble (some (BitVec.ofNat 4 (b.toNat - 0x41 + 10))) }) ∧
    (0x61 ≤ b.toNat ∧ b.toNat ≤ 0x66 →
      exec (.hexdigLower b) s = .next { s with answer := .nibble (some (BitVec.ofNat 4 (b.toNat - 0x61 + 10))) }) ∧
    (isHexDigit b = false → exec (.hexdigNone b) s = .next { s with answer := .nibble none })

/-- R180 to R184: each tag's row returns the tag and the remainder, the invalid one the original bytes; nothing else
is written, and the answer is `decodeSideband` of the message. That the result goes to `answer` is the model's choice
(DESIGN CHOICE, assumption log 4). -/
def Obligations.SidebandRowsReturnTagAndRemainder : Prop :=
  ∀ s : State,
    (∀ c, exec (.sbPack c) s = .next { s with answer := .sideband .pack c } ∧ decodeSideband (1 :: c) = (.pack, c)) ∧
    (∀ c, exec (.sbProgress c) s = .next { s with answer := .sideband .progress c } ∧
      decodeSideband (2 :: c) = (.progress, c)) ∧
    (∀ c, exec (.sbFatal c) s = .next { s with answer := .sideband .fatal c } ∧ decodeSideband (3 :: c) = (.fatal, c)) ∧
    (∀ p : List Byte, (∀ b c, p = b :: c → b ≠ 1 ∧ b ≠ 2 ∧ b ≠ 3) →
      exec (.sbInvalid p) s = .next { s with answer := .sideband .invalid p } ∧ decodeSideband p = (.invalid, p))

/-- R189: `decodeSideband` and `encodeSideband` are inverse on the three tags. -/
def Obligations.SidebandDecodeInvertsEncode : Prop :=
  (∀ (t : Tag) (c : List Byte), t ≠ .invalid →
    ∃ p, encodeSideband ((tagCode t).setWidth 8) c = some p ∧ decodeSideband p = (t, c)) ∧
  (∀ (p r : List Byte) (t : Tag), decodeSideband p = (t, r) → t ≠ .invalid →
    encodeSideband ((tagCode t).setWidth 8) r = some p)

/-- R198, R199: `encodeSideband` prepends the tag byte for the three defined tags and is refused for any other. The
`answer` field is the model's choice (DESIGN CHOICE, assumption log 4). -/
def Obligations.SidebandEncoderPrependsOrRefuses : Prop :=
  ∀ (g : Byte) (c : List Byte) (s : State),
    (g = 1 ∨ g = 2 ∨ g = 3 → exec (.encSideband g c) s = .next { s with answer := .bytes (g :: c) }) ∧
    (g ≠ 1 ∧ g ≠ 2 ∧ g ≠ 3 → exec (.encSideband g c) s = .refused .sidebandTagUndefined)

/-- R191: the digit's ASCII byte, lower case, and `hexDecode(hexEncode(n)) = Some n`. The `answer` field is the
model's choice (DESIGN CHOICE, assumption log 4). -/
def Obligations.HexEncodeReturnsTheDigit : Prop :=
  ∀ (n : Nibble) (s : State), ∃ b : Byte,
    exec (.hexenc n) s = .next { s with answer := .bytes [b] } ∧
    b.toNat = (if n.toNat ≤ 9 then 0x30 + n.toNat else 0x61 + (n.toNat - 10)) ∧ hexDecode b = some n

/-- R192, R194: up to the maximum the encoder returns the four digits of `payloadLen + 4`, most significant first, and
for a frame the payload unchanged after them. The `answer` field is the model's choice (DESIGN CHOICE, assumption log
4). -/
def Obligations.EncoderReturnsPrefixAndPayload : Prop :=
  (∀ (k : Nat) (s : State), s.params.Valid → k ≤ s.params.maxPayloadEnc →
    exec (.encLength k) s = .next { s with answer := (.bytes
      [hexEncode (BitVec.ofNat 4 ((k + 4) / 4096)), hexEncode (BitVec.ofNat 4 ((k + 4) / 256)),
       hexEncode (BitVec.ofNat 4 ((k + 4) / 16)), hexEncode (BitVec.ofNat 4 (k + 4))]) }) ∧
  (∀ (p : List Byte) (s : State), s.params.Valid → p.length ≤ s.params.maxPayloadEnc →
    exec (.encFrame p) s = .next { s with answer := (.bytes
      ([hexEncode (BitVec.ofNat 4 ((p.length + 4) / 4096)), hexEncode (BitVec.ofNat 4 ((p.length + 4) / 256)),
        hexEncode (BitVec.ofNat 4 ((p.length + 4) / 16)), hexEncode (BitVec.ofNat 4 (p.length + 4))] ++ p)) })

/-- R193: above `MAX_PAYLOAD_ENC` = 65516 the encoder refuses and produces no bytes. -/
def Obligations.EncoderRefusesAboveTheMaximum : Prop :=
  Config.params.maxPayloadEnc = 65516 ∧
  (∀ (k : Nat) (s : State), s.params.maxPayloadEnc < k →
    exec (.encLength k) s = .refused .encoderPreconditionViolation) ∧
  (∀ (p : List Byte) (s : State), s.params.maxPayloadEnc < p.length →
    exec (.encFrame p) s = .refused .encoderPreconditionViolation)

/-- R195 to R197, R206: the three literals, each decoding to its control signal and consuming exactly 4 bytes. The
`answer` field is the model's choice (DESIGN CHOICE, assumption log 4). -/
def Obligations.ControlEncodersRoundTrip : Prop :=
  ∀ (s : State) (x : List Byte) (t : Terminator),
    (exec .encFlush s = .next { s with answer := .bytes [0x30, 0x30, 0x30, 0x30] } ∧
      decode1 s.params ⟨[0x30, 0x30, 0x30, 0x30] ++ x, t⟩ = some ⟨.flush, [], ⟨x, t⟩⟩) ∧
    (exec .encDelim s = .next { s with answer := .bytes [0x30, 0x30, 0x30, 0x31] } ∧
      decode1 s.params ⟨[0x30, 0x30, 0x30, 0x31] ++ x, t⟩ = some ⟨.delim, [], ⟨x, t⟩⟩) ∧
    (exec .encResponseEnd s = .next { s with answer := .bytes [0x30, 0x30, 0x30, 0x32] } ∧
      decode1 s.params ⟨[0x30, 0x30, 0x30, 0x32] ++ x, t⟩ = some ⟨.responseEnd, [], ⟨x, t⟩⟩)

/-- R207. -/
def Obligations.LengthFieldRoundTrip : Prop :=
  ∀ (P : Params) (n : Nat), P.Valid → n ≤ P.maxPayloadEnc →
    ∃ h, encodeLength P n = some h ∧ lenParse h = some (BitVec.ofNat 16 (n + 4)) ∧
      classify P (some (BitVec.ofNat 16 (n + 4))) = .data n

/-- R200: what every frame the encoder produces looks like. -/
def Obligations.EncodedFrameKeepsTheFrameInvariant : Prop :=
  ∀ (P : Params) (p bs : List Byte), P.Valid → encodeFrame P p = some bs →
    ∃ h l, bs = h.bytes ++ p ∧ lenParse h = some l ∧ l.toNat = 4 + p.length ∧ 4 ≤ l.toNat ∧
      l.toNat ≤ P.maxDeclared ∧ ∀ b ∈ h.bytes, isDecDigit b = true ∨ isLowerDigit b = true

/-- R205: decoding an encoded frame gives the payload back, or the text after "ERR ", and leaves what follows. -/
def Obligations.FrameRoundTripThroughDecode1 : Prop :=
  ∀ (P : Params) (p x : List Byte) (t : Terminator), P.Valid → p.length ≤ P.maxPayloadEnc →
    ∃ bs, encodeFrame P p = some bs ∧
      (p.take 4 ≠ [0x45, 0x52, 0x52, 0x20] →
        decode1 P ⟨bs ++ x, t⟩ = some ⟨.payload, p, ⟨x, t⟩⟩) ∧
      (p.take 4 = [0x45, 0x52, 0x52, 0x20] →
        decode1 P ⟨bs ++ x, t⟩ = some ⟨.errorLine, p.drop 4, ⟨x, t⟩⟩)

/-! ## Reset -/

/-- R40: the state after reset and the outputs derived from it. -/
def Obligations.ResetStateHasTheTablesValues : Prop :=
  State.reset.phase = .idle ∧ State.reset.hcnt = 0 ∧ State.reset.len = 0 ∧ State.reset.pcnt = 0 ∧
  State.reset.outValid = false ∧ outKindCode State.reset.outKind = 0 ∧ State.reset.viewOff = 0 ∧
  State.reset.viewLen = 0 ∧ (∀ a, State.reset.buf.read a = none) ∧ State.reset.consumed = 0 ∧
  State.reset.busy = false ∧ State.reset.srcReady = false ∧ State.reset.pullReady = true ∧
  State.reset.sidebandOut = some ⟨.invalid, 0, 0⟩

/-- R240: `RESET` is accepted in every phase, writes every register, and leaves BUF (and the source) as it was. -/
def Obligations.ResetEventWritesTheResetValues : Prop :=
  ∀ s : State, exec .reset s = .next { s with
    phase := .idle, hcnt := 0, len := 0, pcnt := 0, outValid := false, outKind := .flush, viewOff := 0, viewLen := 0,
    consumed := 0 }

/-! ## Events -/

/-- R142: an accepted `PULL` writes these five registers and no other state. -/
def Obligations.PullOpensADecode : Prop :=
  ∀ s : State, s.phase = .idle →
    exec .pull s = .next { s with outValid := false, viewLen := 0, hcnt := 0, pcnt := 0, phase := .hdr }

/-- R150: an event that is not accepted has no effect; in `IDLE` nothing is taken from the source; `RESET` is accepted
in every phase. -/
def Obligations.UnacceptedEventsChangeNothing : Prop :=
  ∀ s : State,
    (s.phase ≠ .idle → exec .pull s = .next s) ∧
    (s.phase ≠ .hdr → (∀ b, exec (.srcByteHdr b) s = .next s) ∧ exec .srcEoiHdr s = .next s ∧
      exec .srcFailHdr s = .next s) ∧
    (s.phase ≠ .pay → (∀ b, exec (.srcBytePay b) s = .next s) ∧ exec .srcEoiPay s = .next s ∧
      exec .srcFailPay s = .next s) ∧
    (∀ ms, s.phase = .idle → s.moves = .src :: ms → step s = .next { s with moves := ms }) ∧
    (∀ ms, s.phase ≠ .idle → s.moves = .pull :: ms → step s = .next { s with moves := ms }) ∧
    (∃ t, exec .reset s = .next t ∧ t.phase = .idle ∧ t.outValid = false)

/-- R143: a header byte that is not the fourth is stored at `HCNT` and counted; nothing else is written. -/
def Obligations.HeaderByteIsStoredAtHcnt : Prop :=
  ∀ (s : State) (b : Byte), s.params.Valid → s.phase = .hdr → s.hcnt.toNat < 3 →
    exec (.srcByteHdr b) s = .next { s with
      buf := s.buf.write s.hcnt.toNat b, hcnt := s.hcnt + 1, consumed := s.consumed + 1 }

/-- R144: the fourth header byte ends the header in the same event, by the class of the four bytes. -/
def Obligations.FourthHeaderByteCompletesTheHeader : Prop :=
  ∀ (s : State) (c0 c1 c2 b : Byte), s.params.Valid → s.phase = .hdr → s.hcnt = 3 →
    s.buf.read 0 = some c0 → s.buf.read 1 = some c1 → s.buf.read 2 = some c2 →
    let h : Header := ⟨c0, c1, c2, b⟩
    let u : State := { s with buf := s.buf.write 3 b, hcnt := 4, consumed := s.consumed + 1 }
    (lenParse h = none → exec (.srcByteHdr b) s = .next { u with
      len := 0, outKind := .invalidLength, viewOff := 0, viewLen := 4, outValid := true, phase := .idle }) ∧
    (∀ l, lenParse h = some l →
      (l.toNat = 0 → exec (.srcByteHdr b) s = .next { u with
        len := 0, outKind := .flush, viewOff := 0, viewLen := 0, outValid := true, phase := .idle }) ∧
      (l.toNat = 1 → exec (.srcByteHdr b) s = .next { u with
        len := 1, outKind := .delim, viewOff := 0, viewLen := 0, outValid := true, phase := .idle }) ∧
      (l.toNat = 2 → exec (.srcByteHdr b) s = .next { u with
        len := 2, outKind := .responseEnd, viewOff := 0, viewLen := 0, outValid := true, phase := .idle }) ∧
      (l.toNat = 3 → exec (.srcByteHdr b) s = .next { u with
        len := 3, outKind := .invalidLength, viewOff := 0, viewLen := 4, outValid := true, phase := .idle }) ∧
      (l.toNat = 4 → exec (.srcByteHdr b) s = .next { u with
        len := 4, outKind := .payload, viewOff := 4, viewLen := 0, outValid := true, phase := .idle }) ∧
      (5 ≤ l.toNat → l.toNat ≤ s.params.maxDeclared → exec (.srcByteHdr b) s = .next { u with
        len := l, pcnt := 0, phase := .pay }) ∧
      (s.params.maxDeclared < l.toNat → exec (.srcByteHdr b) s = .next { u with
        len := l, outKind := .invalidLength, viewOff := 0, viewLen := 4, outValid := true, phase := .idle }))

/-- R147: a payload byte that is not the last is stored at `4 + PCNT` and counted; nothing else is written. -/
def Obligations.PayloadByteIsStoredAfterTheHeader : Prop :=
  ∀ (s : State) (b : Byte), s.params.Valid → s.phase = .pay → s.len.toNat ≤ s.params.maxDeclared →
    s.pcnt.toNat + 5 < s.len.toNat →
    exec (.srcBytePay b) s = .next { s with
      buf := s.buf.write (4 + s.pcnt.toNat) b, pcnt := s.pcnt + 1, consumed := s.consumed + 1 }

/-- R148: the last payload byte publishes the outcome in the same event, after the "ERR " test on the complete
payload. -/
def Obligations.LastPayloadBytePublishesAfterTheErrTest : Prop :=
  ∀ (s : State) (b : Byte), s.params.Valid → s.phase = .pay → s.len.toNat ≤ s.params.maxDeclared →
    s.pcnt.toNat + 5 = s.len.toNat →
    let u : State := { s with
      buf := s.buf.write (4 + s.pcnt.toNat) b, pcnt := s.pcnt + 1, consumed := s.consumed + 1 }
    (s.len.toNat < 8 → exec (.srcBytePay b) s = .next { u with
      outKind := .payload, viewOff := 4, viewLen := BitVec.ofNat 16 (s.len.toNat - 4), outValid := true,
      phase := .idle }) ∧
    (8 ≤ s.len.toNat → u.buf.readRange 4 4 = some [0x45, 0x52, 0x52, 0x20] →
      exec (.srcBytePay b) s = .next { u with
        outKind := .errorLine, viewOff := 8, viewLen := BitVec.ofNat 16 (s.len.toNat - 8), outValid := true,
        phase := .idle }) ∧
    (∀ q, 8 ≤ s.len.toNat → u.buf.readRange 4 4 = some q → q ≠ [0x45, 0x52, 0x52, 0x20] →
      exec (.srcBytePay b) s = .next { u with
        outKind := .payload, viewOff := 4, viewLen := BitVec.ofNat 16 (s.len.toNat - 4), outValid := true,
        phase := .idle })

/-- R145: the end of the source in the header. -/
def Obligations.SourceEndInTheHeader : Prop :=
  ∀ s : State, s.phase = .hdr →
    (s.hcnt = 0 → exec .srcEoiHdr s = .next { s with
      outKind := .endOfInput, viewOff := 0, viewLen := 0, outValid := true, phase := .idle }) ∧
    (s.hcnt ≠ 0 → exec .srcEoiHdr s = .next { s with
      outKind := .truncated, viewOff := 0, viewLen := 0, outValid := true, phase := .idle }) ∧
    exec .srcFailHdr s = .next { s with
      outKind := .sourceFailure, viewOff := 0, viewLen := 0, outValid := true, phase := .idle }

/-- R149: the end of the source in the payload is never a clean end. -/
def Obligations.SourceEndInThePayload : Prop :=
  ∀ s : State, s.phase = .pay →
    exec .srcEoiPay s = .next { s with
      outKind := .truncated, viewOff := 0, viewLen := 0, outValid := true, phase := .idle } ∧
    exec .srcFailPay s = .next { s with
      outKind := .sourceFailure, viewOff := 0, viewLen := 0, outValid := true, phase := .idle }

/-- The codes of `src_kind`, `src_data` ignored but for a byte, and no step for the reserved kind. That kind 3 is
refused in every phase, `IDLE` too, is inferred from R88, which names no phase (DEDUCED, assumption log 17), and the
move that puts it on the ports is the model's choice (DESIGN CHOICE, assumption log 10). -/
def Obligations.SourceKindCodesAndTheReservedKind : Prop :=
  (∀ P d, decode P .hdr (.src 0 d) = .ok (.srcByteHdr d) ∧ decode P .pay (.src 0 d) = .ok (.srcBytePay d) ∧
    decode P .hdr (.src 1 d) = .ok .srcEoiHdr ∧ decode P .pay (.src 1 d) = .ok .srcEoiPay ∧
    decode P .hdr (.src 2 d) = .ok .srcFailHdr ∧ decode P .pay (.src 2 d) = .ok .srcFailPay) ∧
  (∀ s : State, exec .srcRsvd s = .refused .reservedSrcKind) ∧
  (∀ (s : State) (d : Byte) (ms : List Move), s.moves = .present 3 d :: ms → step s = .refused .reservedSrcKind)

/-- The frame of the two storing events (R52, R143, R147): one byte, at the address the meaning computes, and no
other; the counters by one; nothing of the environment. -/
def Obligations.ByteEventsStoreOneByteAndNothingElse : Prop :=
  ∀ (s t : State) (b : Byte),
    (s.phase = .hdr → exec (.srcByteHdr b) s = .next t →
      SameOutside s t s.hcnt.toNat 1 ∧ t.buf.read s.hcnt.toNat = some b ∧ t.hcnt = s.hcnt + 1 ∧
      t.consumed = s.consumed + 1 ∧ SameEnvironment s t ∧ (t.pcnt = s.pcnt ∨ t.pcnt = 0) ∧
      (s.hcnt ≠ 3 → t.phase = s.phase ∧ t.len = s.len ∧ t.pcnt = s.pcnt ∧ t.outValid = s.outValid ∧
        t.outKind = s.outKind ∧ t.viewOff = s.viewOff ∧ t.viewLen = s.viewLen)) ∧
    (s.phase = .pay → exec (.srcBytePay b) s = .next t →
      SameOutside s t (4 + s.pcnt.toNat) 1 ∧ t.buf.read (4 + s.pcnt.toNat) = some b ∧ t.pcnt = s.pcnt + 1 ∧
      t.consumed = s.consumed + 1 ∧ SameEnvironment s t ∧ t.hcnt = s.hcnt ∧ t.len = s.len ∧
      ((s.pcnt + 1).toNat + 4 ≠ s.len.toNat → t.phase = s.phase ∧ t.outValid = s.outValid ∧
        t.outKind = s.outKind ∧ t.viewOff = s.viewOff ∧ t.viewLen = s.viewLen))

/-- The frame of the events that store nothing (R52, R142, R145, R149, R240): BUF and the environment are unchanged,
and so is every register the rule does not write. -/
def Obligations.OtherEventsLeaveBufAndTheRestAlone : Prop :=
  ∀ (s t : State) (i : Instr),
    i ∈ [Instr.reset, .pull, .srcEoiHdr, .srcEoiPay, .srcFailHdr, .srcFailPay] → exec i s = .next t →
      SameBuffer s t ∧ SameEnvironment s t ∧
      (i ≠ .reset → t.len = s.len ∧ t.consumed = s.consumed) ∧
      (i = .pull → t.outKind = s.outKind ∧ t.viewOff = s.viewOff) ∧
      (i ≠ .reset → i ≠ .pull → t.hcnt = s.hcnt ∧ t.pcnt = s.pcnt)

/-! ## Whole frames -/

/-- R121, R122, R123: a control frame taken whole. Its four bytes and no others are stored and consumed. That a
whole frame is one instruction is the model's choice (DESIGN CHOICE, assumption log 3). -/
def Obligations.ControlFramesGiveTheirSignal : Prop :=
  ∀ s : State, s.params.Valid → s.phase = .idle →
    (∃ t, exec .flush s = .next t ∧ Published t .flush 0 0 ∧ t.len = 0 ∧ t.hcnt = 4 ∧ t.pcnt = 0 ∧
      t.consumed = s.consumed + 4 ∧ Holds t 0 [0x30, 0x30, 0x30, 0x30] ∧ SameOutside s t 0 4 ∧ SameEnvironment s t) ∧
    (∃ t, exec .delim s = .next t ∧ Published t .delim 0 0 ∧ t.len = 1 ∧ t.hcnt = 4 ∧ t.pcnt = 0 ∧
      t.consumed = s.consumed + 4 ∧ Holds t 0 [0x30, 0x30, 0x30, 0x31] ∧ SameOutside s t 0 4 ∧ SameEnvironment s t) ∧
    (∃ t, exec .responseEnd s = .next t ∧ Published t .responseEnd 0 0 ∧ t.len = 2 ∧ t.hcnt = 4 ∧ t.pcnt = 0 ∧
      t.consumed = s.consumed + 4 ∧ Holds t 0 [0x30, 0x30, 0x30, 0x32] ∧ SameOutside s t 0 4 ∧ SameEnvironment s t)

/-- R124, R125, R127: a header that is no length, taken whole, gives `INVALID_LENGTH` carrying the four raw bytes, and
none of a promised payload is read. The whole-frame instruction is the model's choice (DESIGN CHOICE, assumption log
3). -/
def Obligations.InvalidHeadersCarryTheRawBytes : Prop :=
  ∀ s : State, s.params.Valid → s.phase = .idle →
    (∃ t, exec .rsvd3 s = .next t ∧ Published t .invalidLength 0 4 ∧ t.view = some [0x30, 0x30, 0x30, 0x33] ∧
      t.len = 3 ∧ t.hcnt = 4 ∧ t.pcnt = 0 ∧ t.consumed = s.consumed + 4 ∧ SameOutside s t 0 4 ∧ SameEnvironment s t) ∧
    (∀ h l, lenParse h = some l → s.params.maxDeclared < l.toNat →
      ∃ t, exec (.overmax h) s = .next t ∧ Published t .invalidLength 0 4 ∧ t.view = some h.bytes ∧
        t.len = l ∧ t.hcnt = 4 ∧ t.pcnt = 0 ∧ t.consumed = s.consumed + 4 ∧ SameOutside s t 0 4 ∧ SameEnvironment s t) ∧
    (∀ h, lenParse h = none →
      ∃ t, exec (.nonhex h) s = .next t ∧ Published t .invalidLength 0 4 ∧ t.view = some h.bytes ∧
        t.len = 0 ∧ t.hcnt = 4 ∧ t.pcnt = 0 ∧ t.consumed = s.consumed + 4 ∧ SameOutside s t 0 4 ∧ SameEnvironment s t)

/-- R159: a data frame taken whole gives `PAYLOAD` with the payload exactly, and the header stays readable. The
whole-frame instruction is the model's choice (DESIGN CHOICE, assumption log 3). -/
def Obligations.DataFrameGivesItsPayload : Prop :=
  ∀ (h : Header) (p : List Byte) (l : Word16) (s : State), s.params.Valid → s.phase = .idle →
    lenParse h = some l → p.length + 4 = l.toNat → l.toNat ≤ s.params.maxDeclared →
    p.take 4 ≠ [0x45, 0x52, 0x52, 0x20] →
    ∃ t, exec (.data h p) s = .next t ∧ Published t .payload 4 p.length ∧ t.view = some p ∧ t.raw = some h ∧
      t.len = l ∧ t.hcnt = 4 ∧ t.pcnt.toNat = p.length ∧ t.consumed = s.consumed + l.toNat ∧
      SameOutside s t 0 l.toNat ∧ SameEnvironment s t

/-- R160: an error line taken whole gives `ERROR_LINE` with the bytes after "ERR ", which stay at `BUF[4..7]`. The
whole-frame instruction is the model's choice (DESIGN CHOICE, assumption log 3). -/
def Obligations.ErrorLineGivesItsText : Prop :=
  ∀ (h : Header) (txt : List Byte) (l : Word16) (s : State), s.params.Valid → s.phase = .idle →
    lenParse h = some l → txt.length + 8 = l.toNat → l.toNat ≤ s.params.maxDeclared →
    ∃ t, exec (.errline h txt) s = .next t ∧ Published t .errorLine 8 txt.length ∧ t.view = some txt ∧
      t.raw = some h ∧ Holds t 4 [0x45, 0x52, 0x52, 0x20] ∧
      t.len = l ∧ t.hcnt = 4 ∧ t.pcnt.toNat = txt.length + 4 ∧ t.consumed = s.consumed + l.toNat ∧
      SameOutside s t 0 l.toNat ∧ SameEnvironment s t

/-- R150 for a decode call on a whole frame: while a decode runs it has no effect. The call is the model's choice
(DESIGN CHOICE, assumption log 3). -/
def Obligations.DecodeCallWhileBusyIsIgnored : Prop :=
  ∀ (s : State) (i : Instr), s.phase ≠ .idle → i.format = .h → i.wellFormed s.params = true → exec i s = .next s

/-- R215: the cause of an `INVALID_LENGTH` outcome can be recomputed from the raw bytes it carries. The whole-frame
instruction is the model's choice (DESIGN CHOICE, assumption log 3). -/
def Obligations.InvalidCauseIsInTheRawBytes : Prop :=
  ∀ (s t : State), s.params.Valid → s.phase = .idle →
    (exec .rsvd3 s = .next t → ∃ h, t.raw = some h ∧ invalidCause h = .rsvd3) ∧
    (∀ h, exec (.overmax h) s = .next t → t.raw = some h ∧ invalidCause h = .overmax) ∧
    (∀ h, exec (.nonhex h) s = .next t → t.raw = some h ∧ invalidCause h = .nonhex)

/-! ## Steps -/

/-- A step runs the instruction that the decoder reads from the next move's signal, with the move gone and a symbol or
frame taken from the source gone (R11, R39, R57). The list of moves and the whole-frame call are the model's choices
(DESIGN CHOICE, assumption logs 2 and 3). -/
def Obligations.StepRunsTheDecodedInstruction : Prop :=
  ∀ (s : State) (ms : List Move),
    (∀ k d rest i, s.moves = .src :: ms → s.source.next = some (k, d, rest) → decode s.params s.phase (.src k d) = .ok i →
      step s = exec i { s with moves := ms, source := rest }) ∧
    (∀ k d i, s.moves = .present k d :: ms → decode s.params s.phase (.src k d) = .ok i →
      step s = exec i { s with moves := ms }) ∧
    (∀ i rest, s.moves = .call :: ms → s.phase = .idle → decodeFrame s.params s.source.bs = .ok (i, rest) →
      step s = exec i { s with moves := ms, source := ⟨rest, s.source.term⟩ }) ∧
    (∀ e, s.moves = .call :: ms → decodeFrame s.params s.source.bs = .error e → step s = exec .pull { s with moves := ms }) ∧
    (s.moves = .call :: ms → s.phase ≠ .idle → step s = exec .pull { s with moves := ms }) ∧
    (s.moves = .rst :: ms → step s = exec .reset { s with moves := ms }) ∧
    (s.moves = .pull :: ms → step s = exec .pull { s with moves := ms }) ∧
    (∀ p i, s.moves = .demux p :: ms → decode s.params s.phase (.message p) = .ok i →
      step s = exec i { s with moves := ms }) ∧
    (∀ b i, s.moves = .digit b :: ms → decode s.params s.phase (.digit b) = .ok i →
      step s = exec i { s with moves := ms }) ∧
    (∀ f i, s.moves = .ref f :: ms → decode s.params s.phase (.call f) = .ok i → step s = exec i { s with moves := ms })

/-- R151, R250: with no event the scanner waits, for as long as that takes; a source that stalls gives none. -/
def Obligations.WithoutAnEventTheScannerWaits : Prop :=
  ∀ s : State,
    (s.moves = [] → step s = .next s) ∧
    (∀ ms, s.moves = .src :: ms → s.source = ⟨[], .stall⟩ → step s = .next { s with moves := ms })

/-- The word of a table row placed by `withFetchWord` is the instruction the next step runs, in a state that keeps
the buffer, the source, the moves to come and every register but `PHASE` (DESIGN CHOICE, assumption log 9); for the
document's parameters that instruction is `decodeTableWord`'s. -/
def Obligations.PlacedTableWordIsRunNext : Prop :=
  ∀ (s : State) (nbits w : Nat) (i : Instr),
    (decodeTableWordFor s.params nbits w = some i →
      ∃ ph, step (s.withFetchWord nbits w) = exec i { s with phase := ph }) ∧
    (s.params = Config.params → decodeTableWord nbits w = some i →
      ∃ ph, step (s.withFetchWord nbits w) = exec i { s with phase := ph })

/-! ## The machine as a whole -/

/-- R32 holds right after reset, for the document's parameters and for any that meet R8's constraints. -/
def Obligations.ResetStateMeetsTheInvariant : Prop :=
  Inv State.reset ∧ ∀ P : Params, P.Valid → Inv (State.resetFor P)

/-- R32: every step keeps the invariant. -/
def Obligations.EveryStepKeepsTheInvariant : Prop :=
  ∀ s t : State, Inv s → step s = .next t → Inv t

/-- R54, R131: in a state that meets the invariant no rule reads a cell that was never written, and no address is
out of BUF. -/
def Obligations.NoFaultUnderTheInvariant : Prop :=
  ∀ (s : State) (f : Fault), Inv s → step s ≠ .fault f

/-- R25, R63 (d): from `OUT_VALID` = 1 until the consumer's next `PULL` (or a reset) the outcome, its view and BUF do
not change. -/
def Obligations.PublishedOutcomeStandsUntilTheNextPull : Prop :=
  ∀ (s t : State) (m : Move) (ms : List Move), Inv s → s.outValid = true → s.moves = m :: ms →
    m ≠ .pull → m ≠ .call → m ≠ .rst → step s = .next t →
    t.outValid = true ∧ t.phase = .idle ∧ t.outKind = s.outKind ∧ t.viewOff = s.viewOff ∧ t.viewLen = s.viewLen ∧
    t.view = s.view ∧ SameBuffer s t

/-- R26, R34: `OUT_KIND` changes only when an outcome is published, or at a reset. -/
def Obligations.OutKindChangesOnlyWithAnOutcome : Prop :=
  ∀ s t : State, step s = .next t → t.outKind ≠ s.outKind →
    t.outValid = true ∨ ∃ ms, s.moves = .rst :: ms

/-- R33, R55: `CONSUMED` grows by exactly the bytes that leave the source, in every step that the source or a decode
call makes. -/
def Obligations.ConsumedCountsTheBytesTaken : Prop :=
  ∀ (s t : State) (m : Move) (ms : List Move), s.moves = m :: ms → m = .src ∨ m = .call ∨ m = .pull →
    step s = .next t → t.consumed + t.source.bs.length = s.consumed + s.source.bs.length

/-- R53: the read port shows the byte last written in `IDLE`, whatever the draw, and specifies nothing while busy, at
a never-written address, or at or above `BUF_CAP`. That an unspecified read is a free draw is R53's offer taken
(DESIGN CHOICE, assumption log 5); it holds for every value of the draw. -/
def Obligations.ReadPortShowsTheLastByteWritten : Prop :=
  ∀ (s : State) (a : BitVec 16) (draw : Nat),
    (∀ b, s.phase = .idle → a.toNat < s.params.bufCap → s.buf.read a.toNat = some b →
      s.readPort a = some b ∧ s.rdData draw a = b) ∧
    (s.buf.read a.toNat = none → s.readPort a = none) ∧
    (s.phase ≠ .idle → s.readPort a = none) ∧
    (s.params.bufCap ≤ a.toNat → s.readPort a = none)

/-- R28: whenever `OUT_VALID` = 1 and `HCNT` = 4, `RAW` is the four bytes of BUF from address 0, and it is what the view
of an `INVALID_LENGTH` outcome names. -/
def Obligations.RawIsTheHeaderInBuf : Prop :=
  ∀ s : State, Inv s → s.outValid = true → s.hcnt = 4 →
    ∃ h, s.raw = some h ∧ s.buf.readRange 0 4 = some h.bytes ∧ (s.outKind = .invalidLength → s.view = some h.bytes)

/-- R185: the sideband outputs are `decodeSideband` of the view for a `PAYLOAD`, `MemRead(SB_OFF, SB_LEN)` is the
remainder, and in every other case the tag is `INVALID`. -/
def Obligations.SidebandOutputsReadTheView : Prop :=
  ∀ s : State, Inv s →
    (s.outValid = true → s.outKind = .payload →
      ∃ p o, s.view = some p ∧ s.sidebandOut = some o ∧ o.tag = (decodeSideband p).1 ∧
        (o.tag = .invalid → o.off = s.viewOff ∧ o.len = s.viewLen) ∧
        (o.tag ≠ .invalid → o.off = s.viewOff + 1 ∧ o.len = s.viewLen - 1) ∧
        (o.off = 4 ∨ o.off = 5) ∧
        s.buf.readRange o.off.toNat o.len.toNat = some (decodeSideband p).2) ∧
    (s.outValid = false ∨ s.outKind ≠ .payload → s.sidebandOut = some ⟨.invalid, s.viewOff, s.viewLen⟩)

/-! ## Whole decodes -/

/-- R163: how many bytes each outcome consumes, and that they are the first ones of the stream. -/
def Obligations.EachOutcomeConsumesItsBytes : Prop :=
  ∀ (P : Params) (src : Source) (d : Decoded), decode1 P src = some d →
    ∃ taken, src.bs = taken ++ d.rest.bs ∧ d.rest.term = src.term ∧
      (d.kind = .flush ∨ d.kind = .delim ∨ d.kind = .responseEnd ∨ d.kind = .invalidLength → taken.length = 4) ∧
      (d.kind = .payload ∨ d.kind = .errorLine →
        ∃ h l p, taken = h.bytes ++ p ∧ lenParse h = some l ∧ taken.length = l.toNat) ∧
      (d.kind = .payload → taken.length = 4 + d.carried.length) ∧
      (d.kind = .errorLine → taken.length = 8 + d.carried.length) ∧
      (d.kind = .endOfInput → taken = [] ∧ src.bs = []) ∧
      (d.kind = .truncated ∨ d.kind = .sourceFailure → d.rest.bs = [] ∧ d.carried = [] ∧
        (taken.length < 4 ∨ ∃ h l p, taken = h.bytes ++ p ∧ lenParse h = some l ∧ taken.length < l.toNat)) ∧
      (d.kind = .truncated → 1 ≤ taken.length)

/-- R164: the byte-serial machine and `Decode1` agree. From any idle state, a `PULL` and then the source events that
R57 allows end in the outcome `Decode1` gives, with its bytes in the view and its source left; and where `Decode1`
is blocked the machine takes all the bytes and never publishes, however often the source is asked. -/
def Obligations.EventsAgreeWithDecode1 : Prop :=
  ∀ (s : State) (ms : List Move), s.params.Valid → s.phase = .idle →
    (∀ d, decode1 s.params s.source = some d →
      s.moves = .pull :: (List.replicate (eventsOf s.source d) .src ++ ms) →
      ∃ t, runSteps (1 + eventsOf s.source d) s = .next t ∧ t.outValid = true ∧ t.phase = .idle ∧
        t.outKind = d.kind ∧ t.view = some d.carried ∧ t.source = d.rest ∧ t.moves = ms ∧
        t.consumed + d.rest.bs.length = s.consumed + s.source.bs.length) ∧
    (∀ k, decode1 s.params s.source = none →
      s.moves = .pull :: (List.replicate (s.source.bs.length + k) .src ++ ms) →
      ∃ t, runSteps (1 + (s.source.bs.length + k)) s = .next t ∧ t.outValid = false ∧ t.phase ≠ .idle ∧
        t.source = ⟨[], .stall⟩ ∧ t.moves = ms ∧ t.consumed = s.consumed + s.source.bs.length)

/-- A frame taken whole is what its bytes do one event at a time (R141 against R142 to R148): the same state, to the
last field. The whole-frame call is the model's choice (DESIGN CHOICE, assumption log 3). -/
def Obligations.WholeFrameEqualsItsEvents : Prop :=
  ∀ (s : State) (i : Instr) (rest : List Byte) (ms : List Move),
    s.params.Valid → s.phase = .idle → i.format = .h → i.wellFormed s.params = true → s.source.bs = wireBytes i ++ rest →
    s.moves = .pull :: (List.replicate (wireBytes i).length .src ++ ms) →
    runSteps (1 + (wireBytes i).length) s = exec i { s with source := ⟨rest, s.source.term⟩, moves := ms }

/-- R166: what a decode does depends only on the source. Two idle states of instances with the same parameters, which
agree on the source and the moves and on nothing else, take the same bytes and publish the same outcome, carrying the
same bytes, at the same event. -/
def Obligations.DecodeDependsOnlyOnTheSource : Prop :=
  ∀ (s1 s2 : State) (n : Nat), s1.params.Valid → s1.params = s2.params →
    s1.phase = .idle → s2.phase = .idle → s1.source = s2.source →
    s1.moves = .pull :: List.replicate n .src → s2.moves = s1.moves →
    ∃ t1 t2, runSteps (1 + n) s1 = .next t1 ∧ runSteps (1 + n) s2 = .next t2 ∧
      t1.source = t2.source ∧ t1.phase = t2.phase ∧ t1.outValid = t2.outValid ∧
      t1.consumed + s2.consumed = t2.consumed + s1.consumed ∧
      (t1.outValid = true → t1.outKind = t2.outKind ∧ ∃ v, t1.view = some v ∧ t2.view = some v)

/-- R172: after the bytes have run out every further pull gives the source's condition again; a truncated stream
reports `TRUNCATED` once and then its clean end. -/
def Obligations.ExhaustedSourceRepeatsItsCondition : Prop :=
  (∀ (P : Params) (k : Nat),
    outcomes P k ⟨[], .eoi⟩ = List.replicate k (.endOfInput, []) ∧
    outcomes P k ⟨[], .fail⟩ = List.replicate k (.sourceFailure, [])) ∧
  (∀ (P : Params) (src : Source) (d : Decoded) (k : Nat), decode1 P src = some d → d.kind = .truncated →
    outcomes P k d.rest = List.replicate k (.endOfInput, [])) ∧
  (∀ (s : State) (ms : List Move), s.phase = .idle → s.moves = .pull :: .src :: ms →
    (s.source = ⟨[], .eoi⟩ → ∃ t, runSteps 2 s = .next t ∧ Published t .endOfInput 0 0 ∧ t.source = s.source ∧
      t.moves = ms ∧ t.consumed = s.consumed ∧ SameBuffer s t) ∧
    (s.source = ⟨[], .fail⟩ → ∃ t, runSteps 2 s = .next t ∧ Published t .sourceFailure 0 0 ∧ t.source = s.source ∧
      t.moves = ms ∧ t.consumed = s.consumed ∧ SameBuffer s t))

/-! ## The parameters -/

/-- R8: the values of this hardware, and that they meet R8's constraints. -/
def Obligations.ParametersAreTheDocumentsValues : Prop :=
  State.reset.params.maxDeclared = 65520 ∧ State.reset.params.bufCap = 65524 ∧
  State.reset.params.maxPayloadEnc = 65516 ∧ State.reset.params.Valid

/-- R8, R35: the parameters are constants of the instance: no step changes them, whatever they are. That they stand
in State is the model's choice (DESIGN CHOICE, assumption log 1). -/
def Obligations.NoStepChangesTheParameters : Prop :=
  ∀ s t : State, step s = .next t → t.params = s.params
end

