-- ==== Sys2Proof/Laws/State.lean ====
section
/-! SUPPORT. What each update of the state leaves in each field: one lemma per field per update. -/

namespace Sys2Proof.Machine

@[simp] theorem params_maxDeclared : Config.params.maxDeclared = 65520 := rfl
@[simp] theorem params_bufCap : Config.params.bufCap = 65524 := rfl
@[simp] theorem params_maxPayloadEnc : Config.params.maxPayloadEnc = 65516 := rfl
theorem params_valid : Config.params.Valid := by decide

/-- An instance with valid parameters has the four header cells. -/
theorem valid_four_le_bufCap {P : Params} (h : P.Valid) : 4 ≤ P.bufCap := Nat.le_trans h.1 h.2.2

@[simp] theorem reset_params : State.reset.params = Config.params := rfl
@[simp] theorem resetFor_params (P : Params) : (State.resetFor P).params = P := rfl
theorem resetFor_default : State.resetFor Config.params = State.reset := rfl

@[simp] theorem andThen_next (s : State) (f : State → Result) : andThen (.next s) f = f s := rfl
@[simp] theorem andThen_fault (r : Fault) (f : State → Result) : andThen (.fault r) f = .fault r := rfl
@[simp] theorem andThen_refused (r : Refusal) (f : State → Result) : andThen (.refused r) f = .refused r := rfl

/-- Everything a sequence can do when it answers a next state. -/
theorem andThen_eq_next {o : Result} {f : State → Result} {t : State} :
    andThen o f = .next t ↔ ∃ s, o = .next s ∧ f s = .next t := by
  cases o <;> simp

/-! ## `finish` -/

@[simp] theorem finish_phase (k : OutKind) (off l : Word16) (s : State) : (finish k off l s).phase = .idle := rfl
@[simp] theorem finish_hcnt (k : OutKind) (off l : Word16) (s : State) : (finish k off l s).hcnt = s.hcnt := rfl
@[simp] theorem finish_len (k : OutKind) (off l : Word16) (s : State) : (finish k off l s).len = s.len := rfl
@[simp] theorem finish_pcnt (k : OutKind) (off l : Word16) (s : State) : (finish k off l s).pcnt = s.pcnt := rfl
@[simp] theorem finish_outValid (k : OutKind) (off l : Word16) (s : State) : (finish k off l s).outValid = true := rfl
@[simp] theorem finish_outKind (k : OutKind) (off l : Word16) (s : State) : (finish k off l s).outKind = k := rfl
@[simp] theorem finish_viewOff (k : OutKind) (off l : Word16) (s : State) : (finish k off l s).viewOff = off := rfl
@[simp] theorem finish_viewLen (k : OutKind) (off l : Word16) (s : State) : (finish k off l s).viewLen = l := rfl
@[simp] theorem finish_buf (k : OutKind) (off l : Word16) (s : State) : (finish k off l s).buf = s.buf := rfl
@[simp] theorem finish_consumed (k : OutKind) (off l : Word16) (s : State) : (finish k off l s).consumed = s.consumed := rfl
@[simp] theorem finish_params (k : OutKind) (off l : Word16) (s : State) : (finish k off l s).params = s.params := rfl
@[simp] theorem finish_source (k : OutKind) (off l : Word16) (s : State) : (finish k off l s).source = s.source := rfl
@[simp] theorem finish_moves (k : OutKind) (off l : Word16) (s : State) : (finish k off l s).moves = s.moves := rfl
@[simp] theorem finish_answer (k : OutKind) (off l : Word16) (s : State) : (finish k off l s).answer = s.answer := rfl

/-! ## `startDecode` -/

@[simp] theorem startDecode_phase (s : State) : (startDecode s).phase = .hdr := rfl
@[simp] theorem startDecode_hcnt (s : State) : (startDecode s).hcnt = 0 := rfl
@[simp] theorem startDecode_len (s : State) : (startDecode s).len = s.len := rfl
@[simp] theorem startDecode_pcnt (s : State) : (startDecode s).pcnt = 0 := rfl
@[simp] theorem startDecode_outValid (s : State) : (startDecode s).outValid = false := rfl
@[simp] theorem startDecode_outKind (s : State) : (startDecode s).outKind = s.outKind := rfl
@[simp] theorem startDecode_viewOff (s : State) : (startDecode s).viewOff = s.viewOff := rfl
@[simp] theorem startDecode_viewLen (s : State) : (startDecode s).viewLen = 0 := rfl
@[simp] theorem startDecode_buf (s : State) : (startDecode s).buf = s.buf := rfl
@[simp] theorem startDecode_consumed (s : State) : (startDecode s).consumed = s.consumed := rfl
@[simp] theorem startDecode_params (s : State) : (startDecode s).params = s.params := rfl
@[simp] theorem startDecode_source (s : State) : (startDecode s).source = s.source := rfl
@[simp] theorem startDecode_moves (s : State) : (startDecode s).moves = s.moves := rfl
@[simp] theorem startDecode_answer (s : State) : (startDecode s).answer = s.answer := rfl

/-! ## `resetRegisters` -/

@[simp] theorem resetRegisters_phase (s : State) : (resetRegisters s).phase = .idle := rfl
@[simp] theorem resetRegisters_hcnt (s : State) : (resetRegisters s).hcnt = 0 := rfl
@[simp] theorem resetRegisters_len (s : State) : (resetRegisters s).len = 0 := rfl
@[simp] theorem resetRegisters_pcnt (s : State) : (resetRegisters s).pcnt = 0 := rfl
@[simp] theorem resetRegisters_outValid (s : State) : (resetRegisters s).outValid = false := rfl
@[simp] theorem resetRegisters_outKind (s : State) : (resetRegisters s).outKind = .flush := rfl
@[simp] theorem resetRegisters_viewOff (s : State) : (resetRegisters s).viewOff = 0 := rfl
@[simp] theorem resetRegisters_viewLen (s : State) : (resetRegisters s).viewLen = 0 := rfl
@[simp] theorem resetRegisters_buf (s : State) : (resetRegisters s).buf = s.buf := rfl
@[simp] theorem resetRegisters_consumed (s : State) : (resetRegisters s).consumed = 0 := rfl
@[simp] theorem resetRegisters_params (s : State) : (resetRegisters s).params = s.params := rfl
@[simp] theorem resetRegisters_source (s : State) : (resetRegisters s).source = s.source := rfl
@[simp] theorem resetRegisters_moves (s : State) : (resetRegisters s).moves = s.moves := rfl
@[simp] theorem resetRegisters_answer (s : State) : (resetRegisters s).answer = s.answer := rfl

/-! ## `enterPayload` -/

@[simp] theorem enterPayload_phase (l : Word16) (s : State) : (enterPayload l s).phase = .pay := rfl
@[simp] theorem enterPayload_hcnt (l : Word16) (s : State) : (enterPayload l s).hcnt = s.hcnt := rfl
@[simp] theorem enterPayload_len (l : Word16) (s : State) : (enterPayload l s).len = l := rfl
@[simp] theorem enterPayload_pcnt (l : Word16) (s : State) : (enterPayload l s).pcnt = 0 := rfl
@[simp] theorem enterPayload_outValid (l : Word16) (s : State) : (enterPayload l s).outValid = s.outValid := rfl
@[simp] theorem enterPayload_outKind (l : Word16) (s : State) : (enterPayload l s).outKind = s.outKind := rfl
@[simp] theorem enterPayload_viewOff (l : Word16) (s : State) : (enterPayload l s).viewOff = s.viewOff := rfl
@[simp] theorem enterPayload_viewLen (l : Word16) (s : State) : (enterPayload l s).viewLen = s.viewLen := rfl
@[simp] theorem enterPayload_buf (l : Word16) (s : State) : (enterPayload l s).buf = s.buf := rfl
@[simp] theorem enterPayload_consumed (l : Word16) (s : State) : (enterPayload l s).consumed = s.consumed := rfl
@[simp] theorem enterPayload_params (l : Word16) (s : State) : (enterPayload l s).params = s.params := rfl
@[simp] theorem enterPayload_source (l : Word16) (s : State) : (enterPayload l s).source = s.source := rfl
@[simp] theorem enterPayload_moves (l : Word16) (s : State) : (enterPayload l s).moves = s.moves := rfl
@[simp] theorem enterPayload_answer (l : Word16) (s : State) : (enterPayload l s).answer = s.answer := rfl

/-! ## The ends of a decode are `finish` after a write of `LEN` -/

@[simp] theorem raiseFailure_invalidLength (s : State) :
    raiseFailure .invalidLength s = finish .invalidLength 0 4 s := rfl
@[simp] theorem raiseFailure_endOfInput (s : State) : raiseFailure .endOfInput s = finish .endOfInput 0 0 s := rfl
@[simp] theorem raiseFailure_truncated (s : State) : raiseFailure .truncated s = finish .truncated 0 0 s := rfl
@[simp] theorem raiseFailure_sourceFailure (s : State) :
    raiseFailure .sourceFailure s = finish .sourceFailure 0 0 s := rfl
@[simp] theorem endFlush_eq (s : State) : endFlush s = finish .flush 0 0 { s with len := 0 } := rfl
@[simp] theorem endDelim_eq (s : State) : endDelim s = finish .delim 0 0 { s with len := 1 } := rfl
@[simp] theorem endResponseEnd_eq (s : State) : endResponseEnd s = finish .responseEnd 0 0 { s with len := 2 } := rfl
@[simp] theorem endRsvd3_eq (s : State) : endRsvd3 s = finish .invalidLength 0 4 { s with len := 3 } := rfl
@[simp] theorem endOvermax_eq (l : Word16) (s : State) :
    endOvermax l s = finish .invalidLength 0 4 { s with len := l } := rfl
@[simp] theorem endNonhex_eq (s : State) : endNonhex s = finish .invalidLength 0 4 { s with len := 0 } := rfl
@[simp] theorem endEmptyData_eq (s : State) : endEmptyData s = finish .payload 4 0 { s with len := 4 } := rfl

end Sys2Proof.Machine
end

