-- ==== Sys2Proof/Laws/Memory.lean ====
section
/-! SUPPORT. Reading and writing BUF: a read gives the value last written there, a write leaves every other address
alone, and every write keeps the canonical form. -/

namespace Sys2Proof.Machine.Memory

/-! ## One byte -/

@[simp] theorem read_nil (a : Nat) : Memory.read [] a = none := rfl

@[simp] theorem read_write_same (m : Memory) (a : Nat) (b : Byte) : (m.write a b).read a = some b := by
  induction m with
  | nil => simp [write, read]
  | cons c m ih =>
    obtain ⟨k, v⟩ := c
    simp only [write]
    split
    · simp [read]
    · split
      · simp [read]
      · simp_all [read]

theorem read_write_other (m : Memory) {a a' : Nat} (b : Byte) (h : a' ≠ a) :
    (m.write a b).read a' = m.read a' := by
  induction m with
  | nil => simp [write, read, h]
  | cons c m ih =>
    obtain ⟨k, v⟩ := c
    simp only [write]
    split
    · simp [read, h]
    · split
      · simp_all [read]
      · simp_all [read]

theorem read_write (m : Memory) (a a' : Nat) (b : Byte) :
    (m.write a b).read a' = if a' = a then some b else m.read a' := by
  split
  · subst_vars; simp
  · exact read_write_other m b ‹_›

/-! ## A run of bytes -/

theorem read_writeAll (m : Memory) (bs : List Byte) (a a' : Nat) :
    (m.writeAll a bs).read a' = if a ≤ a' ∧ a' < a + bs.length then bs[a' - a]? else m.read a' := by
  induction bs generalizing m a with
  | nil =>
    rw [if_neg (by simp only [List.length_nil]; omega)]; rfl
  | cons b bs ih =>
    simp only [writeAll, ih, read_write, List.length_cons]
    by_cases h0 : a' = a
    · subst h0; simp
    · by_cases h1 : a ≤ a' ∧ a' < a + (bs.length + 1)
      · have h2 : a + 1 ≤ a' ∧ a' < a + 1 + bs.length := by omega
        obtain ⟨j, rfl⟩ : ∃ j, a' = a + 1 + j := ⟨a' - (a + 1), by omega⟩
        have h3 : a + 1 + j - a = j + 1 := by omega
        simp [h1, h2, h3]
      · have h2 : ¬ (a + 1 ≤ a' ∧ a' < a + 1 + bs.length) := by omega
        rw [if_neg h2, if_neg h0, if_neg h1]

/-- Every address outside the stored bytes reads as before. -/
theorem read_writeAll_outside (m : Memory) (bs : List Byte) {a a' : Nat} (h : a' < a ∨ a + bs.length ≤ a') :
    (m.writeAll a bs).read a' = m.read a' := by
  rw [read_writeAll, if_neg (by omega)]

/-- Every stored byte reads as stored. -/
theorem read_writeAll_inside (m : Memory) (bs : List Byte) (a j : Nat) (h : j < bs.length) :
    (m.writeAll a bs).read (a + j) = bs[j]? := by
  rw [read_writeAll, if_pos (by omega), Nat.add_sub_cancel_left]

theorem writeAll_append (m : Memory) (a : Nat) (xs ys : List Byte) :
    m.writeAll a (xs ++ ys) = (m.writeAll a xs).writeAll (a + xs.length) ys := by
  induction xs generalizing m a with
  | nil => simp [writeAll]
  | cons x xs ih => simp only [List.cons_append, writeAll, ih, List.length_cons]; congr 1; omega

@[simp] theorem writeAll_nil (m : Memory) (a : Nat) : m.writeAll a [] = m := rfl
@[simp] theorem writeAll_cons (m : Memory) (a : Nat) (b : Byte) (bs : List Byte) :
    m.writeAll a (b :: bs) = (m.write a b).writeAll (a + 1) bs := rfl

/-! ## Ranges -/

@[simp] theorem readRange_zero (m : Memory) (a : Nat) : m.readRange a 0 = some [] := rfl

/-- A range reads as `bs` exactly when it has its length and every cell reads as its byte. -/
theorem readRange_eq_some {m : Memory} {a n : Nat} {bs : List Byte} :
    m.readRange a n = some bs ↔ bs.length = n ∧ ∀ j, j < n → m.read (a + j) = bs[j]? := by
  induction n generalizing a bs with
  | zero => cases bs <;> simp
  | succ n ih =>
    simp only [readRange]
    constructor
    · intro h
      split at h
      · rename_i b bs' hb hbs
        obtain rfl := Option.some.inj h
        obtain ⟨hl, hr⟩ := ih.1 hbs
        refine ⟨by simp [hl], fun j hj => ?_⟩
        cases j with
        | zero => simpa using hb
        | succ j =>
          have := hr j (by omega)
          rw [show a + (j + 1) = a + 1 + j by omega, this]; simp
      · cases h
    · rintro ⟨hl, hr⟩
      cases bs with
      | nil => simp at hl
      | cons b bs =>
        have h0 : m.read a = some b := by simpa using hr 0 (by omega)
        have h1 : m.readRange (a + 1) n = some bs := ih.2 ⟨by simpa using hl, fun j hj => by
          have := hr (j + 1) (by omega)
          rw [show a + 1 + j = a + (j + 1) by omega, this]; simp⟩
        simp [h0, h1]

/-- A range can be read exactly when all its cells have been written. -/
theorem readRange_isSome {m : Memory} {a n : Nat} :
    (m.readRange a n).isSome = true ↔ ∀ k, k < n → (m.read (a + k)).isSome = true := by
  induction n generalizing a with
  | zero => simp
  | succ n ih =>
    constructor
    · intro h k hk
      obtain ⟨bs, hbs⟩ := Option.isSome_iff_exists.1 h
      obtain ⟨hl, hr⟩ := readRange_eq_some.1 hbs
      rw [hr k hk, List.getElem?_eq_getElem (by omega)]; rfl
    · intro h
      obtain ⟨b, hb⟩ := Option.isSome_iff_exists.1 (h 0 (by omega))
      have : (m.readRange (a + 1) n).isSome = true := ih.2 fun k hk => by
        have := h (k + 1) (by omega)
        rwa [show a + 1 + k = a + (k + 1) by omega]
      obtain ⟨bs, hbs⟩ := Option.isSome_iff_exists.1 this
      simp only [readRange, hbs]; rw [show a = a + 0 from rfl, hb]; rfl

/-- Ranges that read alike cell by cell read alike. -/
theorem readRange_congr {m m' : Memory} {a n : Nat} (h : ∀ k, k < n → m'.read (a + k) = m.read (a + k)) :
    m'.readRange a n = m.readRange a n := by
  induction n generalizing a with
  | zero => rfl
  | succ n ih =>
    have h0 := h 0 (by omega)
    have h1 : m'.readRange (a + 1) n = m.readRange (a + 1) n := ih fun k hk => by
      have := h (k + 1) (by omega)
      rwa [show a + 1 + k = a + (k + 1) by omega]
    simp only [readRange, h1]; rw [show a = a + 0 from rfl, h0]

/-- What was stored is read back. -/
theorem readRange_writeAll (m : Memory) (a : Nat) (bs : List Byte) :
    (m.writeAll a bs).readRange a bs.length = some bs :=
  readRange_eq_some.2 ⟨rfl, fun _ hj => read_writeAll_inside m bs a _ hj⟩

theorem header_eq_some {m : Memory} {h : Header} :
    m.header = some h ↔ m.read 0 = some h.c0 ∧ m.read 1 = some h.c1 ∧ m.read 2 = some h.c2 ∧ m.read 3 = some h.c3 := by
  constructor
  · intro hh
    simp only [header] at hh
    split at hh
    · obtain rfl := Option.some.inj hh; exact ⟨‹_›, ‹_›, ‹_›, ‹_›⟩
    · cases hh
  · rintro ⟨h0, h1, h2, h3⟩; simp [header, h0, h1, h2, h3]

/-- The raw header is `MemRead(0, 4)`. -/
theorem readRange_of_header {m : Memory} {h : Header} (hh : m.header = some h) :
    m.readRange 0 4 = some h.bytes := by
  obtain ⟨h0, h1, h2, h3⟩ := header_eq_some.1 hh
  simp [readRange, h0, h1, h2, h3, Header.bytes]

theorem header_congr {m m' : Memory} (h : ∀ a, a < 4 → m'.read a = m.read a) : m'.header = m.header := by
  simp [header, h 0 (by omega), h 1 (by omega), h 2 (by omega), h 3 (by omega)]

@[simp] theorem header_writeAll_header (m : Memory) (h : Header) : (m.writeAll 0 h.bytes).header = some h := by
  rw [header_eq_some]
  refine ⟨?_, ?_, ?_, ?_⟩ <;> simp [Header.bytes, read_write]

/-! ## The canonical form -/

theorem risingFrom_mono {m : Memory} {lo lo' : Nat} (h : lo' ≤ lo) (hm : m.risingFrom lo = true) :
    m.risingFrom lo' = true := by
  cases m with
  | nil => rfl
  | cons c m =>
    simp only [risingFrom, Bool.and_eq_true, decide_eq_true_eq] at *
    exact ⟨by omega, hm.2⟩

theorem risingFrom_write {m : Memory} {lo a : Nat} (b : Byte) (ha : lo ≤ a) (hm : m.risingFrom lo = true) :
    (m.write a b).risingFrom lo = true := by
  induction m generalizing lo with
  | nil => simp [write, risingFrom, ha]
  | cons c m ih =>
    obtain ⟨k, v⟩ := c
    simp only [risingFrom, Bool.and_eq_true, decide_eq_true_eq] at hm
    simp only [write]
    split
    · simp [risingFrom, ha, hm.2]; omega
    · split
      · subst_vars; simp [risingFrom, hm]
      · have := ih (lo := k + 1) (by omega) hm.2
        simp [risingFrom, hm.1, this]

/-- A write keeps the canonical form. -/
theorem wf_write {m : Memory} (a : Nat) (b : Byte) (h : m.wf = true) : (m.write a b).wf = true :=
  risingFrom_write b (Nat.zero_le a) h

theorem wf_writeAll {m : Memory} (a : Nat) (bs : List Byte) (h : m.wf = true) : (m.writeAll a bs).wf = true := by
  induction bs generalizing m a with
  | nil => exact h
  | cons b bs ih => exact ih (a + 1) (wf_write a b h)

theorem below_write {m : Memory} {a n : Nat} (b : Byte) (ha : a < n) (h : m.below n = true) :
    (m.write a b).below n = true := by
  induction m with
  | nil => simp [write, below, ha]
  | cons c m ih =>
    obtain ⟨k, v⟩ := c
    simp only [below, Bool.and_eq_true, decide_eq_true_eq] at h
    simp only [write]
    split
    · simp [below, ha, h]
    · split
      · simp [below, ha, h]
      · simp [below, h, ih h.2]

theorem below_writeAll {m : Memory} {a n : Nat} (bs : List Byte) (ha : a + bs.length ≤ n) (h : m.below n = true) :
    (m.writeAll a bs).below n = true := by
  induction bs generalizing m a with
  | nil => exact h
  | cons b bs ih =>
    simp only [List.length_cons] at ha
    exact ih (by omega) (below_write b (by omega) h)

/-- A cell at or above the bound was never written. -/
theorem read_of_below {m : Memory} {n a : Nat} (h : m.below n = true) (ha : n ≤ a) : m.read a = none := by
  induction m with
  | nil => rfl
  | cons c m ih =>
    obtain ⟨k, v⟩ := c
    simp only [below, Bool.and_eq_true, decide_eq_true_eq] at h
    simp only [read]
    rw [if_neg (by omega)]
    exact ih h.2

theorem reset_wf : Memory.wf State.reset.buf = true := rfl

end Sys2Proof.Machine.Memory
end

