-- ==== Sys2Proof/Laws/Operands.lean ====
section
/-! SUPPORT. What the operand forms answer: the hex-length parser, the classifier, the "ERR " test and the sideband
demultiplexer. -/

namespace Sys2Proof.Machine

/-! ## The hex-length parser -/

theorem hexDecode_isSome (b : Byte) : (hexDecode b).isSome = isHexDigit b := by
  simp only [hexDecode, isHexDigit]
  split
  · simp [*]
  · split
    · simp [*]
    · split <;> simp [*]

theorem hexDecode_dec {b : Byte} (h : isDecDigit b = true) : hexDecode b = some (decValue b) := by
  simp [hexDecode, h]

theorem hexDecode_lower : ∀ b : Byte, isLowerDigit b = true → hexDecode b = some (lowerValue b) := by decide

theorem hexDecode_upper : ∀ b : Byte, isUpperDigit b = true → hexDecode b = some (upperValue b) := by decide

theorem hexDecode_none {b : Byte} (h : isHexDigit b = false) : hexDecode b = none := by
  have := hexDecode_isSome b
  rw [h] at this
  simpa using this

/-- The digits 0 to 3 have no letter case, so each has one spelling (R77). -/
theorem hexDecode_small : ∀ b : Byte, ∀ n : Nibble, hexDecode b = some n → n ≤ 9 → b = 0x30 + n.setWidth 8 := by decide

theorem lenParse_eq_some {h : Header} {l : Word16} :
    lenParse h = some l ↔ ∃ n0 n1 n2 n3, hexDecode h.c0 = some n0 ∧ hexDecode h.c1 = some n1 ∧
      hexDecode h.c2 = some n2 ∧ hexDecode h.c3 = some n3 ∧ assembleLength n0 n1 n2 n3 = l := by
  constructor
  · intro hl
    simp only [lenParse] at hl
    split at hl
    · exact ⟨_, _, _, _, ‹_›, ‹_›, ‹_›, ‹_›, Option.some.inj hl⟩
    · cases hl
  · rintro ⟨n0, n1, n2, n3, h0, h1, h2, h3, rfl⟩
    simp [lenParse, h0, h1, h2, h3]

/-- `L = 4096*n0 + 256*n1 + 16*n2 + n3` (R59). -/
theorem assembleLength_toNat (n0 n1 n2 n3 : Nibble) :
    (assembleLength n0 n1 n2 n3).toNat = 4096 * n0.toNat + 256 * n1.toNat + 16 * n2.toNat + n3.toNat := by
  have h0 := n0.isLt; have h1 := n1.isLt; have h2 := n2.isLt; have h3 := n3.isLt
  have e1 : n0.toNat <<< 12 ||| n1.toNat <<< 8 = (16 * n0.toNat + n1.toNat) <<< 8 := by
    rw [← Nat.shiftLeft_add_eq_or_of_lt (by rw [Nat.shiftLeft_eq]; omega)]
    simp only [Nat.shiftLeft_eq]; omega
  have e2 : (16 * n0.toNat + n1.toNat) <<< 8 ||| n2.toNat <<< 4 = (256 * n0.toNat + 16 * n1.toNat + n2.toNat) <<< 4 := by
    rw [← Nat.shiftLeft_add_eq_or_of_lt (by rw [Nat.shiftLeft_eq]; omega)]
    simp only [Nat.shiftLeft_eq]; omega
  have m (n : Nibble) (k : Nat) (hk : k ≤ 12) : (n.setWidth 16 <<< k).toNat = n.toNat <<< k := by
    have := n.isLt
    have hp : 2 ^ k ≤ 2 ^ 12 := Nat.pow_le_pow_right (by omega) hk
    have : n.toNat * 2 ^ k ≤ 15 * 2 ^ 12 := Nat.mul_le_mul (by omega) hp
    rw [BitVec.toNat_shiftLeft, BitVec.toNat_setWidth, Nat.mod_eq_of_lt (a := n.toNat) (by omega), Nat.shiftLeft_eq,
      Nat.mod_eq_of_lt (by omega)]
  simp only [assembleLength, BitVec.toNat_or, m _ _ (by omega : 12 ≤ 12), m _ _ (by omega : 8 ≤ 12), m _ _ (by omega : 4 ≤ 12)]
  rw [e1, e2, BitVec.toNat_setWidth, Nat.mod_eq_of_lt (a := n3.toNat) (by omega), ← Nat.shiftLeft_add_eq_or_of_lt (by omega)]
  simp only [Nat.shiftLeft_eq]; omega
/-- A header that spells a value below 10 is "000" and one decimal digit (R77). -/
theorem header_of_small {h : Header} {l : Word16} (hl : lenParse h = some l) (h9 : l.toNat ≤ 9) :
    h = ⟨0x30, 0x30, 0x30, 0x30 + l.setWidth 8⟩ := by
  obtain ⟨n0, n1, n2, n3, h0, h1, h2, h3, rfl⟩ := lenParse_eq_some.1 hl
  rw [assembleLength_toNat] at h9
  have z0 : n0 = 0 := BitVec.eq_of_toNat_eq (by simp; omega)
  have z1 : n1 = 0 := BitVec.eq_of_toNat_eq (by simp; omega)
  have z2 : n2 = 0 := BitVec.eq_of_toNat_eq (by simp; omega)
  subst z0 z1 z2
  have e3 := hexDecode_small _ _ h3 (by rw [BitVec.le_def]; simp at *; omega)
  have e : ∀ n : Nibble, (assembleLength 0 0 0 n).setWidth 8 = n.setWidth 8 := by decide
  obtain ⟨c0, c1, c2, c3⟩ := h
  simp only [Header.mk.injEq]
  exact ⟨hexDecode_small _ _ h0 (by decide), hexDecode_small _ _ h1 (by decide), hexDecode_small _ _ h2 (by decide),
    by rw [e n3]; exact e3⟩

@[simp] theorem lenParse_flush : lenParse Header.flush = some 0 := by decide
@[simp] theorem lenParse_delim : lenParse Header.delim = some 1 := by decide
@[simp] theorem lenParse_responseEnd : lenParse Header.responseEnd = some 2 := by decide
@[simp] theorem lenParse_rsvd3 : lenParse Header.rsvd3 = some 3 := by decide

/-! ## The classifier: each class and when it is the answer (R76, R120) -/

theorem classify_nonhex {P : Params} {r : Option Word16} : classify P r = .nonhex ↔ r = none := by
  cases r with
  | none => simp [classify]
  | some l => simp only [classify]; repeat' split
              all_goals simp

theorem classify_flush {P : Params} {r : Option Word16} : classify P r = .flush ↔ r = some 0 := by
  cases r with
  | none => simp [classify]
  | some l => simp only [classify]; repeat' split
              all_goals simp_all

theorem classify_delim {P : Params} {r : Option Word16} : classify P r = .delim ↔ r = some 1 := by
  cases r with
  | none => simp [classify]
  | some l => simp only [classify]; repeat' split
              all_goals simp_all

theorem classify_responseEnd {P : Params} {r : Option Word16} : classify P r = .responseEnd ↔ r = some 2 := by
  cases r with
  | none => simp [classify]
  | some l => simp only [classify]; repeat' split
              all_goals simp_all

theorem classify_rsvd3 {P : Params} {r : Option Word16} : classify P r = .rsvd3 ↔ r = some 3 := by
  cases r with
  | none => simp [classify]
  | some l => simp only [classify]; repeat' split
              all_goals simp_all

theorem toNat_ge_four {l : Word16} (h0 : ¬ l = 0) (h1 : ¬ l = 1) (h2 : ¬ l = 2) (h3 : ¬ l = 3) : 4 ≤ l.toNat := by
  rw [← BitVec.toNat_inj] at h0 h1 h2 h3
  simp at h0 h1 h2 h3
  omega

theorem classify_overmax {P : Params} (hP : 4 ≤ P.maxDeclared) {r : Option Word16} :
    classify P r = .overmax ↔ ∃ l, r = some l ∧ P.maxDeclared < l.toNat := by
  cases r with
  | none => simp [classify]
  | some l =>
    simp only [classify]
    repeat' split
    all_goals simp_all
    all_goals omega

theorem classify_data {P : Params} {r : Option Word16} {n : Nat} :
    classify P r = .data n ↔ ∃ l, r = some l ∧ n + 4 = l.toNat ∧ l.toNat ≤ P.maxDeclared := by
  cases r with
  | none => simp [classify]
  | some l =>
    simp only [classify]
    by_cases h0 : l = 0
    · simp [h0]
    by_cases h1 : l = 1
    · simp [h1]
    by_cases h2 : l = 2
    · simp [h2]
    by_cases h3 : l = 3
    · simp [h3]
    have h4 := toNat_ge_four h0 h1 h2 h3
    rw [if_neg h0, if_neg h1, if_neg h2, if_neg h3]
    split
    · simp; omega
    · simp only [HeaderClass.data.injEq, Option.some.injEq, exists_eq_left']; omega

/-! ## The "ERR " test -/

theorem startsWithErr_iff {p : List Byte} : startsWithErr p = true ↔ ∃ t, p = Config.errMagic ++ t := by
  simp only [startsWithErr, beq_iff_eq]
  constructor
  · intro h
    exact ⟨p.drop 4, by rw [← h, List.take_append_drop]⟩
  · rintro ⟨t, rfl⟩; rfl

theorem startsWithErr_length {p : List Byte} (h : startsWithErr p = true) : 4 ≤ p.length := by
  obtain ⟨t, rfl⟩ := startsWithErr_iff.1 h
  simp [Config.errMagic]

/-! ## The sideband demultiplexer -/

@[simp] theorem tagOfByte_one : tagOfByte 1 = .pack := rfl
@[simp] theorem tagOfByte_two : tagOfByte 2 = .progress := rfl
@[simp] theorem tagOfByte_three : tagOfByte 3 = .fatal := rfl

theorem tagOfByte_pack {b : Byte} : tagOfByte b = .pack ↔ b = 1 := by
  simp only [tagOfByte]; repeat' split
  all_goals simp_all

theorem tagOfByte_progress {b : Byte} : tagOfByte b = .progress ↔ b = 2 := by
  simp only [tagOfByte]; repeat' split
  all_goals simp_all

theorem tagOfByte_fatal {b : Byte} : tagOfByte b = .fatal ↔ b = 3 := by
  simp only [tagOfByte]; repeat' split
  all_goals simp_all

/-- Everything `decodeSideband` can answer (R180): the tag and the remainder, or the bytes unchanged. -/
theorem decodeSideband_cases (p : List Byte) :
    (decodeSideband p = (.invalid, p)) ∨
    (∃ b c, p = b :: c ∧ tagOfByte b ≠ .invalid ∧ decodeSideband p = (tagOfByte b, c)) := by
  cases p with
  | nil => exact .inl rfl
  | cons b c =>
    simp only [decodeSideband]
    split
    · exact .inl rfl
    · exact .inr ⟨b, c, rfl, ‹_›, rfl⟩

end Sys2Proof.Machine
end

