-- ==== Sys2Proof/Laws/Ops.lean ====
section
/-! SUPPORT. What each shared operation does, said once: the answer it gives, and under what condition on the
state. -/

namespace Sys2Proof.Machine

/-! ## Storing -/

theorem memWrite_next {a : Nat} (b : Byte) {s : State} (h : a < s.params.bufCap) :
    memWrite a b s = .next { s with buf := s.buf.write a b } := by
  simp [memWrite, h]

/-- Everything a byte store can do. -/
theorem memWrite_cases (a : Nat) (b : Byte) (s : State) :
    (a < s.params.bufCap ∧ memWrite a b s = .next { s with buf := s.buf.write a b }) ∨
    (s.params.bufCap ≤ a ∧ memWrite a b s = .fault .bufAddress) := by
  by_cases h : a < s.params.bufCap
  · exact .inl ⟨h, memWrite_next b h⟩
  · exact .inr ⟨by omega, by simp [memWrite, h]⟩

theorem storeBytes_next {a : Nat} {bs : List Byte} {s : State} (h : a + bs.length ≤ s.params.bufCap) :
    storeBytes a bs s = .next { s with buf := s.buf.writeAll a bs } := by
  induction bs generalizing a s with
  | nil => rfl
  | cons b bs ih =>
    simp only [List.length_cons] at h
    simp only [storeBytes, memWrite_next b (show a < s.params.bufCap by omega), andThen_next]
    rw [ih (by show a + 1 + bs.length ≤ s.params.bufCap; omega)]; rfl

theorem takeHeader_next (h : Header) {s : State} (hv : s.params.Valid) :
    takeHeader h s = .next { startDecode s with
      buf := s.buf.writeAll 0 h.bytes, hcnt := 4, consumed := s.consumed + 4 } := by
  simp only [takeHeader]
  rw [storeBytes_next (by simpa [Header.bytes] using valid_four_le_bufCap hv)]
  rfl

theorem takePayload_next {p : List Byte} {s : State} (h : 4 + p.length ≤ s.params.bufCap) :
    takePayload p s = .next { s with
      buf := s.buf.writeAll 4 p, pcnt := BitVec.ofNat 16 p.length, consumed := s.consumed + p.length } := by
  simp only [takePayload]
  rw [storeBytes_next h]
  rfl

/-! ## Guards -/

theorem whenIdle_idle {s : State} (h : s.phase = .idle) (f : State → Result) : whenIdle f s = f s := by
  simp [whenIdle, h]

theorem whenIdle_busy {s : State} (h : s.phase ≠ .idle) (f : State → Result) : whenIdle f s = .next s := by
  simp [whenIdle, h]

theorem whenPhase_accepted {ph : Phase} {s : State} (h : s.phase = ph) (f : State → Result) :
    whenPhase ph f s = f s := by
  simp [whenPhase, h]

theorem whenPhase_refused {ph : Phase} {s : State} (h : s.phase ≠ ph) (f : State → Result) :
    whenPhase ph f s = .next s := by
  simp [whenPhase, h]

theorem whenWellFormed_wf {i : Instr} {s : State} (h : i.wellFormed s.params = true) (f : State → Result) :
    whenWellFormed i f s = f s := by
  simp [whenWellFormed, h]

theorem whenWellFormed_not {i : Instr} {s : State} (h : i.wellFormed s.params = false) (f : State → Result) :
    whenWellFormed i f s = .refused .illFormed := by
  simp [whenWellFormed, h]

@[simp] theorem giveAnswer_eq (r : Answer) (s : State) : giveAnswer r s = .next { s with answer := r } := rfl

/-! ## The completions -/

/-- The state header completion leaves (R144), by the header's class and the value it spells. -/
def afterHeader (c : HeaderClass) (l : Word16) (s : State) : State :=
  match c with
  | .nonhex => endNonhex s
  | .flush => endFlush s
  | .delim => endDelim s
  | .responseEnd => endResponseEnd s
  | .rsvd3 => endRsvd3 s
  | .overmax => endOvermax l s
  | .data 0 => endEmptyData s
  | .data (_ + 1) => enterPayload l s

/-- Header completion on a written header answers the state of its class. -/
theorem completeHeader_next {s : State} {h : Header} (hh : s.buf.header = some h) :
    completeHeader s =
      .next (afterHeader (classify s.params (lenParse h)) ((lenParse h).getD 0) s) := by
  simp only [completeHeader, hh]
  split <;> simp only [afterHeader, *]

/-- Everything header completion can do. -/
theorem completeHeader_cases (s : State) :
    (s.buf.header = none ∧ completeHeader s = .fault .unwrittenRead) ∨
    (∃ h, s.buf.header = some h ∧ completeHeader s =
      .next (afterHeader (classify s.params (lenParse h)) ((lenParse h).getD 0) s)) := by
  cases hh : s.buf.header with
  | none => exact .inl ⟨rfl, by simp [completeHeader, hh]⟩
  | some h => exact .inr ⟨h, rfl, completeHeader_next hh⟩

/-- The state payload completion leaves (R148): an error line, or the payload. -/
def afterPayload (isErr : Bool) (s : State) : State :=
  if isErr then finish .errorLine 8 (s.len - 8) s else finish .payload 4 (s.len - 4) s

/-- Payload completion on a payload too short for the test. -/
theorem completePayload_short {s : State} (h : s.len.toNat < 8) :
    completePayload s = .next (afterPayload false s) := by
  simp only [completePayload]
  rw [if_neg (by omega)]; rfl

/-- Payload completion where the four bytes under test have been written. -/
theorem completePayload_tested {s : State} {q : List Byte} (h : 8 ≤ s.len.toNat)
    (hq : s.buf.readRange 4 4 = some q) :
    completePayload s = .next (afterPayload (q == Config.errMagic) s) := by
  simp only [completePayload, hq]
  rw [if_pos h]
  by_cases hm : q = Config.errMagic <;> simp [afterPayload, hm]

/-- Everything payload completion can do. -/
theorem completePayload_cases (s : State) :
    completePayload s = .fault .unwrittenRead ∨ completePayload s = .next (afterPayload false s) ∨
    (8 ≤ s.len.toNat ∧ s.buf.readRange 4 4 = some Config.errMagic ∧
      completePayload s = .next (afterPayload true s)) := by
  by_cases h : 8 ≤ s.len.toNat
  · cases hq : s.buf.readRange 4 4 with
    | none => exact .inl (by simp [completePayload, hq, h])
    | some q =>
      rw [completePayload_tested h hq]
      by_cases hm : q = Config.errMagic
      · exact .inr (.inr ⟨h, by rw [hm], by simp [hm]⟩)
      · exact .inr (.inl (by rw [beq_eq_false_iff_ne.2 hm]))
  · exact .inr (.inl (completePayload_short (by omega)))

/-! ## What the two completions leave alone -/

/-- Header completion writes `LEN` and either the outcome or `PHASE` and `PCNT` (R144). -/
theorem afterHeader_frame (c : HeaderClass) (l : Word16) (s : State) :
    (afterHeader c l s).buf = s.buf ∧ (afterHeader c l s).hcnt = s.hcnt ∧
    (afterHeader c l s).consumed = s.consumed ∧ (afterHeader c l s).params = s.params ∧
    (afterHeader c l s).source = s.source ∧ (afterHeader c l s).moves = s.moves ∧ (afterHeader c l s).answer = s.answer ∧
    ((afterHeader c l s).pcnt = s.pcnt ∨ (afterHeader c l s).pcnt = 0) := by
  unfold afterHeader
  split <;> simp

/-- Payload completion writes the outcome and `PHASE` only (R148). -/
theorem afterPayload_frame (isErr : Bool) (s : State) :
    (afterPayload isErr s).buf = s.buf ∧ (afterPayload isErr s).hcnt = s.hcnt ∧
    (afterPayload isErr s).len = s.len ∧ (afterPayload isErr s).pcnt = s.pcnt ∧
    (afterPayload isErr s).consumed = s.consumed ∧ (afterPayload isErr s).params = s.params ∧
    (afterPayload isErr s).source = s.source ∧ (afterPayload isErr s).moves = s.moves ∧
    (afterPayload isErr s).answer = s.answer := by
  cases isErr <;> simp [afterPayload]

/-! ## The counters, which never wrap (R131) -/

theorem hcnt_succ_toNat (h : BitVec 3) (h3 : h.toNat ≤ 3) : (h + 1).toNat = h.toNat + 1 := by
  revert h; decide

theorem hcnt_succ_eq_four (h : BitVec 3) : h + 1 = 4 ↔ h = 3 := by revert h; decide

theorem pcnt_succ_toNat (p : Word16) (h : p.toNat < 65535) : (p + 1).toNat = p.toNat + 1 := by
  rw [BitVec.toNat_add]; simp; omega

theorem word16_sub_ofNat (l : Word16) (k : Nat) (h : k ≤ l.toNat) :
    l - BitVec.ofNat 16 k = BitVec.ofNat 16 (l.toNat - k) := by
  apply BitVec.eq_of_toNat_eq
  have := l.isLt
  rw [BitVec.toNat_sub]; simp; omega

/-! ## Fetching and stepping -/

theorem step_of_run {s t : State} {i : Instr} (h : fetch s = .run i t) : step s = exec i t := by
  simp [step, h]

theorem step_of_quiet {s t : State} (h : fetch s = .quiet t) : step s = .next t := by
  simp [step, h]

/-- Everything a step can do: nothing but the environment's move, or one instruction. -/
theorem step_cases (s : State) :
    (∃ t, fetch s = .quiet t ∧ step s = .next t) ∨ (∃ i t, fetch s = .run i t ∧ step s = exec i t) := by
  cases h : fetch s with
  | run i t => exact .inr ⟨i, t, rfl, step_of_run h⟩
  | quiet t => exact .inl ⟨t, rfl, step_of_quiet h⟩

@[simp] theorem runSteps_zero (s : State) : runSteps 0 s = .next s := rfl

theorem runSteps_succ (k : Nat) (s : State) : runSteps (k + 1) s = andThen (step s) (runSteps k) := rfl

theorem runSteps_add (j k : Nat) (s : State) :
    runSteps (j + k) s = andThen (runSteps j s) (runSteps k) := by
  induction j generalizing s with
  | zero => simp
  | succ j ih =>
    rw [Nat.succ_add, runSteps_succ, runSteps_succ]
    cases h : step s with
    | next t => simp [ih]
    | fault r => rfl
    | refused r => rfl

@[simp] theorem Source.next_byte (b : Byte) (bs : List Byte) (t : Terminator) :
    Source.next ⟨b :: bs, t⟩ = some (0, b, ⟨bs, t⟩) := rfl
@[simp] theorem Source.next_eoi : Source.next ⟨[], .eoi⟩ = some (1, 0, ⟨[], .eoi⟩) := rfl
@[simp] theorem Source.next_fail : Source.next ⟨[], .fail⟩ = some (2, 0, ⟨[], .fail⟩) := rfl
@[simp] theorem Source.next_stall : Source.next ⟨[], .stall⟩ = none := rfl

/-- With no move to come the machine waits (R151, R250). -/
theorem step_no_move {s : State} (h : s.moves = []) : step s = .next s :=
  step_of_quiet (by simp [fetch, h])

end Sys2Proof.Machine
end

