-- ==== Sys2Proof/Laws/Frames.lean ====
section
/-! SUPPORT. What a decode call does with each whole frame, as one state after the header and one after the payload;
and what the decoders answer on a stream that begins with a header. -/

namespace Sys2Proof.Machine

/-! ## Whole frames -/

/-- The state once a `PULL` and four header bytes have been taken. -/
def headerTaken (h : Header) (s : State) : State :=
  { startDecode s with buf := s.buf.writeAll 0 h.bytes, hcnt := 4, consumed := s.consumed + 4 }

/-- The state once the payload has been taken after its header. -/
def frameTaken (h : Header) (p : List Byte) (l : Word16) (s : State) : State :=
  { headerTaken h s with
    len := l, buf := (s.buf.writeAll 0 h.bytes).writeAll 4 p, pcnt := BitVec.ofNat 16 p.length,
    consumed := s.consumed + 4 + p.length }

theorem exec_flush_idle {s : State} (hv : s.params.Valid) (hp : s.phase = .idle) :
    exec .flush s = .next (endFlush (headerTaken Header.flush s)) := by
  simp only [exec, execFlush]; rw [whenIdle_idle hp, takeHeader_next _ hv]; rfl

theorem exec_delim_idle {s : State} (hv : s.params.Valid) (hp : s.phase = .idle) :
    exec .delim s = .next (endDelim (headerTaken Header.delim s)) := by
  simp only [exec, execDelim]; rw [whenIdle_idle hp, takeHeader_next _ hv]; rfl

theorem exec_responseEnd_idle {s : State} (hv : s.params.Valid) (hp : s.phase = .idle) :
    exec .responseEnd s = .next (endResponseEnd (headerTaken Header.responseEnd s)) := by
  simp only [exec, execResponseEnd]; rw [whenIdle_idle hp, takeHeader_next _ hv]; rfl

theorem exec_rsvd3_idle {s : State} (hv : s.params.Valid) (hp : s.phase = .idle) :
    exec .rsvd3 s = .next (endRsvd3 (headerTaken Header.rsvd3 s)) := by
  simp only [exec, execRsvd3]; rw [whenIdle_idle hp, takeHeader_next _ hv]; rfl

theorem exec_overmax_idle {s : State} {h : Header} {l : Word16} (hv : s.params.Valid) (hp : s.phase = .idle)
    (hl : lenParse h = some l) (h2 : s.params.maxDeclared < l.toNat) :
    exec (.overmax h) s = .next (endOvermax l (headerTaken h s)) := by
  simp only [exec, execOvermax]
  rw [whenWellFormed_wf (by simp [Instr.wellFormed, hl, h2]), whenIdle_idle hp, takeHeader_next _ hv, hl]; rfl

theorem exec_nonhex_idle {s : State} {h : Header} (hv : s.params.Valid) (hp : s.phase = .idle)
    (hl : lenParse h = none) :
    exec (.nonhex h) s = .next (endNonhex (headerTaken h s)) := by
  simp only [exec, execNonhex]
  rw [whenWellFormed_wf (by simp [Instr.wellFormed, hl]), whenIdle_idle hp, takeHeader_next _ hv]; rfl

theorem exec_data_idle {s : State} {h : Header} {p : List Byte} {l : Word16} (hv : s.params.Valid)
    (hp : s.phase = .idle) (hl : lenParse h = some l) (hn : p.length + 4 = l.toNat) (hm : l.toNat ≤ s.params.maxDeclared)
    (he : p.take 4 ≠ Config.errMagic) :
    exec (.data h p) s = .next (finish .payload 4 (BitVec.ofNat 16 p.length) (frameTaken h p l s)) := by
  simp only [exec, execData]
  have hc := hv.2.2
  rw [whenWellFormed_wf, whenIdle_idle hp, takeHeader_next _ hv]
  · simp only [andThen_next]
    rw [takePayload_next (by simp only [startDecode_params]; omega), hl]; rfl
  · simp [Instr.wellFormed, hl, startsWithErr]; exact ⟨⟨⟨by omega, hm⟩, by omega⟩, he⟩

theorem exec_errline_idle {s : State} {h : Header} {t : List Byte} {l : Word16} (hv : s.params.Valid)
    (hp : s.phase = .idle) (hl : lenParse h = some l) (hn : t.length + 8 = l.toNat)
    (hm : l.toNat ≤ s.params.maxDeclared) :
    exec (.errline h t) s =
      .next (finish .errorLine 8 (BitVec.ofNat 16 t.length) (frameTaken h (Config.errMagic ++ t) l s)) := by
  have hlen : (Config.errMagic ++ t).length = t.length + 4 := by simp [Config.errMagic]
  simp only [exec, execErrline]
  have hc := hv.2.2
  rw [whenWellFormed_wf, whenIdle_idle hp, takeHeader_next _ hv]
  · simp only [andThen_next]
    rw [takePayload_next (by simp only [startDecode_params]; omega), hl]; rfl
  · simp [Instr.wellFormed, hl]; exact ⟨hm, by omega⟩

/-! ## Streams that begin with a header -/

theorem decodeFrame_header (P : Params) (h : Header) (rest : List Byte) :
    decodeFrame P (h.bytes ++ rest) =
      match classify P (lenParse h) with
      | .nonhex => .ok (.nonhex h, rest)
      | .flush => .ok (.flush, rest)
      | .delim => .ok (.delim, rest)
      | .responseEnd => .ok (.responseEnd, rest)
      | .rsvd3 => .ok (.rsvd3, rest)
      | .overmax => .ok (.overmax h, rest)
      | .data n =>
        if rest.length < n then .error .shortPayload
        else if startsWithErr (rest.take n) then .ok (.errline h ((rest.take n).drop 4), rest.drop n)
        else .ok (.data h (rest.take n), rest.drop n) := rfl

theorem decode1_header (P : Params) (h : Header) (rest : List Byte) (tm : Terminator) :
    decode1 P ⟨h.bytes ++ rest, tm⟩ =
      match classify P (lenParse h) with
      | .nonhex => some ⟨.invalidLength, h.bytes, ⟨rest, tm⟩⟩
      | .flush => some ⟨.flush, [], ⟨rest, tm⟩⟩
      | .delim => some ⟨.delim, [], ⟨rest, tm⟩⟩
      | .responseEnd => some ⟨.responseEnd, [], ⟨rest, tm⟩⟩
      | .rsvd3 => some ⟨.invalidLength, h.bytes, ⟨rest, tm⟩⟩
      | .overmax => some ⟨.invalidLength, h.bytes, ⟨rest, tm⟩⟩
      | .data n => decodePayload n rest tm := rfl

/-! ## The encoder -/

theorem hexDecode_hexEncode : ∀ n : Nibble, hexDecode (hexEncode n) = some n := by decide

/-- Every digit the encoder produces is decimal or lower case. -/
theorem hexEncode_lowerCase : ∀ n : Nibble, isDecDigit (hexEncode n) = true ∨ isLowerDigit (hexEncode n) = true := by
  decide

theorem encodeLength_some {P : Params} {k : Nat} (h : k + 4 ≤ P.maxDeclared) :
    encodeLength P k = some ⟨hexEncode (BitVec.ofNat 4 ((k + 4) / 4096)),
      hexEncode (BitVec.ofNat 4 ((k + 4) / 256)), hexEncode (BitVec.ofNat 4 ((k + 4) / 16)),
      hexEncode (BitVec.ofNat 4 (k + 4))⟩ := by
  simp only [encodeLength]
  rw [if_neg (by omega)]
  simp [Nat.shiftRight_eq_div_pow]

theorem encodeLength_none {P : Params} {k : Nat} (h : P.maxDeclared < k + 4) : encodeLength P k = none := by
  simp only [encodeLength]; rw [if_pos h]

/-- `MAX_PAYLOAD_ENC` is what the encoder's test comes to (R8, R193). -/
theorem valid_le_maxPayloadEnc {P : Params} (h : P.Valid) {k : Nat} :
    k ≤ P.maxPayloadEnc ↔ k + 4 ≤ P.maxDeclared := by
  have := h.1
  simp only [Params.maxPayloadEnc]; omega

end Sys2Proof.Machine
end

