-- ==== Sys2Proof/Laws/PerInstr.lean ====
section
/-! SUPPORT. Statements about every instruction as syntax, one lemma per constructor. -/

namespace Sys2Proof.Laws.SignalFormat

/-- The encoder presents an instruction in the format its row of spec/opcode_table.json has (R89). -/
def Statement (i : Instr) : Prop := (encode i).format = i.format

theorem flush : Statement (.flush) := rfl
theorem delim : Statement (.delim) := rfl
theorem responseEnd : Statement (.responseEnd) := rfl
theorem rsvd3 : Statement (.rsvd3) := rfl
theorem data (h : Header) (p : List Byte) : Statement (.data h p) := rfl
theorem errline (h : Header) (t : List Byte) : Statement (.errline h t) := rfl
theorem overmax (h : Header) : Statement (.overmax h) := rfl
theorem nonhex (h : Header) : Statement (.nonhex h) := rfl
theorem sbPack (c : List Byte) : Statement (.sbPack c) := rfl
theorem sbProgress (c : List Byte) : Statement (.sbProgress c) := rfl
theorem sbFatal (c : List Byte) : Statement (.sbFatal c) := rfl
theorem sbInvalid (p : List Byte) : Statement (.sbInvalid p) := rfl
theorem hexdigDec (b : Byte) : Statement (.hexdigDec b) := rfl
theorem hexdigUpper (b : Byte) : Statement (.hexdigUpper b) := rfl
theorem hexdigLower (b : Byte) : Statement (.hexdigLower b) := rfl
theorem hexdigNone (b : Byte) : Statement (.hexdigNone b) := rfl
theorem reset : Statement (.reset) := rfl
theorem pull : Statement (.pull) := rfl
theorem srcByteHdr (b : Byte) : Statement (.srcByteHdr b) := rfl
theorem srcBytePay (b : Byte) : Statement (.srcBytePay b) := rfl
theorem srcEoiHdr : Statement (.srcEoiHdr) := rfl
theorem srcEoiPay : Statement (.srcEoiPay) := rfl
theorem srcFailHdr : Statement (.srcFailHdr) := rfl
theorem srcFailPay : Statement (.srcFailPay) := rfl
theorem srcRsvd : Statement (.srcRsvd) := rfl
theorem hexenc (n : Nibble) : Statement (.hexenc n) := rfl
theorem encLength (k : Nat) : Statement (.encLength k) := rfl
theorem encFrame (p : List Byte) : Statement (.encFrame p) := rfl
theorem encFlush : Statement (.encFlush) := rfl
theorem encDelim : Statement (.encDelim) := rfl
theorem encResponseEnd : Statement (.encResponseEnd) := rfl
theorem encSideband (g : Byte) (c : List Byte) : Statement (.encSideband g c) := rfl

end Sys2Proof.Laws.SignalFormat
end

