-- ==== Sys2Proof/Tests/Slice0.lean ====
section
/-! SUPPORT. Small tests. The expected results are the worked examples and derived vectors of
spec/95_test_vectors.md (V1 to V130, P1 to P4) or words written out from spec/30_encoding.md; and for every obligation
with hypotheses a witness that meets them. -/

namespace Sys2Proof.Tests

open Sys2Proof Sys2Proof.Machine

/-! ## Small states -/

/-- A decode has begun and these header bytes have arrived. -/
def inHeader (bs : List Byte) : State :=
  { State.reset with phase := .hdr, hcnt := BitVec.ofNat 3 bs.length, buf := Memory.writeAll [] 0 bs, consumed := bs.length }

/-- The header `h`, spelling `l`, has been read and these payload bytes have arrived. -/
def inPayload (h : Header) (l : Word16) (p : List Byte) : State :=
  { State.reset with
    phase := .pay, hcnt := 4, len := l, pcnt := BitVec.ofNat 16 p.length,
    buf := Memory.writeAll [] 0 (h.bytes ++ p), consumed := 4 + p.length }

/-- The stream `bs` and its end are attached and these moves are to come. -/
def withStream (bs : List Byte) (t : Terminator) (ms : List Move) (s : State) : State :=
  { s with source := ⟨bs, t⟩, moves := ms }

/-- "0005Z" has been decoded (V58). -/
def publishedZ : State :=
  { State.reset with
    hcnt := 4, len := 5, pcnt := 1, outValid := true, outKind := .payload, viewOff := 4, viewLen := 1,
    buf := [(0, 0x30), (1, 0x30), (2, 0x30), (3, 0x35), (4, 0x5a)], consumed := 5 }

/-- The answer of a result, if it is a next state. -/
def answerOf (r : Result) : Option Answer := (nextState r).map fun t => t.answer

/-- The outcome of a result: kind, carried bytes, bytes consumed. -/
def outcomeOf (r : Result) : Option (OutKind × Option (List Byte) × Nat) :=
  (nextState r).map fun t => (t.outKind, t.view, t.consumed)

abbrev h0004 : Header := ⟨0x30, 0x30, 0x30, 0x34⟩
abbrev h0005 : Header := ⟨0x30, 0x30, 0x30, 0x35⟩
abbrev h0007 : Header := ⟨0x30, 0x30, 0x30, 0x37⟩
abbrev h0008 : Header := ⟨0x30, 0x30, 0x30, 0x38⟩
abbrev hfff0 : Header := ⟨0x66, 0x66, 0x66, 0x30⟩
abbrev hFFF0 : Header := ⟨0x46, 0x46, 0x46, 0x30⟩
abbrev hfff1 : Header := ⟨0x66, 0x66, 0x66, 0x31⟩
abbrev hffff : Header := ⟨0x66, 0x66, 0x66, 0x66⟩
abbrev hDollar : Header := ⟨0x24, 0x24, 0x24, 0x24⟩

/-! ## Well-formedness: every check refuses an ill-formed term -/

theorem test_data_below_four_refused : (Instr.data Header.rsvd3 []).wellFormed Config.params = false := by decide
theorem test_data_above_maximum_refused : (Instr.data hfff1 []).wellFormed Config.params = false := by decide
theorem test_data_wrong_length_refused : (Instr.data h0005 []).wellFormed Config.params = false := by decide
theorem test_data_err_prefix_refused : (Instr.data h0008 [0x45, 0x52, 0x52, 0x20]).wellFormed Config.params = false := by decide
theorem test_data_nonhex_refused : (Instr.data hDollar []).wellFormed Config.params = false := by decide
theorem test_errline_wrong_length_refused : (Instr.errline h0008 [0x61]).wellFormed Config.params = false := by decide
theorem test_errline_above_maximum_refused : (Instr.errline hfff1 (List.replicate 8 0)).wellFormed Config.params = false := by decide
theorem test_errline_nonhex_refused : (Instr.errline hDollar []).wellFormed Config.params = false := by decide
theorem test_overmax_at_maximum_refused : (Instr.overmax hfff0).wellFormed Config.params = false := by decide
theorem test_overmax_nonhex_refused : (Instr.overmax hDollar).wellFormed Config.params = false := by decide
theorem test_nonhex_all_hex_refused : (Instr.nonhex h0004).wellFormed Config.params = false := by decide
theorem test_sbInvalid_with_tag_refused : (Instr.sbInvalid [1]).wellFormed Config.params = false := by decide
theorem test_hexdigDec_refused : (Instr.hexdigDec 0x3a).wellFormed Config.params = false := by decide
theorem test_hexdigUpper_refused : (Instr.hexdigUpper 0x47).wellFormed Config.params = false := by decide
theorem test_hexdigLower_refused : (Instr.hexdigLower 0x60).wellFormed Config.params = false := by decide
theorem test_hexdigNone_refused : (Instr.hexdigNone 0x61).wellFormed Config.params = false := by decide
theorem test_ill_formed_term_has_no_meaning :
    exec (.data h0005 []) State.reset = .refused .illFormed ∧ exec (.hexdigDec 0x3a) State.reset = .refused .illFormed :=
  ⟨rfl, rfl⟩

/-! ## Decoding: words written out from the spec's encodings -/

/-- "0000", "0001", "0002" (R77) and "0003" (R78). -/
theorem test_decode_fixed_headers :
    decode Config.params .idle (.frame [0x30, 0x30, 0x30, 0x30]) = .ok .flush ∧
    decode Config.params .idle (.frame [0x30, 0x30, 0x30, 0x31]) = .ok .delim ∧
    decode Config.params .idle (.frame [0x30, 0x30, 0x30, 0x32]) = .ok .responseEnd ∧
    decode Config.params .idle (.frame [0x30, 0x30, 0x30, 0x33]) = .ok .rsvd3 := by decide

/-- "000eversion 1\n" (V10). -/
theorem test_decode_data :
    decode Config.params .idle (.frame [0x30, 0x30, 0x30, 0x65, 0x76, 0x65, 0x72, 0x73, 0x69, 0x6f, 0x6e, 0x20, 0x31, 0x0a]) =
      .ok (.data ⟨0x30, 0x30, 0x30, 0x65⟩ [0x76, 0x65, 0x72, 0x73, 0x69, 0x6f, 0x6e, 0x20, 0x31, 0x0a]) := by decide

/-- "000cERR oops" (V65). -/
theorem test_decode_errline :
    decode Config.params .idle (.frame [0x30, 0x30, 0x30, 0x63, 0x45, 0x52, 0x52, 0x20, 0x6f, 0x6f, 0x70, 0x73]) =
      .ok (.errline ⟨0x30, 0x30, 0x30, 0x63⟩ [0x6f, 0x6f, 0x70, 0x73]) := by decide

/-- "fff1" and "FFFF" (R80), "$$$$" and "000g" (R79). -/
theorem test_decode_invalid_headers :
    decode Config.params .idle (.frame [0x66, 0x66, 0x66, 0x31]) = .ok (.overmax hfff1) ∧
    decode Config.params .idle (.frame [0x46, 0x46, 0x46, 0x46]) = .ok (.overmax ⟨0x46, 0x46, 0x46, 0x46⟩) ∧
    decode Config.params .idle (.frame [0x24, 0x24, 0x24, 0x24]) = .ok (.nonhex hDollar) ∧
    decode Config.params .idle (.frame [0x30, 0x30, 0x30, 0x67]) = .ok (.nonhex ⟨0x30, 0x30, 0x30, 0x67⟩) := by decide

/-- Rejected by name: too few bytes, and bytes left over (R81). -/
theorem test_decode_frame_errors :
    decode Config.params .idle (.frame [0x30, 0x30, 0x30]) = .error .shortHeader ∧
    decode Config.params .idle (.frame [0x30, 0x30, 0x30, 0x35]) = .error .shortPayload ∧
    decode Config.params .idle (.frame [0x30, 0x30, 0x30, 0x30, 0x30]) = .error .trailingBytes ∧
    decode Config.params .idle (.src 0 0x30) = .error .notAccepted := by decide

/-- The tag byte map (R83). -/
theorem test_decode_sideband :
    decode Config.params .idle (.message [0x01, 0x50]) = .ok (.sbPack [0x50]) ∧
    decode Config.params .idle (.message [0x02]) = .ok (.sbProgress []) ∧
    decode Config.params .idle (.message [0x03, 0x78]) = .ok (.sbFatal [0x78]) ∧
    decode Config.params .idle (.message []) = .ok (.sbInvalid []) ∧
    decode Config.params .idle (.message [0x31, 0x78]) = .ok (.sbInvalid [0x31, 0x78]) := by decide

/-- The hex digit set at its edges (R73). -/
theorem test_decode_digits :
    decode Config.params .idle (.digit 0x30) = .ok (.hexdigDec 0x30) ∧ decode Config.params .idle (.digit 0x3a) = .ok (.hexdigNone 0x3a) ∧
    decode Config.params .idle (.digit 0x41) = .ok (.hexdigUpper 0x41) ∧ decode Config.params .idle (.digit 0x47) = .ok (.hexdigNone 0x47) ∧
    decode Config.params .idle (.digit 0x66) = .ok (.hexdigLower 0x66) ∧ decode Config.params .idle (.digit 0x60) = .ok (.hexdigNone 0x60) := by
  decide

/-- `src_kind` 0, 1, 2, 3 (R88), `rst` and `pull_req` (R39). -/
theorem test_decode_events :
    decode Config.params .idle .rst = .ok .reset ∧ decode Config.params .idle .pullReq = .ok .pull ∧
    decode Config.params .hdr (.src 0 0x41) = .ok (.srcByteHdr 0x41) ∧ decode Config.params .pay (.src 0 0x41) = .ok (.srcBytePay 0x41) ∧
    decode Config.params .hdr (.src 1 0x41) = .ok .srcEoiHdr ∧ decode Config.params .pay (.src 1 0) = .ok .srcEoiPay ∧
    decode Config.params .hdr (.src 2 0) = .ok .srcFailHdr ∧ decode Config.params .pay (.src 2 0x41) = .ok .srcFailPay ∧
    decode Config.params .pay (.src 3 0) = .ok .srcRsvd := by decide

/-- The reference functions have no bits; the call names them (R89, R190). -/
theorem test_decode_calls :
    decode Config.params .idle (.call (.hexEncode 14)) = .ok (.hexenc 14) ∧
    decode Config.params .idle (.call (.encodeLength 10)) = .ok (.encLength 10) ∧
    decode Config.params .idle (.call (.encodeFrame [1])) = .ok (.encFrame [1]) ∧
    decode Config.params .idle (.call .encodeFlush) = .ok .encFlush ∧ decode Config.params .idle (.call .encodeDelim) = .ok .encDelim ∧
    decode Config.params .idle (.call .encodeResponseEnd) = .ok .encResponseEnd ∧
    decode Config.params .idle (.call (.encodeSideband 2 [9])) = .ok (.encSideband 2 [9]) := by decide

/-- The placed table word runs as the first instruction after reset (R77, R88). -/
theorem test_fetch_word_runs :
    step (State.reset.withFetchWord 32 0x30303031) = exec .delim State.reset ∧
    step (State.reset.withFetchWord 2 1) = exec .srcEoiHdr { State.reset with phase := .hdr } := ⟨rfl, rfl⟩

/-! ## Other parameters (R8; spec/91_not_in_source.md N5) -/

/-- With `MAX_DECLARED` = 65535 no header is over the maximum: "ffff" opens a payload of 65531 bytes, and `wellFormed`,
the decoder and the encoder take that instance's bound. -/
theorem test_widest_maximum_accepts_ffff :
    (nextState (exec (.srcByteHdr 0x66) { inHeader [0x66, 0x66, 0x66] with params := ⟨65535, 65535⟩ })).map
      (fun t => (t.phase, t.len, t.outValid)) = some (.pay, 65535, false) ∧
    (Instr.overmax hffff).wellFormed ⟨65535, 65535⟩ = false ∧
    encodeLength ⟨65535, 65535⟩ 65531 = some hffff ∧
    decode1 ⟨65535, 65535⟩ ⟨[0x66, 0x66, 0x66, 0x66], .eoi⟩ = some ⟨.truncated, [], ⟨[], .eoi⟩⟩ := by decide

/-- With `MAX_DECLARED` = `BUF_CAP` = 4, the least R8 allows, "0005" is over the maximum, the read port shows no
address above 3, and the encoder takes no payload. -/
theorem test_least_parameters :
    outcomeOf (exec (.srcByteHdr 0x35) { inHeader [0x30, 0x30, 0x30] with params := ⟨4, 4⟩ }) =
      some (.invalidLength, some [0x30, 0x30, 0x30, 0x35], 4) ∧
    ({ publishedZ with params := ⟨4, 4⟩ } : State).readPort 3 = some 0x35 ∧
    ({ publishedZ with params := ⟨4, 4⟩ } : State).readPort 4 = none ∧ publishedZ.readPort 4 = some 0x5a ∧
    exec (.encLength 1) (State.resetFor ⟨4, 4⟩) = .refused .encoderPreconditionViolation :=
  ⟨by decide, by decide, by decide, by decide, rfl⟩

/-! ## Whole frames -/

/-- V1. -/
theorem test_flush : outcomeOf (exec .flush State.reset) = some (.flush, some [], 4) := by decide
/-- V2. -/
theorem test_delim : outcomeOf (exec .delim State.reset) = some (.delim, some [], 4) := by decide
/-- V3. -/
theorem test_responseEnd : outcomeOf (exec .responseEnd State.reset) = some (.responseEnd, some [], 4) := by decide
/-- V4. -/
theorem test_rsvd3 :
    outcomeOf (exec .rsvd3 State.reset) = some (.invalidLength, some [0x30, 0x30, 0x30, 0x33], 4) := by decide
/-- V5. -/
theorem test_nonhex :
    outcomeOf (exec (.nonhex hDollar) State.reset) = some (.invalidLength, some [0x24, 0x24, 0x24, 0x24], 4) := by decide
/-- V72, and P4's `LEN` = 65521. -/
theorem test_overmax :
    outcomeOf (exec (.overmax hfff1) State.reset) = some (.invalidLength, some [0x66, 0x66, 0x66, 0x31], 4) ∧
    (nextState (exec (.overmax hfff1) State.reset)).map (fun t => t.len) = some 65521 := by decide
/-- V9. -/
theorem test_data_empty : outcomeOf (exec (.data h0004 []) State.reset) = some (.payload, some [], 4) := by decide
/-- V60, second pull: "abc" over "hello" leaves "0007abclo" in BUF. -/
theorem test_data_leaves_stale_bytes :
    (nextState (exec (.data h0007 [0x61, 0x62, 0x63])
      { State.reset with buf := Memory.writeAll [] 0 [0x30, 0x30, 0x30, 0x39, 0x68, 0x65, 0x6c, 0x6c, 0x6f] })).map
        (fun t => (t.view, t.buf.readRange 0 9, t.buf.readRange 4 5)) =
      some (some [0x61, 0x62, 0x63], some [0x30, 0x30, 0x30, 0x37, 0x61, 0x62, 0x63, 0x6c, 0x6f],
        some [0x61, 0x62, 0x63, 0x6c, 0x6f]) := by decide
/-- V8. -/
theorem test_errline :
    (nextState (exec (.errline ⟨0x30, 0x30, 0x31, 0x63⟩ [0x73, 0x6f, 0x6d, 0x65, 0x74, 0x68, 0x69, 0x6e, 0x67, 0x20,
      0x77, 0x65, 0x6e, 0x74, 0x20, 0x77, 0x72, 0x6f, 0x6e, 0x67]) State.reset)).map
        (fun t => (t.outKind, t.viewOff, t.viewLen, t.consumed)) = some (.errorLine, 8, 20, 28) := by decide
/-- V62. -/
theorem test_errline_empty_text :
    (nextState (exec (.errline h0008 []) State.reset)).map (fun t => (t.outKind, t.viewOff, t.viewLen, t.consumed)) =
      some (.errorLine, 8, 0, 8) := by decide

/-! ## Sideband messages -/

/-- V12. -/
theorem test_sbPack :
    answerOf (exec (.sbPack [0x50, 0x41, 0x43, 0x4b]) State.reset) = some (.sideband .pack [0x50, 0x41, 0x43, 0x4b]) := by
  decide
/-- V91. -/
theorem test_sbProgress :
    answerOf (exec (.sbProgress [0x35, 0x30, 0x25]) State.reset) = some (.sideband .progress [0x35, 0x30, 0x25]) := by
  decide
/-- V79's remainder: `FATAL` stops nothing. -/
theorem test_sbFatal :
    answerOf (exec (.sbFatal [0x45, 0x52, 0x52, 0x20]) State.reset) = some (.sideband .fatal [0x45, 0x52, 0x52, 0x20]) := by
  decide
/-- V14, V13. -/
theorem test_sbInvalid :
    answerOf (exec (.sbInvalid [0xff]) State.reset) = some (.sideband .invalid [0xff]) ∧
    answerOf (exec (.sbInvalid []) State.reset) = some (.sideband .invalid []) := by decide
/-- V97, V99, V101, V102: the outputs, gated on `PAYLOAD`. -/
theorem test_sideband_outputs :
    (nextState (exec (.data ⟨0x30, 0x30, 0x30, 0x39⟩ [0x01, 0x50, 0x41, 0x43, 0x4b]) State.reset)).map
      (fun t => t.sidebandOut) = some (some ⟨.pack, 5, 4⟩) ∧
    (nextState (exec (.errline ⟨0x30, 0x30, 0x30, 0x63⟩ [0x6f, 0x6f, 0x70, 0x73]) State.reset)).map
      (fun t => t.sidebandOut) = some (some ⟨.invalid, 8, 4⟩) ∧
    (nextState (exec .rsvd3 State.reset)).map (fun t => t.sidebandOut) = some (some ⟨.invalid, 0, 4⟩) ∧
    State.reset.sidebandOut = some ⟨.invalid, 0, 0⟩ := by decide

/-! ## Hex digits -/

/-- V21. -/
theorem test_hexdigDec : answerOf (exec (.hexdigDec 0x39) State.reset) = some (.nibble (some 9)) := by decide
/-- V24. -/
theorem test_hexdigUpper : answerOf (exec (.hexdigUpper 0x41) State.reset) = some (.nibble (some 10)) := by decide
/-- V23. -/
theorem test_hexdigLower : answerOf (exec (.hexdigLower 0x66) State.reset) = some (.nibble (some 15)) := by decide
/-- V26. -/
theorem test_hexdigNone : answerOf (exec (.hexdigNone 0x2f) State.reset) = some (.nibble none) := by decide
/-- V32, V34, V37, V39, V40. -/
theorem test_lenParse :
    lenParse ⟨0x30, 0x30, 0x30, 0x45⟩ = some 14 ∧ lenParse ⟨0x30, 0x30, 0x66, 0x46⟩ = some 255 ∧
    lenParse hFFF0 = some 65520 ∧ lenParse ⟨0x31, 0x32, 0x33, 0x34⟩ = some 4660 ∧
    lenParse ⟨0x30, 0x78, 0x31, 0x30⟩ = none ∧ lenParse ⟨0x30, 0x30, 0x20, 0x34⟩ = none := by decide

/-! ## Events: the trace of V130 -/

/-- Line 0, from a busy state (R240). -/
theorem test_reset :
    (nextState (exec .reset (inPayload h0005 5 []))).map (fun t => (t.phase, t.len, t.consumed, t.buf.read 3)) =
      some (.idle, 0, 0, some 0x35) := by decide
/-- Line 7: the stale kind and offset stay, the view's length goes. -/
theorem test_pull :
    (nextState (exec .pull publishedZ)).map
      (fun t => (t.phase, t.hcnt, t.outValid, t.viewOff, t.viewLen, t.outKind)) =
      some (.hdr, 0, false, 4, 0, .payload) := by decide
/-- Line 3. -/
theorem test_srcByteHdr :
    (nextState (exec (.srcByteHdr 0x30) (inHeader [0x30]))).map (fun t => (t.phase, t.hcnt, t.consumed, t.buf.read 1)) =
      some (.hdr, 2, 2, some 0x30) := by decide
/-- Line 5. -/
theorem test_srcByteHdr_completes :
    (nextState (exec (.srcByteHdr 0x35) (inHeader [0x30, 0x30, 0x30]))).map
      (fun t => (t.phase, t.hcnt, t.len, t.pcnt, t.outValid)) = some (.pay, 4, 5, 0, false) := by decide
/-- Line 6. -/
theorem test_srcBytePay_completes : nextState (exec (.srcBytePay 0x5a) (inPayload h0005 5 [])) = some publishedZ := by decide
/-- V64: the fourth byte of "ERR " must be a space. -/
theorem test_srcBytePay_err_is_exact :
    outcomeOf (exec (.srcBytePay 0x20) (inPayload h0008 8 [0x45, 0x52, 0x52])) = some (.errorLine, some [], 8) ∧
    outcomeOf (exec (.srcBytePay 0x0a) (inPayload h0008 8 [0x45, 0x52, 0x52])) =
      some (.payload, some [0x45, 0x52, 0x52, 0x0a], 8) := by decide
/-- V50. -/
theorem test_srcEoiHdr_clean : outcomeOf (exec .srcEoiHdr (inHeader [])) = some (.endOfInput, some [], 0) := by decide
/-- V54: truncation outranks the non-hex byte. -/
theorem test_srcEoiHdr_truncated :
    outcomeOf (exec .srcEoiHdr (inHeader [0x24, 0x24])) = some (.truncated, some [], 2) := by decide
/-- V57. -/
theorem test_srcEoiPay : outcomeOf (exec .srcEoiPay (inPayload h0005 5 [])) = some (.truncated, some [], 4) := by decide
/-- V51, V76. -/
theorem test_srcFailHdr :
    outcomeOf (exec .srcFailHdr (inHeader [])) = some (.sourceFailure, some [], 0) ∧
    outcomeOf (exec .srcFailHdr (inHeader [0x30, 0x30])) = some (.sourceFailure, some [], 2) := by decide
/-- V75. -/
theorem test_srcFailPay :
    outcomeOf (exec .srcFailPay (inPayload ⟨0x30, 0x30, 0x30, 0x39⟩ 9 [0x68, 0x65, 0x6c])) =
      some (.sourceFailure, some [], 7) := by decide
/-- R88. -/
theorem test_srcRsvd : exec .srcRsvd (inHeader []) = .refused .reservedSrcKind := rfl
/-- A `SRC` event between two decodes is not accepted (V130's last sentence). -/
theorem test_step_idle_takes_nothing :
    (nextState (step (withStream [0x30] .eoi [.src] publishedZ))).map (fun t => (t.source.bs, t.consumed, t.outValid)) =
      some ([0x30], 5, true) := by decide

/-! ## The whole-stream functions -/

/-- V83, V80, V84 and V85. -/
theorem test_outcomes :
    outcomes Config.params 5 ⟨[0x30, 0x30, 0x30, 0x30, 0x30, 0x30, 0x30, 0x31, 0x30, 0x30, 0x30, 0x32,
      0x30, 0x30, 0x30, 0x34], .eoi⟩ =
      [(.flush, []), (.delim, []), (.responseEnd, []), (.payload, []), (.endOfInput, [])] ∧
    outcomes Config.params 3 ⟨[0x30, 0x30, 0x30, 0x33, 0x30, 0x30, 0x30, 0x30], .eoi⟩ =
      [(.invalidLength, [0x30, 0x30, 0x30, 0x33]), (.flush, []), (.endOfInput, [])] ∧
    outcomes Config.params 3 ⟨[0x30, 0x30, 0x30, 0x36, 0x61, 0x62], .fail⟩ =
      [(.payload, [0x61, 0x62]), (.sourceFailure, []), (.sourceFailure, [])] ∧
    outcomes Config.params 2 ⟨[0x30, 0x30, 0x30, 0x34], .stall⟩ = [(.payload, [])] := by decide

/-! ## Encoder reference functions -/

/-- V110. -/
theorem test_hexenc :
    answerOf (exec (.hexenc 9) State.reset) = some (.bytes [0x39]) ∧
    answerOf (exec (.hexenc 10) State.reset) = some (.bytes [0x61]) := by decide
/-- V114, V115. -/
theorem test_encLength :
    answerOf (exec (.encLength 251) State.reset) = some (.bytes [0x30, 0x30, 0x66, 0x66]) ∧
    answerOf (exec (.encLength 4092) State.reset) = some (.bytes [0x31, 0x30, 0x30, 0x30]) := by decide
/-- V116, V117. -/
theorem test_encLength_limit :
    answerOf (exec (.encLength 65516) State.reset) = some (.bytes [0x66, 0x66, 0x66, 0x30]) ∧
    exec (.encLength 65517) State.reset = .refused .encoderPreconditionViolation := ⟨by decide, rfl⟩
/-- V11. -/
theorem test_encFrame :
    answerOf (exec (.encFrame [0x76, 0x65, 0x72, 0x73, 0x69, 0x6f, 0x6e, 0x20, 0x31, 0x0a]) State.reset) =
      some (.bytes [0x30, 0x30, 0x30, 0x65, 0x76, 0x65, 0x72, 0x73, 0x69, 0x6f, 0x6e, 0x20, 0x31, 0x0a]) := by decide
/-- V17. -/
theorem test_encControls :
    answerOf (exec .encFlush State.reset) = some (.bytes [0x30, 0x30, 0x30, 0x30]) ∧
    answerOf (exec .encDelim State.reset) = some (.bytes [0x30, 0x30, 0x30, 0x31]) ∧
    answerOf (exec .encResponseEnd State.reset) = some (.bytes [0x30, 0x30, 0x30, 0x32]) := by decide
/-- V120's inner call, and V122. -/
theorem test_encSideband :
    answerOf (exec (.encSideband 1 [0x50, 0x41, 0x43, 0x4b]) State.reset) =
      some (.bytes [0x01, 0x50, 0x41, 0x43, 0x4b]) ∧
    exec (.encSideband 0 [0x63]) State.reset = .refused .sidebandTagUndefined ∧
    exec (.encSideband 4 [0x63]) State.reset = .refused .sidebandTagUndefined := ⟨by decide, rfl, rfl⟩

/-! ## The states above meet the invariant -/

theorem inv_reset : Inv State.reset where
  paramsValid := by decide
  bufWf := rfl
  bufBelow := rfl
  hcntLe := by decide
  headerWritten := by decide
  inHdr := by decide
  inPay := by decide
  published := by intro h; cases h
  frameInBuf := by decide

/-- A busy state: "0005" has arrived. -/
theorem inv_inPayload : Inv (inPayload h0005 5 []) where
  paramsValid := by decide
  bufWf := by decide
  bufBelow := by decide
  hcntLe := by decide
  headerWritten := by decide
  inHdr := by decide
  inPay := by decide
  published := by intro h; cases h
  frameInBuf := by decide

/-- An idle state with an outcome, with any source and moves. -/
theorem inv_publishedZ (bs : List Byte) (t : Terminator) (ms : List Move) : Inv (withStream bs t ms publishedZ) where
  paramsValid := by show Config.params.Valid; decide
  bufWf := rfl
  bufBelow := rfl
  hcntLe := by show (4 : BitVec 3).toNat ≤ 4; decide
  headerWritten := by show Written publishedZ.buf 0 4; decide
  inHdr := by intro h; cases h
  inPay := by intro h; cases h
  published := fun _ => ⟨rfl, by show 4 + 1 ≤ 65520; decide, rfl, by show Written publishedZ.buf 4 1; decide⟩
  frameInBuf := fun _ _ => ⟨rfl, rfl, by show publishedZ.buf.header.bind lenParse = some 5; decide⟩

/-! ## Witnesses: for every obligation with hypotheses, a state and operands that meet them. Every state built above
has the parameters of `State.reset`, unless it says otherwise. -/

theorem witness_ResetStateMeetsTheInvariant : Params.Valid ⟨4, 4⟩ ∧ Params.Valid ⟨65535, 65535⟩ := by decide

theorem witness_NoStepChangesTheParameters :
    (nextState (step (withStream [0x30] .eoi [.src] { inHeader [] with params := ⟨4, 4⟩ }))).map (fun t => t.params) =
      some ⟨4, 4⟩ ∧
    (nextState (step (withStream [] .eoi [.rst] { inHeader [] with params := ⟨4, 4⟩ }))).map (fun t => t.params) =
      some ⟨4, 4⟩ := by decide

theorem witness_DecodeOfEncodeIsTheInstruction :
    Config.params.Valid ∧
    ((Instr.data h0005 [0x5a]).wellFormed Config.params = true ∧ (Instr.data h0005 [0x5a]).fitsPhase .idle = true) ∧
    (Params.Valid ⟨65535, 65535⟩ ∧ (Instr.overmax hffff).wellFormed ⟨65535, 65535⟩ = false ∧
      (Instr.nonhex hDollar).wellFormed ⟨65535, 65535⟩ = true ∧ (Instr.nonhex hDollar).fitsPhase .pay = true) ∧
    ((Instr.srcBytePay 0xff).wellFormed Config.params = true ∧ (Instr.srcBytePay 0xff).fitsPhase .pay = true) := by decide

theorem witness_DecodedInstructionEncodesBack :
    decode Config.params .hdr (.src 1 0x77) = .ok .srcEoiHdr ∧ decode Config.params .idle (.frame [0x30, 0x30, 0x30, 0x34]) = .ok (.data h0004 []) := by
  decide

theorem witness_FrameDecodingSplitsTheStreamExactly :
    Config.params.Valid ∧
    decodeFrame Config.params [0x30, 0x30, 0x30, 0x35, 0x5a, 0x30] = .ok (.data h0005 [0x5a], [0x30]) ∧
    (Instr.data h0005 [0x5a]).format = .h ∧ (Instr.data h0005 [0x5a]).wellFormed Config.params = true ∧
    [0x30, 0x30, 0x30, 0x35, 0x5a, 0x30] = wireBytes (.data h0005 [0x5a]) ++ [0x30] := by decide

/-- The boundary table of R130. -/
theorem witness_EveryHeaderIsInTheClassOfItsValue :
    Config.params.Valid ∧
    classify Config.params (lenParse hDollar) = .nonhex ∧ classify Config.params (lenParse h0004) = .data 0 ∧
    classify Config.params (lenParse hfff0) = .data 65516 ∧ classify Config.params (lenParse hfff1) = .overmax ∧
    classify Config.params (lenParse hffff) = .overmax ∧
    Params.Valid ⟨65535, 65535⟩ ∧ classify ⟨65535, 65535⟩ (lenParse hffff) = .data 65531 := by decide

/-- Each clause at both ends of its range (V20 to V26). -/
theorem witness_HexDecodeOfEveryByte :
    hexDecode 0x30 = some 0 ∧ hexDecode 0x39 = some 9 ∧ hexDecode 0x61 = some 10 ∧ hexDecode 0x66 = some 15 ∧
    hexDecode 0x41 = some 10 ∧ hexDecode 0x46 = some 15 ∧ hexDecode 0x2f = none ∧ hexDecode 0x3a = none ∧
    hexDecode 0x40 = none ∧ hexDecode 0x47 = none ∧ hexDecode 0x60 = none ∧ hexDecode 0x67 = none := by decide

theorem witness_LengthFieldValueAllOrNothing :
    (hexDecode 0x66 = some 15 ∧ hexDecode 0x30 = some 0 ∧ lenParse hffff = some 65535) ∧
    (hexDecode 0x24 = none ∧ lenParse hDollar = none) := by decide

/-- Each clause at both ends of its range. -/
theorem witness_HexDigitRowsReturnTheNibble :
    (0x30 ≤ (0x30 : Byte).toNat ∧ (0x39 : Byte).toNat ≤ 0x39) ∧ (0x41 ≤ (0x41 : Byte).toNat ∧ (0x46 : Byte).toNat ≤ 0x46) ∧
    (0x61 ≤ (0x61 : Byte).toNat ∧ (0x66 : Byte).toNat ≤ 0x66) ∧ isHexDigit 0x2f = false ∧ isHexDigit 0x67 = false := by
  decide

theorem witness_SidebandRowsReturnTagAndRemainder :
    (∀ b c, ([] : List Byte) = b :: c → b ≠ 1 ∧ b ≠ 2 ∧ b ≠ 3) ∧
    (∀ b c, ([0x04] : List Byte) = b :: c → b ≠ 1 ∧ b ≠ 2 ∧ b ≠ 3) := by
  refine ⟨fun b c h => by simp at h, fun b c h => ?_⟩
  simp only [List.cons.injEq] at h
  rw [← h.1]; decide

theorem witness_SidebandDecodeInvertsEncode :
    Tag.fatal ≠ Tag.invalid ∧ decodeSideband [0x02, 0x25] = (.progress, [0x25]) ∧ Tag.progress ≠ Tag.invalid := by decide

theorem witness_SidebandEncoderPrependsOrRefuses :
    ((3 : Byte) = 1 ∨ (3 : Byte) = 2 ∨ (3 : Byte) = 3) ∧ ((4 : Byte) ≠ 1 ∧ (4 : Byte) ≠ 2 ∧ (4 : Byte) ≠ 3) := by decide

theorem witness_EncoderReturnsPrefixAndPayload :
    State.reset.params.Valid ∧ 65516 ≤ State.reset.params.maxPayloadEnc ∧
    (List.replicate 65516 (0x71 : Byte)).length ≤ State.reset.params.maxPayloadEnc :=
  ⟨by decide, by decide, by rw [List.length_replicate]; decide⟩

theorem witness_EncoderRefusesAboveTheMaximum :
    State.reset.params.maxPayloadEnc < 65517 ∧
    State.reset.params.maxPayloadEnc < (List.replicate 65517 (0x71 : Byte)).length :=
  ⟨by decide, by rw [List.length_replicate]; decide⟩

theorem witness_LengthFieldRoundTrip : Config.params.Valid ∧ 65516 ≤ Config.params.maxPayloadEnc := by decide

theorem witness_EncodedFrameKeepsTheFrameInvariant :
    Config.params.Valid ∧ encodeFrame Config.params [0x5a] = some [0x30, 0x30, 0x30, 0x35, 0x5a] := by decide

theorem witness_FrameRoundTripThroughDecode1 :
    Config.params.Valid ∧ ([0x65, 0x72, 0x72, 0x20] : List Byte).length ≤ Config.params.maxPayloadEnc ∧
    ([0x65, 0x72, 0x72, 0x20] : List Byte).take 4 ≠ [0x45, 0x52, 0x52, 0x20] ∧
    ([0x45, 0x52, 0x52, 0x20] : List Byte).take 4 = [0x45, 0x52, 0x52, 0x20] := by decide

theorem witness_PullOpensADecode : State.reset.phase = .idle := rfl

theorem witness_UnacceptedEventsChangeNothing :
    (inHeader []).phase ≠ .idle ∧ State.reset.phase ≠ .hdr ∧ (inHeader []).phase ≠ .pay ∧
    (State.reset.phase = .idle ∧ (withStream [0x30] .eoi [.src] State.reset).moves = .src :: []) ∧
    ((inHeader []).phase ≠ .idle ∧ (withStream [] .stall [.pull] (inHeader [])).moves = .pull :: []) := by decide

theorem witness_HeaderByteIsStoredAtHcnt :
    ((inHeader []).params.Valid ∧ (inHeader []).phase = .hdr ∧ (inHeader []).hcnt.toNat < 3) ∧
    ((inHeader [0x30, 0x30]).params.Valid ∧ (inHeader [0x30, 0x30]).phase = .hdr ∧ (inHeader [0x30, 0x30]).hcnt.toNat = 2) := by decide

/-- One state, and a fourth byte for each clause; the values of the other clauses are those of R130. -/
theorem witness_FourthHeaderByteCompletesTheHeader :
    (inHeader [0x30, 0x30, 0x30]).params.Valid ∧
    ((inHeader [0x30, 0x30, 0x30]).phase = .hdr ∧ (inHeader [0x30, 0x30, 0x30]).hcnt = 3 ∧
      (inHeader [0x30, 0x30, 0x30]).buf.read 0 = some 0x30 ∧ (inHeader [0x30, 0x30, 0x30]).buf.read 1 = some 0x30 ∧
      (inHeader [0x30, 0x30, 0x30]).buf.read 2 = some 0x30) ∧
    lenParse ⟨0x30, 0x30, 0x30, 0x24⟩ = none ∧ lenParse ⟨0x30, 0x30, 0x30, 0x30⟩ = some 0 ∧
    lenParse ⟨0x30, 0x30, 0x30, 0x31⟩ = some 1 ∧ lenParse ⟨0x30, 0x30, 0x30, 0x32⟩ = some 2 ∧
    lenParse ⟨0x30, 0x30, 0x30, 0x33⟩ = some 3 ∧ lenParse ⟨0x30, 0x30, 0x30, 0x34⟩ = some 4 ∧
    lenParse ⟨0x30, 0x30, 0x30, 0x35⟩ = some 5 ∧ lenParse hfff0 = some 65520 ∧ lenParse hfff1 = some 65521 ∧
    (inHeader [0x66, 0x66, 0x66]).hcnt = 3 ∧ (inHeader [0x66, 0x66, 0x66]).buf.read 2 = some 0x66 := by decide

/-- The least frame with two payload bytes, and the greatest frame with one byte to spare. -/
theorem witness_PayloadByteIsStoredAfterTheHeader :
    (let s := inPayload ⟨0x30, 0x30, 0x30, 0x36⟩ 6 []
     s.params.Valid ∧ s.phase = .pay ∧ s.len.toNat ≤ s.params.maxDeclared ∧ s.pcnt.toNat + 5 < s.len.toNat) ∧
    (let s := { inPayload hfff0 65520 [] with pcnt := 65514 }
     s.params.Valid ∧ s.phase = .pay ∧ s.len.toNat ≤ s.params.maxDeclared ∧ s.pcnt.toNat + 5 < s.len.toNat) ∧
    (let s := { inPayload hffff 65535 [] with pcnt := 65529, params := ⟨65535, 65535⟩ }
     s.params.Valid ∧ s.phase = .pay ∧ s.len.toNat ≤ s.params.maxDeclared ∧ s.pcnt.toNat + 5 < s.len.toNat) := by decide

theorem witness_LastPayloadBytePublishesAfterTheErrTest :
    (let s := inPayload h0007 7 [0x45, 0x52]
     s.params.Valid ∧ s.phase = .pay ∧ s.len.toNat ≤ s.params.maxDeclared ∧ s.pcnt.toNat + 5 = s.len.toNat ∧
     s.len.toNat < 8) ∧
    (let s := inPayload h0008 8 [0x45, 0x52, 0x52]
     s.params.Valid ∧ s.phase = .pay ∧ s.len.toNat ≤ s.params.maxDeclared ∧ s.pcnt.toNat + 5 = s.len.toNat ∧ 8 ≤ s.len.toNat ∧
     (s.buf.write (4 + s.pcnt.toNat) 0x20).readRange 4 4 = some [0x45, 0x52, 0x52, 0x20] ∧
     (s.buf.write (4 + s.pcnt.toNat) 0x0a).readRange 4 4 = some [0x45, 0x52, 0x52, 0x0a]) := by decide

theorem witness_SourceEndInTheHeader :
    ((inHeader []).phase = .hdr ∧ (inHeader []).hcnt = 0) ∧
    ((inHeader [0x30]).phase = .hdr ∧ (inHeader [0x30]).hcnt ≠ 0) ∧
    ((inHeader [0x30, 0x30, 0x30]).phase = .hdr ∧ (inHeader [0x30, 0x30, 0x30]).hcnt ≠ 0) := by decide

theorem witness_SourceEndInThePayload : (inPayload h0005 5 []).phase = .pay := by decide

theorem witness_SourceKindCodesAndTheReservedKind :
    (withStream [] .stall [.present 3 0x41] State.reset).moves = .present 3 0x41 :: [] := by decide

theorem witness_ByteEventsStoreOneByteAndNothingElse :
    ((inHeader []).phase = .hdr ∧ (nextState (exec (.srcByteHdr 0x30) (inHeader []))).isSome = true) ∧
    ((inPayload h0005 5 []).phase = .pay ∧ (nextState (exec (.srcBytePay 0x5a) (inPayload h0005 5 []))).isSome = true) ∧
    ((inHeader []).hcnt ≠ 3 ∧ ((inPayload h0008 8 []).pcnt + 1).toNat + 4 ≠ (inPayload h0008 8 []).len.toNat) := by decide

theorem witness_OtherEventsLeaveBufAndTheRestAlone :
    Instr.pull ∈ [Instr.reset, .pull, .srcEoiHdr, .srcEoiPay, .srcFailHdr, .srcFailPay] ∧
    (nextState (exec .pull publishedZ)).isSome = true ∧ Instr.pull ≠ Instr.reset ∧
    Instr.srcFailPay ∈ [Instr.reset, .pull, .srcEoiHdr, .srcEoiPay, .srcFailHdr, .srcFailPay] ∧
    (nextState (exec .srcFailPay (inPayload h0005 5 []))).isSome = true := by decide

theorem witness_ControlFramesGiveTheirSignal : publishedZ.params.Valid ∧ publishedZ.phase = .idle := by decide

theorem witness_InvalidHeadersCarryTheRawBytes :
    publishedZ.params.Valid ∧ publishedZ.phase = .idle ∧
    (lenParse hfff1 = some 65521 ∧ publishedZ.params.maxDeclared < (65521 : Word16).toNat) ∧
    (lenParse hffff = some 65535 ∧ publishedZ.params.maxDeclared < (65535 : Word16).toNat) ∧ lenParse hDollar = none := by decide

theorem witness_DataFrameGivesItsPayload :
    (State.reset.params.Valid ∧ State.reset.phase = .idle ∧
      lenParse h0004 = some 4 ∧ ([] : List Byte).length + 4 = (4 : Word16).toNat ∧
      (4 : Word16).toNat ≤ State.reset.params.maxDeclared ∧ ([] : List Byte).take 4 ≠ [0x45, 0x52, 0x52, 0x20]) ∧
    (lenParse hfff0 = some 65520 ∧ (65520 : Word16).toNat ≤ State.reset.params.maxDeclared ∧
      (List.replicate 65516 (0x71 : Byte)).length + 4 = (65520 : Word16).toNat ∧
      (List.replicate 65516 (0x71 : Byte)).take 4 ≠ [0x45, 0x52, 0x52, 0x20]) := by
  refine ⟨by decide, by decide, by decide, by rw [List.length_replicate]; rfl, ?_⟩
  rw [List.take_replicate]; decide

theorem witness_ErrorLineGivesItsText :
    State.reset.params.Valid ∧ State.reset.phase = .idle ∧
    lenParse h0008 = some 8 ∧ ([] : List Byte).length + 8 = (8 : Word16).toNat ∧
    (8 : Word16).toNat ≤ State.reset.params.maxDeclared := by decide

theorem witness_DecodeCallWhileBusyIsIgnored :
    (inHeader [0x30]).phase ≠ .idle ∧ (Instr.data h0004 []).format = .h ∧
    (Instr.data h0004 []).wellFormed (inHeader [0x30]).params = true := by
  decide

theorem witness_InvalidCauseIsInTheRawBytes :
    State.reset.params.Valid ∧ State.reset.phase = .idle ∧ (nextState (exec .rsvd3 State.reset)).isSome = true ∧
    (nextState (exec (.overmax hfff1) State.reset)).isSome = true ∧
    (nextState (exec (.nonhex hDollar) State.reset)).isSome = true := by decide

/-- One state for each clause, in the order of the statement. -/
theorem witness_StepRunsTheDecodedInstruction :
    ((withStream [0x30] .eoi [.src] (inHeader [])).moves = .src :: [] ∧
      (withStream [0x30] .eoi [.src] (inHeader [])).source.next = some (0, 0x30, ⟨[], .eoi⟩) ∧
      decode Config.params (inHeader []).phase (.src 0 0x30) = .ok (.srcByteHdr 0x30)) ∧
    ((withStream [] .eoi [.present 2 0] (inHeader [])).moves = .present 2 0 :: [] ∧
      decode Config.params (inHeader []).phase (.src 2 0) = .ok .srcFailHdr) ∧
    ((withStream [0x30, 0x30, 0x30, 0x30] .eoi [.call] State.reset).moves = .call :: [] ∧
      State.reset.phase = .idle ∧ decodeFrame Config.params [0x30, 0x30, 0x30, 0x30] = .ok (.flush, [])) ∧
    decodeFrame Config.params [0x30] = .error .shortHeader ∧ (inHeader []).phase ≠ .idle ∧
    (withStream [] .eoi [.rst] State.reset).moves = .rst :: [] ∧
    (withStream [] .eoi [.pull] State.reset).moves = .pull :: [] ∧
    ((withStream [] .eoi [.demux [1]] State.reset).moves = .demux [1] :: [] ∧
      decode Config.params .idle (.message [1]) = .ok (.sbPack [])) ∧
    ((withStream [] .eoi [.digit 0x39] State.reset).moves = .digit 0x39 :: [] ∧
      decode Config.params .idle (.digit 0x39) = .ok (.hexdigDec 0x39)) ∧
    ((withStream [] .eoi [.ref .encodeFlush] State.reset).moves = .ref .encodeFlush :: [] ∧
      decode Config.params .idle (.call .encodeFlush) = .ok .encFlush) := by decide

theorem witness_WithoutAnEventTheScannerWaits :
    State.reset.moves = [] ∧ (withStream [] .stall [.src] (inHeader [])).moves = .src :: [] ∧
    (withStream [] .stall [.src] (inHeader [])).source = ⟨[], .stall⟩ := by decide

theorem witness_PlacedTableWordIsRunNext :
    decodeTableWord 32 0x30303030 = some .flush ∧ decodeTableWord 8 3 = some (.sbFatal []) ∧
    decodeTableWord 2 2 = some .srcFailHdr ∧ State.reset.params = Config.params ∧
    decodeTableWordFor (State.resetFor ⟨65535, 65535⟩).params 8 3 = some (.sbFatal []) := by decide

theorem witness_EveryStepKeepsTheInvariant :
    Inv (withStream [0x30] .eoi [.pull] publishedZ) ∧
    step (withStream [0x30] .eoi [.pull] publishedZ) = .next (startDecode (withStream [0x30] .eoi [] publishedZ)) :=
  ⟨inv_publishedZ _ _ _, rfl⟩

theorem witness_NoFaultUnderTheInvariant : Inv State.reset ∧ Inv (inPayload h0005 5 []) := ⟨inv_reset, inv_inPayload⟩

theorem witness_PublishedOutcomeStandsUntilTheNextPull :
    Inv (withStream [0x30] .eoi [.src] publishedZ) ∧ (withStream [0x30] .eoi [.src] publishedZ).outValid = true ∧
    (withStream [0x30] .eoi [.src] publishedZ).moves = .src :: [] ∧ Move.src ≠ .pull ∧ Move.src ≠ .call ∧ Move.src ≠ .rst ∧
    step (withStream [0x30] .eoi [.src] publishedZ) = .next (withStream [0x30] .eoi [] publishedZ) :=
  ⟨inv_publishedZ _ _ _, rfl, rfl, by decide, by decide, by decide, rfl⟩

theorem witness_OutKindChangesOnlyWithAnOutcome :
    (nextState (step (withStream [] .eoi [.src] (inHeader [])))).map (fun t => t.outKind) = some .endOfInput ∧
    (withStream [] .eoi [.src] (inHeader [])).outKind = .flush := by decide

theorem witness_ConsumedCountsTheBytesTaken :
    (withStream [0x30] .eoi [.src] (inHeader [])).moves = .src :: [] ∧
    (nextState (step (withStream [0x30] .eoi [.src] (inHeader [])))).isSome = true ∧
    (nextState (step (withStream [0x30, 0x30, 0x30, 0x30] .eoi [.call] State.reset))).isSome = true ∧
    (nextState (step (withStream [0x30] .eoi [.pull] State.reset))).isSome = true := by decide

/-- Each clause at a boundary address. -/
theorem witness_ReadPortShowsTheLastByteWritten :
    (publishedZ.phase = .idle ∧ (0 : BitVec 16).toNat < publishedZ.params.bufCap ∧ publishedZ.buf.read 0 = some 0x30) ∧
    publishedZ.buf.read 5 = none ∧ (inHeader [0x30]).phase ≠ .idle ∧
    (publishedZ.params.bufCap ≤ (65524 : BitVec 16).toNat ∧ publishedZ.params.bufCap ≤ (65535 : BitVec 16).toNat) := by decide

theorem witness_RawIsTheHeaderInBuf :
    Inv (withStream [] .eoi [] publishedZ) ∧ publishedZ.outValid = true ∧ publishedZ.hcnt = 4 :=
  ⟨inv_publishedZ _ _ _, rfl, rfl⟩

theorem witness_SidebandOutputsReadTheView :
    (Inv (withStream [] .eoi [] publishedZ) ∧ publishedZ.outValid = true ∧ publishedZ.outKind = .payload) ∧
    (Inv State.reset ∧ State.reset.outValid = false) := ⟨⟨inv_publishedZ _ _ _, rfl, rfl⟩, inv_reset, rfl⟩

theorem witness_EachOutcomeConsumesItsBytes :
    decode1 Config.params ⟨[0x30, 0x30, 0x30, 0x35, 0x5a, 0x30], .eoi⟩ = some ⟨.payload, [0x5a], ⟨[0x30], .eoi⟩⟩ ∧
    decode1 Config.params ⟨[0x30, 0x30, 0x30], .eoi⟩ = some ⟨.truncated, [], ⟨[], .eoi⟩⟩ ∧
    decode1 Config.params ⟨[], .fail⟩ = some ⟨.sourceFailure, [], ⟨[], .fail⟩⟩ ∧
    decode1 Config.params ⟨[], .eoi⟩ = some ⟨.endOfInput, [], ⟨[], .eoi⟩⟩ := by decide

theorem witness_EventsAgreeWithDecode1 :
    (let s := withStream [0x30, 0x30, 0x30, 0x35, 0x5a] .eoi (.pull :: List.replicate 5 .src) publishedZ
     s.params.Valid ∧ s.phase = .idle ∧ decode1 s.params s.source = some ⟨.payload, [0x5a], ⟨[], .eoi⟩⟩ ∧
     s.moves = .pull :: (List.replicate (eventsOf s.source ⟨.payload, [0x5a], ⟨[], .eoi⟩⟩) .src ++ [])) ∧
    (let s := withStream [0x30] .stall (.pull :: List.replicate 3 .src) publishedZ
     s.params.Valid ∧ s.phase = .idle ∧ decode1 s.params s.source = none ∧
     s.moves = .pull :: (List.replicate (s.source.bs.length + 2) .src ++ [])) := by decide

theorem witness_WholeFrameEqualsItsEvents :
    (let s := withStream [0x30, 0x30, 0x30, 0x35, 0x5a] .eoi (.pull :: List.replicate 5 .src) State.reset
     s.params.Valid ∧ s.phase = .idle ∧ (Instr.data h0005 [0x5a]).format = .h ∧
     (Instr.data h0005 [0x5a]).wellFormed s.params = true ∧
     s.source.bs = wireBytes (.data h0005 [0x5a]) ++ [] ∧
     s.moves = .pull :: (List.replicate (wireBytes (.data h0005 [0x5a])).length .src ++ [])) := by decide

theorem witness_DecodeDependsOnlyOnTheSource :
    (let s1 := withStream [0x30] .eoi (.pull :: List.replicate 2 .src) State.reset
     let s2 := withStream [0x30] .eoi (.pull :: List.replicate 2 .src) publishedZ
     s1.params.Valid ∧ s1.params = s2.params ∧ s1.phase = .idle ∧ s2.phase = .idle ∧ s1.source = s2.source ∧ s1.moves = .pull :: List.replicate 2 .src ∧
     s2.moves = s1.moves) := by decide

theorem witness_ExhaustedSourceRepeatsItsCondition :
    (let s := withStream [] .eoi [.pull, .src] publishedZ
     s.phase = .idle ∧ s.moves = .pull :: .src :: [] ∧ s.source = ⟨[], .eoi⟩) ∧
    (withStream [] .fail [.pull, .src] publishedZ).source = ⟨[], .fail⟩ := by decide

end Sys2Proof.Tests
end

section
/-! What a fetch leaves alone, what each move comes to, and the instruction a step runs (R11, R39, R57). -/

namespace Sys2Proof.Machine

/-- The state a fetch hands on, whether an instruction runs in it or not. -/
def Fetched.state : Fetched → State
  | .run _ t => t
  | .quiet t => t

@[simp] theorem Fetched.state_run (i : Instr) (t : State) : (Fetched.run i t).state = t := rfl
@[simp] theorem Fetched.state_quiet (t : State) : (Fetched.quiet t).state = t := rfl

/-! ## A signal -/

theorem fetchSignal_ok {g : Signal} {taken : State} {i : Instr} (h : decode taken.params taken.phase g = .ok i)
    (unchanged : State) : fetchSignal g taken unchanged = .run i taken := by
  simp [fetchSignal, h]

theorem fetchSignal_error {g : Signal} {taken : State} {e : DecodeError}
    (h : decode taken.params taken.phase g = .error e) (unchanged : State) :
    fetchSignal g taken unchanged = .quiet unchanged := by
  simp [fetchSignal, h]

@[simp] theorem fetchSignal_pullReq (s t : State) : fetchSignal .pullReq s t = .run .pull s := rfl

/-- A signal that is not taken from the source hands on the state it found, accepted or not. -/
@[simp] theorem fetchSignal_state_self (g : Signal) (s : State) : (fetchSignal g s s).state = s := by
  cases h : decode s.params s.phase g with
  | ok i => rw [fetchSignal_ok h]; rfl
  | error e => rw [fetchSignal_error h]; rfl

/-! ## A move -/

@[simp] theorem fetchMove_rst (s : State) : fetchMove .rst s = .run .reset s := rfl
@[simp] theorem fetchMove_pull (s : State) : fetchMove .pull s = .run .pull s := rfl
@[simp] theorem fetchMove_present (k : BitVec 2) (d : Byte) (s : State) :
    fetchMove (.present k d) s = fetchSignal (.src k d) s s := rfl
@[simp] theorem fetchMove_attach (src : Source) (s : State) :
    fetchMove (.attach src) s = .quiet { s with source := src } := rfl
@[simp] theorem fetchMove_demux (p : List Byte) (s : State) :
    fetchMove (.demux p) s = fetchSignal (.message p) s s := rfl
@[simp] theorem fetchMove_digit (b : Byte) (s : State) : fetchMove (.digit b) s = fetchSignal (.digit b) s s := rfl
@[simp] theorem fetchMove_ref (f : RefCall) (s : State) : fetchMove (.ref f) s = fetchSignal (.call f) s s := rfl

theorem fetchMove_src_some {s : State} {k : BitVec 2} {d : Byte} {rest : Source}
    (h : s.source.next = some (k, d, rest)) :
    fetchMove .src s = fetchSignal (.src k d) { s with source := rest } s := by
  simp [fetchMove, h]

theorem fetchMove_src_ok {s : State} {k : BitVec 2} {d : Byte} {rest : Source} {i : Instr}
    (hn : s.source.next = some (k, d, rest)) (hd : decode s.params s.phase (.src k d) = .ok i) :
    fetchMove .src s = .run i { s with source := rest } :=
  (fetchMove_src_some hn).trans (fetchSignal_ok (by exact hd) s)

/-- A symbol that the phase does not accept stays in the source. -/
theorem fetchMove_src_error {s : State} {k : BitVec 2} {d : Byte} {rest : Source} {e : DecodeError}
    (hn : s.source.next = some (k, d, rest)) (hd : decode s.params s.phase (.src k d) = .error e) :
    fetchMove .src s = .quiet s :=
  (fetchMove_src_some hn).trans (fetchSignal_error (by exact hd) s)

theorem fetchMove_src_none {s : State} (h : s.source.next = none) : fetchMove .src s = .quiet s := by
  simp [fetchMove, h]

/-- A decode call on a whole frame runs the frame (R141). -/
theorem fetchMove_call_frame {s : State} {i : Instr} {rest : List Byte} (hp : s.phase = .idle)
    (h : decodeFrame s.params s.source.bs = .ok (i, rest)) :
    fetchMove .call s = .run i { s with source := ⟨rest, s.source.term⟩ } := by
  simp [fetchMove, hp, h]

/-- A decode call with no whole frame ready is a `PULL`, in every phase. -/
theorem fetchMove_call_noFrame {s : State} {e : DecodeError} (h : decodeFrame s.params s.source.bs = .error e) :
    fetchMove .call s = .run .pull s := by
  simp [fetchMove, h]

/-- A decode call while a decode is running is a `PULL`, whatever the source holds. -/
theorem fetchMove_call_busy {s : State} (hp : s.phase ≠ .idle) : fetchMove .call s = .run .pull s := by
  simp [fetchMove, hp]

/-- A move writes nothing but the source: a symbol or frame taken from it, or another one attached. -/
theorem fetchMove_state (m : Move) (s : State) : ∃ src, (fetchMove m s).state = { s with source := src } := by
  cases m with
  | rst | pull | present | demux | digit | ref => exact ⟨s.source, by simp⟩
  | attach src => exact ⟨src, rfl⟩
  | src =>
    cases hn : s.source.next with
    | none => exact ⟨s.source, by simp [fetchMove_src_none hn]⟩
    | some x =>
      obtain ⟨k, d, rest⟩ := x
      cases hd : decode s.params s.phase (.src k d) with
      | ok i => exact ⟨rest, by rw [fetchMove_src_ok hn hd]; rfl⟩
      | error e => exact ⟨s.source, by rw [fetchMove_src_error hn hd]; rfl⟩
  | call =>
    by_cases hp : s.phase = .idle
    · cases hd : decodeFrame s.params s.source.bs with
      | ok x => exact ⟨⟨x.2, s.source.term⟩, by rw [fetchMove_call_frame hp hd]; rfl⟩
      | error e => exact ⟨s.source, by rw [fetchMove_call_noFrame hd]; rfl⟩
    · exact ⟨s.source, by rw [fetchMove_call_busy hp]; rfl⟩

/-! ## A fetch and a step -/

theorem fetch_no_move {s : State} (h : s.moves = []) : fetch s = .quiet s := by simp [fetch, h]

theorem fetch_move {s : State} {m : Move} {ms : List Move} (h : s.moves = m :: ms) :
    fetch s = fetchMove m { s with moves := ms } := by
  simp [fetch, h]

/-- A fetch writes nothing but the environment's source and moves. -/
theorem fetch_state (s : State) : ∃ src ms, (fetch s).state = { s with source := src, moves := ms } := by
  cases hm : s.moves with
  | nil => exact ⟨s.source, s.moves, by rw [fetch_no_move hm]; rfl⟩
  | cons m ms =>
    obtain ⟨src, h⟩ := fetchMove_state m { s with moves := ms }
    exact ⟨src, ms, by rw [fetch_move hm, h]⟩

/-- The step on a move that runs an instruction. -/
theorem step_of_move_run {s t : State} {m : Move} {ms : List Move} {i : Instr} (hm : s.moves = m :: ms)
    (hr : fetchMove m { s with moves := ms } = .run i t) : step s = exec i t :=
  step_of_run ((fetch_move hm).trans hr)

/-- The step on a move that is a signal and takes nothing from the source. -/
theorem step_of_move_signal {s : State} {m : Move} {ms : List Move} {g : Signal} {i : Instr} (hm : s.moves = m :: ms)
    (hg : ∀ t, fetchMove m t = fetchSignal g t t) (hd : decode s.params s.phase g = .ok i) :
    step s = exec i { s with moves := ms } :=
  step_of_move_run hm ((hg _).trans (fetchSignal_ok (by exact hd) _))

end Sys2Proof.Machine
end

section
/-! The frame of every instruction in the fields that are not the scanner's: no instruction writes the parameters, the
source or the moves to come (R8, R35, R38). -/

namespace Sys2Proof.Machine

/-- The parameters, the source and the moves are those of `s`. -/
structure SameInputs (s t : State) : Prop where
  params : t.params = s.params
  source : t.source = s.source
  moves : t.moves = s.moves

theorem SameInputs.refl (s : State) : SameInputs s s := ⟨rfl, rfl, rfl⟩

theorem SameInputs.trans {s t u : State} (h : SameInputs s t) (h' : SameInputs t u) : SameInputs s u :=
  ⟨h'.params.trans h.params, h'.source.trans h.source, h'.moves.trans h.moves⟩

/-- A next state answered from `s`, if one is, keeps the inputs of `s`. -/
def KeepsInputs (s : State) (o : Result) : Prop := ∀ t, o = .next t → SameInputs s t

/-- What keeps the inputs of a state reached from `s` without writing them keeps those of `s`. -/
theorem KeepsInputs.of_same {s s' : State} {o : Result} (ho : KeepsInputs s' o) (h : SameInputs s s') :
    KeepsInputs s o :=
  fun t ht => h.trans (ho t ht)

/-! ## The shapes of an instruction's meaning -/

theorem keepsInputs_next {s t : State} (h : SameInputs s t) : KeepsInputs s (.next t) := by
  rintro _ ⟨⟩; exact h

theorem keepsInputs_fault (s : State) (r : Fault) : KeepsInputs s (.fault r) := nofun

theorem keepsInputs_refused (s : State) (r : Refusal) : KeepsInputs s (.refused r) := nofun

theorem keepsInputs_andThen {s : State} {o : Result} {f : State → Result} (ho : KeepsInputs s o)
    (hf : ∀ t, KeepsInputs t (f t)) : KeepsInputs s (andThen o f) := by
  intro u hu
  obtain ⟨t, ht, hfu⟩ := andThen_eq_next.1 hu
  exact (ho t ht).trans (hf t u hfu)

theorem keepsInputs_giveAnswer (r : Answer) (s : State) : KeepsInputs s (giveAnswer r s) :=
  keepsInputs_next ⟨rfl, rfl, rfl⟩

section
variable {f : State → Result} (hf : ∀ s, KeepsInputs s (f s))
include hf

theorem keepsInputs_whenPhase (ph : Phase) (s : State) : KeepsInputs s (whenPhase ph f s) := by
  by_cases h : s.phase = ph
  · rw [whenPhase_accepted h]; exact hf s
  · rw [whenPhase_refused h]; exact keepsInputs_next (.refl s)

theorem keepsInputs_whenIdle (s : State) : KeepsInputs s (whenIdle f s) := by
  by_cases h : s.phase = .idle
  · rw [whenIdle_idle h]; exact hf s
  · rw [whenIdle_busy h]; exact keepsInputs_next (.refl s)

theorem keepsInputs_whenWellFormed (i : Instr) (s : State) : KeepsInputs s (whenWellFormed i f s) := by
  cases h : i.wellFormed s.params with
  | true => rw [whenWellFormed_wf h]; exact hf s
  | false => rw [whenWellFormed_not h]; exact keepsInputs_refused s _

end

/-! ## The shared operations -/

theorem keepsInputs_memWrite (a : Nat) (b : Byte) (s : State) : KeepsInputs s (memWrite a b s) := by
  obtain ⟨-, h⟩ | ⟨-, h⟩ := memWrite_cases a b s <;> rw [h]
  · exact keepsInputs_next ⟨rfl, rfl, rfl⟩
  · exact keepsInputs_fault s _

theorem keepsInputs_storeBytes (a : Nat) (bs : List Byte) (s : State) : KeepsInputs s (storeBytes a bs s) := by
  induction bs generalizing a s with
  | nil => exact keepsInputs_next (.refl s)
  | cons b bs ih => exact keepsInputs_andThen (keepsInputs_memWrite a b s) (ih (a + 1))

theorem sameInputs_startDecode (s : State) : SameInputs s (startDecode s) := ⟨rfl, rfl, rfl⟩

theorem sameInputs_len (l : Word16) (s : State) : SameInputs s { s with len := l } := ⟨rfl, rfl, rfl⟩

theorem sameInputs_finish (k : OutKind) (off n : Word16) (s : State) : SameInputs s (finish k off n s) :=
  ⟨rfl, rfl, rfl⟩

theorem keepsInputs_takeHeader (h : Header) (s : State) : KeepsInputs s (takeHeader h s) :=
  keepsInputs_andThen ((keepsInputs_storeBytes 0 h.bytes (startDecode s)).of_same (sameInputs_startDecode s)) fun _ =>
    keepsInputs_next ⟨rfl, rfl, rfl⟩

theorem keepsInputs_takePayload (p : List Byte) (s : State) : KeepsInputs s (takePayload p s) :=
  keepsInputs_andThen (keepsInputs_storeBytes 4 p s) fun _ => keepsInputs_next ⟨rfl, rfl, rfl⟩

theorem sameInputs_raiseFailure (k : OutKind) (s : State) : SameInputs s (raiseFailure k s) := by
  cases k <;> exact ⟨rfl, rfl, rfl⟩

theorem keepsInputs_completeHeader (s : State) : KeepsInputs s (completeHeader s) := by
  obtain ⟨-, h⟩ | ⟨hd, -, h⟩ := completeHeader_cases s <;> rw [h]
  · exact keepsInputs_fault s _
  · obtain ⟨-, -, -, hp, hs, hm, -⟩ := afterHeader_frame (classify s.params (lenParse hd)) ((lenParse hd).getD 0) s
    exact keepsInputs_next ⟨hp, hs, hm⟩

theorem sameInputs_afterPayload (isErr : Bool) (s : State) : SameInputs s (afterPayload isErr s) := by
  obtain ⟨-, -, -, -, -, hp, hs, hm, -⟩ := afterPayload_frame isErr s
  exact ⟨hp, hs, hm⟩

theorem keepsInputs_completePayload (s : State) : KeepsInputs s (completePayload s) := by
  obtain h | h | ⟨-, -, h⟩ := completePayload_cases s <;> rw [h]
  · exact keepsInputs_fault s _
  · exact keepsInputs_next (sameInputs_afterPayload false s)
  · exact keepsInputs_next (sameInputs_afterPayload true s)

/-! ## The formats -/

/-- A whole frame without a payload: the header taken, then the end of its class (R121 to R127). -/
theorem keepsInputs_headerFrame {h : Header} {l off n : Word16} {k : OutKind} (s : State) :
    KeepsInputs s (whenIdle (fun s =>
      andThen (takeHeader h s) fun t => .next (finish k off n { t with len := l })) s) :=
  keepsInputs_whenIdle (fun s => keepsInputs_andThen (keepsInputs_takeHeader h s) fun t =>
    keepsInputs_next ((sameInputs_len l t).trans (sameInputs_finish k off n _))) s

/-- A whole frame with a payload: header and payload taken, then `Finish` (R159, R160). -/
theorem keepsInputs_payloadFrame {h : Header} {p : List Byte} {l off n : Word16} {k : OutKind} (s : State) :
    KeepsInputs s (whenIdle (fun s =>
      andThen (takeHeader h s) fun t =>
        andThen (takePayload p { t with len := l }) fun u => .next (finish k off n u)) s) :=
  keepsInputs_whenIdle (fun s => keepsInputs_andThen (keepsInputs_takeHeader h s) fun t =>
    keepsInputs_andThen ((keepsInputs_takePayload p { t with len := l }).of_same (sameInputs_len l t)) fun u =>
      keepsInputs_next (sameInputs_finish k off n u)) s

theorem keepsInputs_execPull (s : State) : KeepsInputs s (execPull s) :=
  keepsInputs_whenPhase (fun s => keepsInputs_next (sameInputs_startDecode s)) .idle s

theorem keepsInputs_execSrcByteHdr (b : Byte) (s : State) : KeepsInputs s (execSrcByteHdr b s) :=
  keepsInputs_whenPhase (fun s => keepsInputs_andThen (keepsInputs_memWrite s.hcnt.toNat b s) fun t => by
    dsimp only
    split
    · exact (keepsInputs_completeHeader _).of_same ⟨rfl, rfl, rfl⟩
    · exact keepsInputs_next ⟨rfl, rfl, rfl⟩) .hdr s

theorem keepsInputs_execSrcBytePay (b : Byte) (s : State) : KeepsInputs s (execSrcBytePay b s) :=
  keepsInputs_whenPhase (fun s => keepsInputs_andThen (keepsInputs_memWrite (4 + s.pcnt.toNat) b s) fun t => by
    dsimp only
    split
    · exact (keepsInputs_completePayload _).of_same ⟨rfl, rfl, rfl⟩
    · exact keepsInputs_next ⟨rfl, rfl, rfl⟩) .pay s

/-- A source end in a phase that takes source symbols: a failure is raised and nothing else happens (R145, R149). -/
theorem keepsInputs_sourceEnd (ph : Phase) (k : State → OutKind) (s : State) :
    KeepsInputs s (whenPhase ph (fun s => .next (raiseFailure (k s) s)) s) :=
  keepsInputs_whenPhase (fun s => keepsInputs_next (sameInputs_raiseFailure (k s) s)) ph s

/-- No instruction writes the parameters, the source or the moves; an encoder function answers its caller or refuses
the call. -/
theorem exec_keepsInputs (i : Instr) (s : State) : KeepsInputs s (exec i s) := by
  cases i with
  | flush | delim | responseEnd | rsvd3 => exact keepsInputs_headerFrame s
  | overmax | nonhex => exact keepsInputs_whenWellFormed keepsInputs_headerFrame _ s
  | data | errline => exact keepsInputs_whenWellFormed keepsInputs_payloadFrame _ s
  | sbPack | sbProgress | sbFatal | hexenc | encFlush | encDelim | encResponseEnd =>
    exact keepsInputs_giveAnswer _ s
  | sbInvalid | hexdigDec | hexdigUpper | hexdigLower | hexdigNone =>
    exact keepsInputs_whenWellFormed (keepsInputs_giveAnswer _) _ s
  | reset => exact keepsInputs_next ⟨rfl, rfl, rfl⟩
  | pull => exact keepsInputs_execPull s
  | srcByteHdr b => exact keepsInputs_execSrcByteHdr b s
  | srcBytePay b => exact keepsInputs_execSrcBytePay b s
  | srcEoiHdr => exact keepsInputs_sourceEnd .hdr (fun s => if s.hcnt = 0 then .endOfInput else .truncated) s
  | srcEoiPay => exact keepsInputs_sourceEnd .pay (fun _ => .truncated) s
  | srcFailHdr => exact keepsInputs_sourceEnd .hdr (fun _ => .sourceFailure) s
  | srcFailPay => exact keepsInputs_sourceEnd .pay (fun _ => .sourceFailure) s
  | srcRsvd => exact keepsInputs_refused s _
  | encLength | encFrame | encSideband =>
    simp only [exec, execEncLength, execEncFrame, execEncSideband]
    split
    · exact keepsInputs_giveAnswer _ s
    · exact keepsInputs_refused s _

/-- A step that answers a next state answers one with the inputs that the fetch left. -/
theorem step_sameInputs_fetch {s t : State} (h : step s = .next t) : SameInputs (fetch s).state t := by
  obtain ⟨u, hf, hs⟩ | ⟨i, u, hf, hs⟩ := step_cases s
  · rw [hf, Fetched.state_quiet]
    exact keepsInputs_next (.refl u) t (hs.symm.trans h)
  · rw [hf, Fetched.state_run]
    exact exec_keepsInputs i u t (hs.symm.trans h)

end Sys2Proof.Machine
end

section
/-! The statements of spec/00_scope.md. -/

namespace Sys2Proof.Machine

/-- Settles O56: a fetch writes only the source and the moves, and no instruction writes the parameters. -/
theorem noStepChangesTheParameters : Obligations.NoStepChangesTheParameters := by
  intro s t h
  obtain ⟨src, ms, hf⟩ := fetch_state s
  calc t.params = (fetch s).state.params := (step_sameInputs_fetch h).params
    _ = s.params := by rw [hf]

/-- Settles O38, one clause per move: what the move comes to is what the step runs. -/
theorem stepRunsTheDecodedInstruction : Obligations.StepRunsTheDecodedInstruction := by
  intro s ms
  refine ⟨?src, ?present, ?callFrame, ?callNoFrame, ?callBusy, ?rst, ?pull, ?demux, ?digit, ?ref⟩
  case src => exact fun k d rest i hm hn hd => step_of_move_run hm (fetchMove_src_ok hn hd)
  case present => exact fun k d i hm hd => step_of_move_signal hm (fetchMove_present k d) hd
  case callFrame => exact fun i rest hm hp hd => step_of_move_run hm (fetchMove_call_frame hp hd)
  case callNoFrame => exact fun e hm hd => step_of_move_run hm (fetchMove_call_noFrame hd)
  case callBusy => exact fun hm hp => step_of_move_run hm (fetchMove_call_busy hp)
  case rst => exact fun hm => step_of_move_run hm (fetchMove_rst _)
  case pull => exact fun hm => step_of_move_run hm (fetchMove_pull _)
  case demux => exact fun p i hm hd => step_of_move_signal hm (fetchMove_demux p) hd
  case digit => exact fun b i hm hd => step_of_move_signal hm (fetchMove_digit b) hd
  case ref => exact fun f i hm hd => step_of_move_signal hm (fetchMove_ref f) hd

/-- Settles O55: the parameters after reset are the document's, which meet R8's constraints. -/
theorem parametersAreTheDocumentsValues : Obligations.ParametersAreTheDocumentsValues :=
  ⟨params_maxDeclared, params_bufCap, params_maxPayloadEnc, params_valid⟩

end Sys2Proof.Machine
end

section
/-! What an instruction can do, said once: if it answers a next state, the state is one of those `Effect` lists
(spec/42_frame_scanner.md R142 to R150, spec/41_length_classifier.md R121 to R127, spec/60_exceptions.md R212). -/

namespace Sys2Proof.Machine

/-! ## What the shared operations answer -/

theorem whenPhase_eq_next {ph : Phase} {f : State → Result} {s t : State} (h : whenPhase ph f s = .next t) :
    (s.phase ≠ ph ∧ t = s) ∨ (s.phase = ph ∧ f s = .next t) := by
  by_cases hp : s.phase = ph
  · rw [whenPhase_accepted hp] at h; exact .inr ⟨hp, h⟩
  · rw [whenPhase_refused hp] at h; cases h; exact .inl ⟨hp, rfl⟩

theorem whenIdle_eq_next {f : State → Result} {s t : State} (h : whenIdle f s = .next t) :
    (s.phase ≠ .idle ∧ t = s) ∨ (s.phase = .idle ∧ f s = .next t) := by
  by_cases hp : s.phase = .idle
  · rw [whenIdle_idle hp] at h; exact .inr ⟨hp, h⟩
  · rw [whenIdle_busy hp] at h; cases h; exact .inl ⟨hp, rfl⟩

theorem whenWellFormed_eq_next {i : Instr} {f : State → Result} {s t : State} (h : whenWellFormed i f s = .next t) :
    i.wellFormed s.params = true ∧ f s = .next t := by
  cases hw : i.wellFormed s.params with
  | true => rw [whenWellFormed_wf hw] at h; exact ⟨rfl, h⟩
  | false => rw [whenWellFormed_not hw] at h; cases h

theorem memWrite_eq_next {a : Nat} {b : Byte} {s t : State} (h : memWrite a b s = .next t) :
    t = { s with buf := s.buf.write a b } := by
  obtain ⟨-, hw⟩ | ⟨-, hw⟩ := memWrite_cases a b s <;> rw [hw] at h <;> cases h
  rfl

theorem storeBytes_eq_next {a : Nat} {bs : List Byte} {s t : State} (h : storeBytes a bs s = .next t) :
    t = { s with buf := s.buf.writeAll a bs } := by
  induction bs generalizing a s with
  | nil => cases h; rfl
  | cons b bs ih =>
    obtain ⟨u, hu, ht⟩ := andThen_eq_next.1 h
    rw [ih ht, memWrite_eq_next hu]; rfl

theorem takeHeader_eq_next {hd : Header} {s t : State} (h : takeHeader hd s = .next t) : t = headerTaken hd s := by
  obtain ⟨u, hu, ht⟩ := andThen_eq_next.1 h
  cases ht
  rw [storeBytes_eq_next hu]; rfl

theorem takePayload_eq_next {p : List Byte} {s t : State} (h : takePayload p s = .next t) :
    t = { s with
      buf := s.buf.writeAll 4 p, pcnt := BitVec.ofNat 16 p.length, consumed := s.consumed + p.length } := by
  obtain ⟨u, hu, ht⟩ := andThen_eq_next.1 h
  cases ht
  rw [storeBytes_eq_next hu]

theorem completeHeader_eq_next {s t : State} (h : completeHeader s = .next t) :
    ∃ hd, s.buf.header = some hd ∧ t = afterHeader (classify s.params (lenParse hd)) ((lenParse hd).getD 0) s := by
  obtain ⟨-, hc⟩ | ⟨hd, hb, hc⟩ := completeHeader_cases s <;> rw [hc] at h <;> cases h
  exact ⟨hd, hb, rfl⟩

theorem completePayload_eq_next {s t : State} (h : completePayload s = .next t) :
    ∃ isErr, t = afterPayload isErr s ∧
      (isErr = true → 8 ≤ s.len.toNat ∧ s.buf.readRange 4 4 = some Config.errMagic) := by
  obtain hc | hc | ⟨h8, hq, hc⟩ := completePayload_cases s <;> rw [hc] at h <;> cases h
  · exact ⟨false, rfl, nofun⟩
  · exact ⟨true, rfl, fun _ => ⟨h8, hq⟩⟩

/-- A whole frame without a payload: the call is not accepted, or the header is taken and the decode ended. -/
theorem headerFrame_eq_next {hd : Header} {ends : State → State} {s t : State}
    (h : whenIdle (fun s => andThen (takeHeader hd s) fun u => .next (ends u)) s = .next t) :
    (s.phase ≠ .idle ∧ t = s) ∨ (s.phase = .idle ∧ t = ends (headerTaken hd s)) := by
  refine (whenIdle_eq_next h).imp_right fun ⟨hp, ht⟩ => ⟨hp, ?_⟩
  obtain ⟨u, hu, ht⟩ := andThen_eq_next.1 ht
  cases ht
  rw [takeHeader_eq_next hu]

/-- A whole frame with a payload: the call is not accepted, or header and payload are taken and the outcome published. -/
theorem payloadFrame_eq_next {hd : Header} {p : List Byte} {l off n : Word16} {k : OutKind} {s t : State}
    (h : whenIdle (fun s => andThen (takeHeader hd s) fun u =>
      andThen (takePayload p { u with len := l }) fun v => .next (finish k off n v)) s = .next t) :
    (s.phase ≠ .idle ∧ t = s) ∨ (s.phase = .idle ∧ t = finish k off n (frameTaken hd p l s)) := by
  refine (whenIdle_eq_next h).imp_right fun ⟨hp, ht⟩ => ⟨hp, ?_⟩
  obtain ⟨u, hu, ht⟩ := andThen_eq_next.1 ht
  obtain ⟨v, hv, ht⟩ := andThen_eq_next.1 ht
  cases ht
  rw [takePayload_eq_next hv, takeHeader_eq_next hu]; rfl

/-! ## The bytes of an event -/

/-- The state once a header byte is stored and counted (R143), before the test for the fourth. -/
def headerByteTaken (b : Byte) (s : State) : State :=
  { s with buf := s.buf.write s.hcnt.toNat b, hcnt := s.hcnt + 1, consumed := s.consumed + 1 }

/-- The state once a payload byte is stored and counted (R147), before the test for the last. -/
def payloadByteTaken (b : Byte) (s : State) : State :=
  { s with buf := s.buf.write (4 + s.pcnt.toNat) b, pcnt := s.pcnt + 1, consumed := s.consumed + 1 }

theorem execSrcByteHdr_eq_next {b : Byte} {s t : State} (h : execSrcByteHdr b s = .next t) :
    (s.phase ≠ .hdr ∧ t = s) ∨ (s.phase = .hdr ∧
      if s.hcnt + 1 = 4 then completeHeader (headerByteTaken b s) = .next t else t = headerByteTaken b s) := by
  refine (whenPhase_eq_next h).imp_right fun ⟨hp, ht⟩ => ⟨hp, ?_⟩
  obtain ⟨u, hu, ht⟩ := andThen_eq_next.1 ht
  cases memWrite_eq_next hu
  dsimp only at ht
  split at ht
  · rw [if_pos ‹_›]; exact ht
  · rw [if_neg ‹_›]; cases ht; rfl

theorem execSrcBytePay_eq_next {b : Byte} {s t : State} (h : execSrcBytePay b s = .next t) :
    (s.phase ≠ .pay ∧ t = s) ∨ (s.phase = .pay ∧
      if (s.pcnt + 1).toNat + 4 = s.len.toNat then completePayload (payloadByteTaken b s) = .next t
      else t = payloadByteTaken b s) := by
  refine (whenPhase_eq_next h).imp_right fun ⟨hp, ht⟩ => ⟨hp, ?_⟩
  obtain ⟨u, hu, ht⟩ := andThen_eq_next.1 ht
  cases memWrite_eq_next hu
  dsimp only at ht
  split at ht
  · rw [if_pos ‹_›]; exact ht
  · rw [if_neg ‹_›]; cases ht; rfl

/-! ## The effects of an instruction -/

/-- The phase accepts the instruction: a source event in its own phase, a `PULL` and a whole frame in `IDLE` (R150). -/
def Accepted (ph : Phase) (i : Instr) : Prop :=
  i.fitsPhase ph = true ∧ (i.format = .h ∨ i = .pull → ph = .idle)

theorem not_accepted_of_not_fits {ph : Phase} {i : Instr} (h : i.fitsPhase ph = false) : ¬ Accepted ph i :=
  fun ha => by simp [ha.1] at h

theorem not_accepted_of_busy {ph : Phase} {i : Instr} (hi : i.format = .h ∨ i = .pull) (h : ph ≠ .idle) :
    ¬ Accepted ph i :=
  fun ha => h (ha.2 hi)

/-- Everything an instruction can do from `s` where it answers a next state. -/
inductive Effect (s : State) : Instr → State → Prop
  | notAccepted {i : Instr} (h : ¬ Accepted s.phase i) : Effect s i s
  | answered {i : Instr} (r : Answer) (hh : i.format ≠ .h) (he : i.format ≠ .ev) : Effect s i { s with answer := r }
  | reset : Effect s .reset (resetRegisters s)
  | pull (hp : s.phase = .idle) : Effect s .pull (startDecode s)
  | headerByte {b : Byte} (hp : s.phase = .hdr) (hc : s.hcnt + 1 ≠ 4) :
      Effect s (.srcByteHdr b) (headerByteTaken b s)
  | fourthByte {b : Byte} {hd : Header} (hp : s.phase = .hdr) (hc : s.hcnt + 1 = 4)
      (hb : (headerByteTaken b s).buf.header = some hd) :
      Effect s (.srcByteHdr b)
        (afterHeader (classify s.params (lenParse hd)) ((lenParse hd).getD 0) (headerByteTaken b s))
  | payloadByte {b : Byte} (hp : s.phase = .pay) (hc : (s.pcnt + 1).toNat + 4 ≠ s.len.toNat) :
      Effect s (.srcBytePay b) (payloadByteTaken b s)
  | lastByte {b : Byte} {isErr : Bool} (hp : s.phase = .pay) (hc : (s.pcnt + 1).toNat + 4 = s.len.toNat)
      (he : isErr = true → 8 ≤ s.len.toNat ∧ (payloadByteTaken b s).buf.readRange 4 4 = some Config.errMagic) :
      Effect s (.srcBytePay b) (afterPayload isErr (payloadByteTaken b s))
  | eoiHdr (hp : s.phase = .hdr) :
      Effect s .srcEoiHdr (raiseFailure (if s.hcnt = 0 then .endOfInput else .truncated) s)
  | eoiPay (hp : s.phase = .pay) : Effect s .srcEoiPay (raiseFailure .truncated s)
  | failHdr (hp : s.phase = .hdr) : Effect s .srcFailHdr (raiseFailure .sourceFailure s)
  | failPay (hp : s.phase = .pay) : Effect s .srcFailPay (raiseFailure .sourceFailure s)
  | flush (hp : s.phase = .idle) : Effect s .flush (endFlush (headerTaken Header.flush s))
  | delim (hp : s.phase = .idle) : Effect s .delim (endDelim (headerTaken Header.delim s))
  | responseEnd (hp : s.phase = .idle) : Effect s .responseEnd (endResponseEnd (headerTaken Header.responseEnd s))
  | rsvd3 (hp : s.phase = .idle) : Effect s .rsvd3 (endRsvd3 (headerTaken Header.rsvd3 s))
  | overmax {hd : Header} {l : Word16} (hp : s.phase = .idle) (hl : lenParse hd = some l)
      (hm : s.params.maxDeclared < l.toNat) : Effect s (.overmax hd) (endOvermax l (headerTaken hd s))
  | nonhex {hd : Header} (hp : s.phase = .idle) (hl : lenParse hd = none) :
      Effect s (.nonhex hd) (endNonhex (headerTaken hd s))
  | data {hd : Header} {p : List Byte} {l : Word16} (hp : s.phase = .idle) (hl : lenParse hd = some l)
      (hn : p.length + 4 = l.toNat) (hm : l.toNat ≤ s.params.maxDeclared) :
      Effect s (.data hd p) (finish .payload 4 (BitVec.ofNat 16 p.length) (frameTaken hd p l s))
  | errline {hd : Header} {txt : List Byte} {l : Word16} (hp : s.phase = .idle) (hl : lenParse hd = some l)
      (hn : txt.length + 8 = l.toNat) (hm : l.toNat ≤ s.params.maxDeclared) :
      Effect s (.errline hd txt)
        (finish .errorLine 8 (BitVec.ofNat 16 txt.length) (frameTaken hd (Config.errMagic ++ txt) l s))

/-! ## What the well-formed terms with a header say of it -/

theorem wellFormed_overmax {P : Params} {hd : Header} (h : (Instr.overmax hd).wellFormed P = true) :
    ∃ l, lenParse hd = some l ∧ P.maxDeclared < l.toNat := by
  cases hl : lenParse hd <;> simp_all [Instr.wellFormed]

theorem wellFormed_nonhex {P : Params} {hd : Header} (h : (Instr.nonhex hd).wellFormed P = true) :
    lenParse hd = none := by
  simpa [Instr.wellFormed] using h

theorem wellFormed_data {P : Params} {hd : Header} {p : List Byte} (h : (Instr.data hd p).wellFormed P = true) :
    ∃ l, lenParse hd = some l ∧ p.length + 4 = l.toNat ∧ l.toNat ≤ P.maxDeclared := by
  cases hl : lenParse hd <;> simp_all [Instr.wellFormed]

theorem wellFormed_errline {P : Params} {hd : Header} {txt : List Byte}
    (h : (Instr.errline hd txt).wellFormed P = true) :
    ∃ l, lenParse hd = some l ∧ txt.length + 8 = l.toNat ∧ l.toNat ≤ P.maxDeclared := by
  cases hl : lenParse hd <;> simp_all [Instr.wellFormed]

/-! ## The effects are all there are -/

/-- A function's value handed to its caller, for the rows that stand for a function. -/
theorem effect_of_giveAnswer {i : Instr} {r : Answer} {s t : State} (hh : i.format ≠ .h) (he : i.format ≠ .ev)
    (h : giveAnswer r s = .next t) : Effect s i t := by
  cases h; exact .answered r hh he

/-- The rows of a source that has ended: a failure is raised in their phase, and nothing happens in another. -/
theorem effect_of_sourceEnd {i : Instr} {ph : Phase} {f : State → State} {s t : State}
    (hn : s.phase ≠ ph → i.fitsPhase s.phase = false) (ha : s.phase = ph → Effect s i (f s))
    (h : whenPhase ph (fun s => .next (f s)) s = .next t) : Effect s i t := by
  obtain ⟨hp, rfl⟩ | ⟨hp, ht⟩ := whenPhase_eq_next h
  · exact .notAccepted (not_accepted_of_not_fits (hn hp))
  · cases ht; exact ha hp

theorem effect_of_headerFrame {i : Instr} {hd : Header} {ends : State → State} {s t : State} (hi : i.format = .h)
    (ha : s.phase = .idle → Effect s i (ends (headerTaken hd s)))
    (h : whenIdle (fun s => andThen (takeHeader hd s) fun u => .next (ends u)) s = .next t) : Effect s i t := by
  obtain ⟨hp, rfl⟩ | ⟨hp, rfl⟩ := headerFrame_eq_next h
  · exact .notAccepted (not_accepted_of_busy (.inl hi) hp)
  · exact ha hp

theorem effect_of_payloadFrame {i : Instr} {hd : Header} {p : List Byte} {l off n : Word16} {k : OutKind}
    {s t : State} (hi : i.format = .h)
    (ha : s.phase = .idle → Effect s i (finish k off n (frameTaken hd p l s)))
    (h : whenIdle (fun s => andThen (takeHeader hd s) fun u =>
      andThen (takePayload p { u with len := l }) fun v => .next (finish k off n v)) s = .next t) : Effect s i t := by
  obtain ⟨hp, rfl⟩ | ⟨hp, rfl⟩ := payloadFrame_eq_next h
  · exact .notAccepted (not_accepted_of_busy (.inl hi) hp)
  · exact ha hp

theorem effect_of_execSrcByteHdr {b : Byte} {s t : State} (h : execSrcByteHdr b s = .next t) :
    Effect s (.srcByteHdr b) t := by
  obtain ⟨hp, rfl⟩ | ⟨hp, ht⟩ := execSrcByteHdr_eq_next h
  · exact .notAccepted (not_accepted_of_not_fits (by simpa [Instr.fitsPhase] using hp))
  · split at ht
    · obtain ⟨hd, hb, rfl⟩ := completeHeader_eq_next ht
      exact .fourthByte hp ‹_› hb
    · subst ht; exact .headerByte hp ‹_›

theorem effect_of_execSrcBytePay {b : Byte} {s t : State} (h : execSrcBytePay b s = .next t) :
    Effect s (.srcBytePay b) t := by
  obtain ⟨hp, rfl⟩ | ⟨hp, ht⟩ := execSrcBytePay_eq_next h
  · exact .notAccepted (not_accepted_of_not_fits (by simpa [Instr.fitsPhase] using hp))
  · split at ht
    · obtain ⟨isErr, rfl, he⟩ := completePayload_eq_next ht
      exact .lastByte hp ‹_› he
    · subst ht; exact .payloadByte hp ‹_›

theorem effect_of_execPull {s t : State} (h : execPull s = .next t) : Effect s .pull t := by
  obtain ⟨hp, rfl⟩ | ⟨hp, ht⟩ := whenPhase_eq_next h
  · exact .notAccepted (not_accepted_of_busy (.inr rfl) hp)
  · cases ht; exact .pull hp

/-- The inversion of `exec`, one case per row of the opcode table. -/
theorem effect_of_exec {i : Instr} {s t : State} (h : exec i s = .next t) : Effect s i t := by
  cases i with
  | flush => exact effect_of_headerFrame rfl .flush h
  | delim => exact effect_of_headerFrame rfl .delim h
  | responseEnd => exact effect_of_headerFrame rfl .responseEnd h
  | rsvd3 => exact effect_of_headerFrame rfl .rsvd3 h
  | overmax hd =>
    obtain ⟨hw, h⟩ := whenWellFormed_eq_next h
    obtain ⟨l, hl, hm⟩ := wellFormed_overmax hw
    rw [hl] at h
    exact effect_of_headerFrame rfl (fun hp => .overmax hp hl hm) h
  | nonhex hd =>
    obtain ⟨hw, h⟩ := whenWellFormed_eq_next h
    exact effect_of_headerFrame rfl (fun hp => .nonhex hp (wellFormed_nonhex hw)) h
  | data hd p =>
    obtain ⟨hw, h⟩ := whenWellFormed_eq_next h
    obtain ⟨l, hl, hn, hm⟩ := wellFormed_data hw
    rw [hl] at h
    exact effect_of_payloadFrame rfl (fun hp => .data hp hl hn hm) h
  | errline hd txt =>
    obtain ⟨hw, h⟩ := whenWellFormed_eq_next h
    obtain ⟨l, hl, hn, hm⟩ := wellFormed_errline hw
    rw [hl] at h
    exact effect_of_payloadFrame rfl (fun hp => .errline hp hl hn hm) h
  | sbPack | sbProgress | sbFatal | hexenc | encFlush | encDelim | encResponseEnd =>
    exact effect_of_giveAnswer nofun nofun h
  | sbInvalid | hexdigDec | hexdigUpper | hexdigLower | hexdigNone =>
    exact effect_of_giveAnswer nofun nofun (whenWellFormed_eq_next h).2
  | encLength | encFrame | encSideband =>
    simp only [exec, execEncLength, execEncFrame, execEncSideband] at h
    split at h
    · exact effect_of_giveAnswer nofun nofun h
    · cases h
  | reset => cases h; exact .reset
  | pull => exact effect_of_execPull h
  | srcByteHdr b => exact effect_of_execSrcByteHdr h
  | srcBytePay b => exact effect_of_execSrcBytePay h
  | srcEoiHdr =>
    exact effect_of_sourceEnd (f := fun s => raiseFailure (if s.hcnt = 0 then .endOfInput else .truncated) s)
      (by simp [Instr.fitsPhase]) .eoiHdr h
  | srcEoiPay => exact effect_of_sourceEnd (f := raiseFailure .truncated) (by simp [Instr.fitsPhase]) .eoiPay h
  | srcFailHdr => exact effect_of_sourceEnd (f := raiseFailure .sourceFailure) (by simp [Instr.fitsPhase]) .failHdr h
  | srcFailPay => exact effect_of_sourceEnd (f := raiseFailure .sourceFailure) (by simp [Instr.fitsPhase]) .failPay h
  | srcRsvd => cases h

/-- Everything a step can do where it answers a next state: the fetch alone, or an effect from the state it left. -/
theorem step_effect {s t : State} (h : step s = .next t) :
    fetch s = .quiet t ∨ ∃ i u, fetch s = .run i u ∧ Effect u i t := by
  obtain ⟨u, hf, hs⟩ | ⟨i, u, hf, hs⟩ := step_cases s <;> rw [hs] at h
  · cases h; exact .inl hf
  · exact .inr ⟨i, u, hf, effect_of_exec h⟩

end Sys2Proof.Machine
end

section
/-! The invariant (spec/10_state.md R32), apart from the machine: what writes keep of the written cells, and the
invariant of each shape of state a rule leaves. -/

namespace Sys2Proof.Machine

/-! ## Written cells (R54) -/

theorem written_zero (m : Memory) (a : Nat) : Written m a 0 := nofun

theorem Written.mono {m : Memory} {a n a' n' : Nat} (h : Written m a n) (ha : a ≤ a') (hn : a' + n' ≤ a + n) :
    Written m a' n' := fun k hk => by
  have := h (a' - a + k) (by omega)
  rwa [show a + (a' - a + k) = a' + k by omega] at this

theorem Written.write {m : Memory} {a n : Nat} (h : Written m a n) (x : Nat) (b : Byte) : Written (m.write x b) a n := by
  intro k hk
  rw [Memory.read_write]
  split
  · rfl
  · exact h k hk

theorem Written.writeAll {m : Memory} {a n : Nat} (h : Written m a n) (x : Nat) (bs : List Byte) :
    Written (m.writeAll x bs) a n := by
  induction bs generalizing m x with
  | nil => exact h
  | cons b bs ih => exact ih (h.write x b) (x + 1)

/-- Writing the next cell lengthens a written range. -/
theorem Written.write_next {m : Memory} {a n : Nat} (h : Written m a n) (b : Byte) :
    Written (m.write (a + n) b) a (n + 1) := by
  intro k hk
  by_cases hkn : k = n
  · subst hkn; simp
  · exact h.write _ b k (by omega)

theorem written_writeAll (m : Memory) (a : Nat) (bs : List Byte) : Written (m.writeAll a bs) a bs.length := by
  intro k hk
  simp [Memory.read_writeAll_inside m bs a k hk, hk]

/-- Four written header cells are a header. -/
theorem exists_header_of_written {m : Memory} (h : Written m 0 4) : ∃ hd, m.header = some hd := by
  obtain ⟨c0, h0⟩ := Option.isSome_iff_exists.1 (h 0 (by omega))
  obtain ⟨c1, h1⟩ := Option.isSome_iff_exists.1 (h 1 (by omega))
  obtain ⟨c2, h2⟩ := Option.isSome_iff_exists.1 (h 2 (by omega))
  obtain ⟨c3, h3⟩ := Option.isSome_iff_exists.1 (h 3 (by omega))
  exact ⟨⟨c0, c1, c2, c3⟩, Memory.header_eq_some.2 ⟨h0, h1, h2, h3⟩⟩

/-- A write above the header leaves it. -/
theorem header_write_above {m : Memory} {a : Nat} (ha : 4 ≤ a) (b : Byte) : (m.write a b).header = m.header :=
  Memory.header_congr fun _ hx => Memory.read_write_other m b (by omega)

theorem header_writeAll_above {m : Memory} {a : Nat} (ha : 4 ≤ a) (bs : List Byte) :
    (m.writeAll a bs).header = m.header :=
  Memory.header_congr fun _ hx => Memory.read_writeAll_outside m bs (.inl (by omega))

theorem headerSpellsLen_of_header {s : State} {hd : Header} (hb : s.buf.header = some hd)
    (hl : lenParse hd = some s.len) : HeaderSpellsLen s := by
  simp [HeaderSpellsLen, hb, hl]

/-! ## The part of the invariant that holds in every phase -/

/-- R8, R22, R32 (e) and R54: the parameters, BUF and the header bytes counted. -/
structure StoreInv (s : State) : Prop where
  paramsValid : s.params.Valid
  bufWf : s.buf.wf = true
  bufBelow : s.buf.below s.params.maxDeclared = true
  hcntLe : s.hcnt.toNat ≤ 4
  headerWritten : Written s.buf 0 s.hcnt.toNat

theorem Inv.store {s : State} (h : Inv s) : StoreInv s :=
  ⟨h.paramsValid, h.bufWf, h.bufBelow, h.hcntLe, h.headerWritten⟩

/-- Before the first header byte there is none to keep. -/
theorem storeInv_of_hcnt_zero {s : State} (hv : s.params.Valid) (hw : s.buf.wf = true)
    (hb : s.buf.below s.params.maxDeclared = true) (hc : s.hcnt = 0) : StoreInv s :=
  ⟨hv, hw, hb, by simp [hc], by rw [hc]; exact written_zero s.buf 0⟩

theorem StoreInv.withLen {s : State} (h : StoreInv s) (l : Word16) : StoreInv { s with len := l } :=
  ⟨h.paramsValid, h.bufWf, h.bufBelow, h.hcntLe, h.headerWritten⟩

/-- An idle state with no outcome has nothing else to keep. -/
theorem StoreInv.inv_of_idle {s : State} (h : StoreInv s) (hp : s.phase = .idle) (hv : s.outValid = false) :
    Inv s where
  paramsValid := h.paramsValid
  bufWf := h.bufWf
  bufBelow := h.bufBelow
  hcntLe := h.hcntLe
  headerWritten := h.headerWritten
  inHdr := by simp [hp]
  inPay := by simp [hp]
  published := by simp [hv]
  frameInBuf := by simp [hv]

/-- A state that reads header bytes (R32 (b)). -/
theorem StoreInv.inv_of_hdr {s : State} (h : StoreInv s) (hp : s.phase = .hdr) (hc : s.hcnt.toNat ≤ 3)
    (hv : s.outValid = false) : Inv s where
  paramsValid := h.paramsValid
  bufWf := h.bufWf
  bufBelow := h.bufBelow
  hcntLe := h.hcntLe
  headerWritten := h.headerWritten
  inHdr := fun _ => ⟨hc, hv⟩
  inPay := by simp [hp]
  published := by simp [hv]
  frameInBuf := by simp [hv]

/-- A state that reads payload bytes (R32 (c)). -/
theorem StoreInv.inv_of_pay {s : State} (h : StoreInv s) (hp : s.phase = .pay) (hc : s.hcnt = 4)
    (hv : s.outValid = false) (hm : s.len.toNat ≤ s.params.maxDeclared) (hn : s.pcnt.toNat + 4 < s.len.toNat)
    (hl : HeaderSpellsLen s) (hw : Written s.buf 4 s.pcnt.toNat) : Inv s where
  paramsValid := h.paramsValid
  bufWf := h.bufWf
  bufBelow := h.bufBelow
  hcntLe := h.hcntLe
  headerWritten := h.headerWritten
  inHdr := by simp [hp]
  inPay := fun _ => ⟨hc, hv, by omega, hm, hn, hl, hw⟩
  published := by simp [hv]
  frameInBuf := by simp [hv]

/-! ## Published outcomes (R32 (d), (f); R146) -/

/-- The kinds whose view is empty at address 0 (R146's table). -/
def EmptyViewKind (k : OutKind) : Prop :=
  k = .flush ∨ k = .delim ∨ k = .responseEnd ∨ k = .endOfInput ∨ k = .truncated ∨ k = .sourceFailure

theorem StoreInv.inv_finish {s : State} {k : OutKind} {off n : Word16} (h : StoreInv s)
    (hm : off.toNat + n.toNat ≤ s.params.maxDeclared) (hk : ViewOfKind (finish k off n s))
    (hw : Written s.buf off.toNat n.toNat)
    (hf : k = .payload ∨ k = .errorLine → s.hcnt = 4 ∧ s.len.toNat = off.toNat + n.toNat ∧ HeaderSpellsLen s) :
    Inv (finish k off n s) where
  paramsValid := h.paramsValid
  bufWf := h.bufWf
  bufBelow := h.bufBelow
  hcntLe := h.hcntLe
  headerWritten := h.headerWritten
  inHdr := nofun
  inPay := nofun
  published := fun _ => ⟨rfl, hm, hk, hw⟩
  frameInBuf := fun _ => hf

theorem StoreInv.inv_finish_emptyView {s : State} {k : OutKind} (h : StoreInv s) (hk : EmptyViewKind k) :
    Inv (finish k 0 0 s) := by
  refine h.inv_finish (Nat.zero_le _) ?view (written_zero s.buf 0) ?frame
  case view => rcases hk with rfl | rfl | rfl | rfl | rfl | rfl <;> exact ⟨rfl, rfl⟩
  case frame => rcases hk with rfl | rfl | rfl | rfl | rfl | rfl <;> simp

/-- R32 (d) for `INVALID_LENGTH`: the view is the four header bytes. -/
theorem StoreInv.inv_finish_invalidLength {s : State} (h : StoreInv s) (hc : s.hcnt = 4) :
    Inv (finish .invalidLength 0 4 s) := by
  have hw := h.headerWritten
  rw [hc] at hw
  exact h.inv_finish (by simpa using h.paramsValid.1) ⟨rfl, rfl⟩ hw (by simp)

section
variable {s : State} {n : Word16} (h : StoreInv s) (hc : s.hcnt = 4) (hm : s.len.toNat ≤ s.params.maxDeclared)
  (hl : HeaderSpellsLen s)
include h hc hm hl

theorem StoreInv.inv_finish_payload (hn : s.len.toNat = 4 + n.toNat) (hw : Written s.buf 4 n.toNat) :
    Inv (finish .payload 4 n s) :=
  h.inv_finish (by simp; omega) rfl hw fun _ => ⟨hc, hn, hl⟩

theorem StoreInv.inv_finish_errorLine (hn : s.len.toNat = 8 + n.toNat) (hw : Written s.buf 8 n.toNat)
    (he : s.buf.readRange 4 4 = some Config.errMagic) : Inv (finish .errorLine 8 n s) :=
  h.inv_finish (by simp; omega) ⟨rfl, he⟩ hw fun _ => ⟨hc, hn, hl⟩

end

/-! ## The environment -/

/-- The invariant does not speak of the source, the moves or the answer. -/
theorem Inv.withEnvironment {s : State} (h : Inv s) (src : Source) (ms : List Move) (r : Answer) :
    Inv { s with source := src, moves := ms, answer := r } where
  paramsValid := h.paramsValid
  bufWf := h.bufWf
  bufBelow := h.bufBelow
  hcntLe := h.hcntLe
  headerWritten := h.headerWritten
  inHdr := h.inHdr
  inPay := h.inPay
  published := h.published
  frameInBuf := h.frameInBuf

end Sys2Proof.Machine
end

section
/-! Every effect keeps the invariant (R32): the bytes of an event, the two completions, and the whole frames. -/

namespace Sys2Proof.Machine

/-! ## The bytes of an event -/

/-- A header byte lands below `MAX_DECLARED` and is counted (R143). -/
theorem storeInv_headerByteTaken {s : State} (h : StoreInv s) (h3 : s.hcnt.toNat ≤ 3) (b : Byte) :
    StoreInv (headerByteTaken b s) := by
  have hc : (s.hcnt + 1).toNat = s.hcnt.toNat + 1 := hcnt_succ_toNat _ h3
  have hmax := h.paramsValid.1
  have hw := h.headerWritten.write_next b
  rw [Nat.zero_add, ← hc] at hw
  exact ⟨h.paramsValid, Memory.wf_write _ b h.bufWf, Memory.below_write b (Nat.lt_of_le_of_lt h3 hmax) h.bufBelow,
    hc.trans_le (by omega), hw⟩

/-- A payload byte lands below `MAX_DECLARED` (R147). -/
theorem storeInv_payloadByteTaken {s : State} (h : StoreInv s) (ha : 4 + s.pcnt.toNat < s.params.maxDeclared)
    (b : Byte) : StoreInv (payloadByteTaken b s) :=
  ⟨h.paramsValid, Memory.wf_write _ b h.bufWf, Memory.below_write b ha h.bufBelow, h.hcntLe, h.headerWritten.write _ b⟩

/-- What a payload byte leaves while a payload is read: the count grown by one, the header as it was (R147, R131). -/
theorem payloadByteTaken_inPay {s : State} (h : Inv s) (hp : s.phase = .pay) (b : Byte) :
    StoreInv (payloadByteTaken b s) ∧ HeaderSpellsLen (payloadByteTaken b s) ∧
    (s.pcnt + 1).toNat = s.pcnt.toNat + 1 ∧ Written (payloadByteTaken b s).buf 4 (s.pcnt.toNat + 1) := by
  obtain ⟨-, -, -, hm, hn, hl, hw⟩ := h.inPay hp
  have hlt := s.len.isLt
  refine ⟨storeInv_payloadByteTaken h.store (by omega) b, ?_, pcnt_succ_toNat _ (by omega), hw.write_next b⟩
  show ((s.buf.write (4 + s.pcnt.toNat) b).header.bind lenParse) = some s.len
  rw [header_write_above (by omega)]
  exact hl

/-! ## The completions -/

/-- Header completion ends the decode or opens the payload (R144). -/
theorem StoreInv.inv_afterHeader {s : State} {hd : Header} (h : StoreInv s) (hc : s.hcnt = 4)
    (hv : s.outValid = false) (hb : s.buf.header = some hd) :
    Inv (afterHeader (classify s.params (lenParse hd)) ((lenParse hd).getD 0) s) := by
  cases hcl : classify s.params (lenParse hd) with
  | nonhex => exact (h.withLen 0).inv_finish_invalidLength hc
  | flush => exact (h.withLen 0).inv_finish_emptyView (by simp [EmptyViewKind])
  | delim => exact (h.withLen 1).inv_finish_emptyView (by simp [EmptyViewKind])
  | responseEnd => exact (h.withLen 2).inv_finish_emptyView (by simp [EmptyViewKind])
  | rsvd3 => exact (h.withLen 3).inv_finish_invalidLength hc
  | overmax => exact (h.withLen _).inv_finish_invalidLength hc
  | data n =>
    obtain ⟨l, hl, hn, hm⟩ := classify_data.1 hcl
    have hspell : HeaderSpellsLen { s with len := l } := headerSpellsLen_of_header hb hl
    rw [hl, Option.getD_some]
    cases n with
    | zero =>
      obtain rfl : l = 4 := BitVec.eq_of_toNat_eq (by simpa using hn.symm)
      exact (h.withLen 4).inv_finish_payload hc hm hspell rfl (written_zero s.buf 4)
    | succ n =>
      have hs : StoreInv (enterPayload l s) := ⟨h.paramsValid, h.bufWf, h.bufBelow, h.hcntLe, h.headerWritten⟩
      exact hs.inv_of_pay rfl hc hv hm (by simp; omega) hspell (written_zero s.buf 4)

/-- Payload completion publishes the payload or the text after "ERR " (R148). -/
theorem StoreInv.inv_afterPayload {s : State} {isErr : Bool} (h : StoreInv s) (hc : s.hcnt = 4)
    (hm : s.len.toNat ≤ s.params.maxDeclared) (h4 : 4 ≤ s.len.toNat) (hl : HeaderSpellsLen s)
    (hw : Written s.buf 4 (s.len.toNat - 4))
    (he : isErr = true → 8 ≤ s.len.toNat ∧ s.buf.readRange 4 4 = some Config.errMagic) :
    Inv (afterPayload isErr s) := by
  have hlt := s.len.isLt
  cases isErr with
  | false =>
    have hn : (s.len - 4).toNat = s.len.toNat - 4 := by bv_omega
    exact h.inv_finish_payload hc hm hl (by omega) (by rwa [hn])
  | true =>
    obtain ⟨h8, hq⟩ := he rfl
    have hn : (s.len - 8).toNat = s.len.toNat - 8 := by bv_omega
    exact h.inv_finish_errorLine hc hm hl (by omega) (hw.mono (by omega) (by omega)) hq

/-! ## The whole frames -/

/-- A header taken whole is stored and counted (R121). -/
theorem storeInv_headerTaken {s : State} (h : StoreInv s) (hd : Header) : StoreInv (headerTaken hd s) := by
  have hmax := h.paramsValid.1
  exact ⟨h.paramsValid, Memory.wf_writeAll 0 _ h.bufWf,
    Memory.below_writeAll hd.bytes hmax h.bufBelow, le_refl 4,
    written_writeAll s.buf 0 hd.bytes⟩

/-- A payload taken whole lands below `MAX_DECLARED` (R159). -/
theorem storeInv_frameTaken {s : State} {p : List Byte} {l : Word16} (h : StoreInv s) (hd : Header)
    (hn : 4 + p.length ≤ s.params.maxDeclared) : StoreInv (frameTaken hd p l s) :=
  let ⟨hp, hw, hb, hc, hr⟩ := storeInv_headerTaken h hd
  ⟨hp, Memory.wf_writeAll 4 p hw, Memory.below_writeAll p hn hb, hc, hr.writeAll 4 p⟩

theorem frameTaken_headerSpellsLen {hd : Header} {p : List Byte} {l : Word16} {s : State}
    (hl : lenParse hd = some l) : HeaderSpellsLen (frameTaken hd p l s) :=
  headerSpellsLen_of_header
    ((header_writeAll_above (le_refl 4) p).trans (Memory.header_writeAll_header s.buf hd)) hl

/-- A frame whose length fits is published as it came (R159). -/
theorem StoreInv.inv_data {s : State} {hd : Header} {p : List Byte} {l : Word16} (h : StoreInv s)
    (hl : lenParse hd = some l) (hn : p.length + 4 = l.toNat) (hm : l.toNat ≤ s.params.maxDeclared) :
    Inv (finish .payload 4 (BitVec.ofNat 16 p.length) (frameTaken hd p l s)) := by
  have hlt := l.isLt
  have hp : (BitVec.ofNat 16 p.length).toNat = p.length := by simp; omega
  refine (storeInv_frameTaken h hd (by omega)).inv_finish_payload rfl hm (frameTaken_headerSpellsLen hl) ?len ?written
  case len => rw [hp]; show l.toNat = _; omega
  case written => rw [hp]; exact written_writeAll _ 4 p

/-- An error line is published without its "ERR " (R160). -/
theorem StoreInv.inv_errline {s : State} {hd : Header} {txt : List Byte} {l : Word16} (h : StoreInv s)
    (hl : lenParse hd = some l) (hn : txt.length + 8 = l.toNat) (hm : l.toNat ≤ s.params.maxDeclared) :
    Inv (finish .errorLine 8 (BitVec.ofNat 16 txt.length) (frameTaken hd (Config.errMagic ++ txt) l s)) := by
  have hlt := l.isLt
  have ht : (BitVec.ofNat 16 txt.length).toNat = txt.length := by simp; omega
  have hlen : (Config.errMagic ++ txt).length = txt.length + 4 := by simp [Config.errMagic]
  have hbuf : (frameTaken hd (Config.errMagic ++ txt) l s).buf =
      ((s.buf.writeAll 0 hd.bytes).writeAll 4 Config.errMagic).writeAll 8 txt := Memory.writeAll_append _ 4 _ txt
  refine (storeInv_frameTaken h hd (by omega)).inv_finish_errorLine rfl hm (frameTaken_headerSpellsLen hl) ?len ?written ?magic
  case len => rw [ht]; show l.toNat = _; omega
  case written => rw [ht, hbuf]; exact written_writeAll _ 8 txt
  case magic =>
    rw [hbuf, Memory.readRange_congr fun k hk => Memory.read_writeAll_outside _ txt (.inl (by omega))]
    exact Memory.readRange_writeAll _ 4 Config.errMagic

/-! ## Every effect, and every step -/

theorem Effect.inv {s t : State} {i : Instr} (he : Effect s i t) (h : Inv s) : Inv t := by
  have hs := h.store
  cases he with
  | notAccepted => exact h
  | answered r => exact h.withEnvironment s.source s.moves r
  | reset =>
    have h0 : StoreInv (resetRegisters s) := storeInv_of_hcnt_zero hs.paramsValid hs.bufWf hs.bufBelow rfl
    exact h0.inv_of_idle rfl rfl
  | pull hp =>
    have h0 : StoreInv (startDecode s) := storeInv_of_hcnt_zero hs.paramsValid hs.bufWf hs.bufBelow rfl
    exact h0.inv_of_hdr rfl (Nat.zero_le 3) rfl
  | @headerByte b hp hc =>
    obtain ⟨h3, hv⟩ := h.inHdr hp
    have h2 : (s.hcnt + 1).toNat ≤ 3 := by
      have := hcnt_succ_toNat _ h3
      have : (s.hcnt + 1).toNat ≠ 4 := fun h4 => hc (BitVec.eq_of_toNat_eq h4)
      omega
    exact (storeInv_headerByteTaken hs h3 b).inv_of_hdr hp h2 hv
  | @fourthByte b hd hp hc hb =>
    obtain ⟨h3, hv⟩ := h.inHdr hp
    exact (storeInv_headerByteTaken hs h3 b).inv_afterHeader hc hv hb
  | @payloadByte b hp hc =>
    obtain ⟨h4, hv, -, hm, hn, -⟩ := h.inPay hp
    obtain ⟨hs', hl', hc', hw'⟩ := payloadByteTaken_inPay h hp b
    rw [← hc'] at hw'
    exact hs'.inv_of_pay hp h4 hv hm (show (s.pcnt + 1).toNat + 4 < s.len.toNat by omega) hl' hw'
  | @lastByte b isErr hp hc hq =>
    obtain ⟨h4, -, h5, hm, -⟩ := h.inPay hp
    obtain ⟨hs', hl', hc', hw'⟩ := payloadByteTaken_inPay h hp b
    have hw : Written (payloadByteTaken b s).buf 4 (s.len.toNat - 4) := hw'.mono (le_refl 4) (by omega)
    exact hs'.inv_afterPayload h4 hm (show 4 ≤ s.len.toNat by omega) hl' hw hq
  | eoiHdr hp => split <;> exact hs.inv_finish_emptyView (by simp [EmptyViewKind])
  | eoiPay | failHdr | failPay => exact hs.inv_finish_emptyView (by simp [EmptyViewKind])
  | flush | delim | responseEnd => exact ((storeInv_headerTaken hs _).withLen _).inv_finish_emptyView (by simp [EmptyViewKind])
  | rsvd3 | overmax | nonhex => exact ((storeInv_headerTaken hs _).withLen _).inv_finish_invalidLength rfl
  | data hp hl hn hm => exact hs.inv_data hl hn hm
  | errline hp hl hn hm => exact hs.inv_errline hl hn hm

/-- The fetch writes fields of which the invariant does not speak. -/
theorem Inv.fetch {s : State} (h : Inv s) : Inv (fetch s).state := by
  obtain ⟨src, ms, hf⟩ := fetch_state s
  rw [hf]
  exact h.withEnvironment src ms s.answer

/-- Settles O42: the fetch keeps the invariant, and so does every effect. -/
theorem everyStepKeepsTheInvariant : Obligations.EveryStepKeepsTheInvariant := by
  intro s t h hstep
  have hfetch := h.fetch
  obtain hf | ⟨i, u, hf, he⟩ := step_effect hstep <;> rw [hf] at hfetch
  · exact hfetch
  · exact he.inv hfetch

/-- Settles O41: no cell is written, no outcome published and every count 0, whatever the parameters. -/
theorem resetStateMeetsTheInvariant : Obligations.ResetStateMeetsTheInvariant := by
  have hreset (P : Params) (hP : P.Valid) : Inv (State.resetFor P) := by
    have hs : StoreInv (State.resetFor P) := storeInv_of_hcnt_zero hP rfl rfl rfl
    exact hs.inv_of_idle rfl rfl
  exact ⟨hreset Config.params params_valid, hreset⟩

end Sys2Proof.Machine
end

section
/-! What the decoder gives, as far as the steps need it: the format of a signal, what a source symbol can be, and the
bytes of the frame at the front of a stream (spec/30_encoding.md R76, R81, R83, R88, R89). -/

namespace Sys2Proof.Machine

theorem decodeMessage_format (p : List Byte) : (decodeMessage p).format = .s := by
  cases p with
  | nil => rfl
  | cons b rest => simp only [decodeMessage]; split <;> rfl

theorem decodeDigit_format (b : Byte) : (decodeDigit b).format = .x := by
  simp only [decodeDigit]
  split_ifs <;> rfl

theorem decodeCall_format (f : RefCall) : (decodeCall f).format = .ref := by cases f <;> rfl

/-- What a source symbol can be: the reserved kind, or one of the three kinds in a phase that takes symbols. -/
theorem decodeSrc_eq_ok {ph : Phase} {k : BitVec 2} {d : Byte} {i : Instr} (h : decodeSrc ph k d = .ok i) :
    (k = 3 ∧ i = .srcRsvd) ∨
    (ph = .hdr ∧ ((k = 0 ∧ i = .srcByteHdr d) ∨ (k = 1 ∧ i = .srcEoiHdr) ∨ (k = 2 ∧ i = .srcFailHdr))) ∨
    (ph = .pay ∧ ((k = 0 ∧ i = .srcBytePay d) ∨ (k = 1 ∧ i = .srcEoiPay) ∨ (k = 2 ∧ i = .srcFailPay))) := by
  have hkinds : ∀ k : BitVec 2, k = 0 ∨ k = 1 ∨ k = 2 ∨ k = 3 := by decide
  obtain rfl | rfl | rfl | rfl := hkinds k <;> cases ph <;> simp_all [decodeSrc]

/-- A header that spells a value below 10 is the one "000" and a decimal digit (R77). -/
theorem header_eq_of_lenParse {hd hd' : Header} {l : Word16} (h : lenParse hd = some l) (h' : lenParse hd' = some l)
    (h9 : l.toNat ≤ 9) : hd = hd' :=
  (header_of_small h h9).trans (header_of_small h' h9).symm

/-- A header and its payload at the front of a stream decode to a frame with these wire bytes (R76, R81). -/
theorem decodeFrame_header_eq_ok {P : Params} {hd : Header} {tail rest : List Byte} {i : Instr}
    (h : decodeFrame P (hd.bytes ++ tail) = .ok (i, rest)) : i.format = .h ∧ hd.bytes ++ tail = wireBytes i ++ rest := by
  rw [decodeFrame_header] at h
  cases hc : classify P (lenParse hd) <;> simp only [hc] at h
  case nonhex | overmax => cases h; exact ⟨rfl, rfl⟩
  case flush =>
    cases h; rw [header_eq_of_lenParse (classify_flush.1 hc) lenParse_flush (by decide)]; exact ⟨rfl, rfl⟩
  case delim =>
    cases h; rw [header_eq_of_lenParse (classify_delim.1 hc) lenParse_delim (by decide)]; exact ⟨rfl, rfl⟩
  case responseEnd =>
    cases h; rw [header_eq_of_lenParse (classify_responseEnd.1 hc) lenParse_responseEnd (by decide)]; exact ⟨rfl, rfl⟩
  case rsvd3 =>
    cases h; rw [header_eq_of_lenParse (classify_rsvd3.1 hc) lenParse_rsvd3 (by decide)]; exact ⟨rfl, rfl⟩
  case data n =>
    split at h
    · cases h
    · split at h
      · rename_i he
        obtain ⟨txt, ht⟩ := startsWithErr_iff.1 he
        cases h
        refine ⟨rfl, ?_⟩
        have hw : wireBytes (.errline hd ((tail.take n).drop 4)) = hd.bytes ++ tail.take n := by
          rw [ht]; rfl
        rw [hw, List.append_assoc, List.take_append_drop]
      · cases h
        refine ⟨rfl, ?_⟩
        have hw : wireBytes (.data hd (tail.take n)) = hd.bytes ++ tail.take n := rfl
        rw [hw, List.append_assoc, List.take_append_drop]

/-- The frame at the front of a stream is the instruction's wire bytes (R81). -/
theorem decodeFrame_eq_ok {P : Params} {bs rest : List Byte} {i : Instr} (h : decodeFrame P bs = .ok (i, rest)) :
    i.format = .h ∧ bs = wireBytes i ++ rest := by
  match bs, h with
  | c0 :: c1 :: c2 :: c3 :: _, h => exact decodeFrame_header_eq_ok (hd := ⟨c0, c1, c2, c3⟩) h

end Sys2Proof.Machine
end

section
/-! What the moves of the source and the consumer take from the source, and that `CONSUMED` counts it (spec/10_state.md
R33, spec/20_memory.md R55). -/

namespace Sys2Proof.Machine

/-- The source bytes an accepted instruction takes: one for a byte event, all its wire bytes for a whole frame. -/
def bytesTaken : Instr → Nat
  | .srcByteHdr _ | .srcBytePay _ => 1
  | i => (wireBytes i).length

/-- A pure function's row takes nothing from the source. -/
theorem bytesTaken_of_function {i : Instr} (hh : i.format ≠ .h) (hev : i.format ≠ .ev) : bytesTaken i = 0 := by
  cases i with
  | flush | delim | responseEnd | rsvd3 | data | errline | overmax | nonhex => exact absurd rfl hh
  | reset | pull | srcByteHdr | srcBytePay | srcEoiHdr | srcEoiPay | srcFailHdr | srcFailPay | srcRsvd =>
    exact absurd rfl hev
  | sbPack | sbProgress | sbFatal | sbInvalid | hexdigDec | hexdigUpper | hexdigLower | hexdigNone | hexenc |
    encLength | encFrame | encFlush | encDelim | encResponseEnd | encSideband => rfl

theorem accepted_of_frame {i : Instr} {ph : Phase} (hi : i.format = .h) (hp : ph = .idle) : Accepted ph i := by
  refine ⟨?_, fun _ => hp⟩
  cases i <;> simp_all [Instr.fitsPhase, Instr.format]

theorem bytesTaken_of_frame {i : Instr} (hi : i.format = .h) : bytesTaken i = (wireBytes i).length := by
  cases i <;> simp_all [bytesTaken, Instr.format]

theorem frameTaken_consumed (hd : Header) (p : List Byte) (l : Word16) (s : State) :
    (frameTaken hd p l s).consumed = s.consumed + (hd.bytes ++ p).length := by
  rw [List.length_append, ← Nat.add_assoc]; rfl

/-- `CONSUMED` grows by the bytes an accepted instruction takes (R33); `RESET` clears it. -/
theorem Effect.consumed {s t : State} {i : Instr} (he : Effect s i t) (ha : Accepted s.phase i) (hr : i ≠ .reset) :
    t.consumed = s.consumed + bytesTaken i := by
  cases he with
  | notAccepted hn => exact absurd ha hn
  | answered r hh hev => rw [bytesTaken_of_function hh hev]; rfl
  | reset => exact absurd rfl hr
  | pull | headerByte | payloadByte => rfl
  | fourthByte =>
    obtain ⟨-, -, hc, -⟩ := afterHeader_frame _ _ _
    exact hc
  | lastByte =>
    obtain ⟨-, -, -, -, hc, -⟩ := afterPayload_frame _ _
    exact hc
  | eoiHdr => split <;> rfl
  | eoiPay | failHdr | failPay | flush | delim | responseEnd | rsvd3 | overmax | nonhex => rfl
  | data | errline => rw [finish_consumed, frameTaken_consumed]; rfl

/-- A `PULL`, accepted or not, takes nothing. -/
theorem Effect.consumed_pull {s t : State} (he : Effect s .pull t) : t.consumed = s.consumed := by
  cases he with
  | notAccepted | pull => rfl
  | answered r hh hev => exact absurd rfl hev

/-- What the source presents next: its next byte, or the condition at its end, which takes nothing (R57). -/
theorem Source.next_eq_some {src rest : Source} {k : BitVec 2} {d : Byte} (h : src.next = some (k, d, rest)) :
    (k = 0 ∧ src.bs.length = rest.bs.length + 1) ∨ ((k = 1 ∨ k = 2) ∧ rest = src) := by
  obtain ⟨_ | ⟨b, bs⟩, tm⟩ := src
  · cases tm <;> cases h <;> simp
  · cases h; simp

/-- The instruction is accepted, and with the source `src` left it has taken its bytes from the front. -/
structure Takes (s : State) (i : Instr) (src : Source) : Prop where
  accepted : Accepted s.phase i
  notReset : i ≠ .reset
  length : src.bs.length + bytesTaken i = s.source.bs.length

/-- A decoded symbol is accepted, and only a byte takes one (R88, R150). -/
theorem accepted_of_decodeSrc {ph : Phase} {k : BitVec 2} {d : Byte} {i : Instr} (h : decodeSrc ph k d = .ok i) :
    Accepted ph i ∧ i ≠ .reset ∧ bytesTaken i = if k = 0 then 1 else 0 := by
  obtain ⟨rfl, rfl⟩ | ⟨rfl, ⟨rfl, rfl⟩ | ⟨rfl, rfl⟩ | ⟨rfl, rfl⟩⟩ | ⟨rfl, ⟨rfl, rfl⟩ | ⟨rfl, rfl⟩ | ⟨rfl, rfl⟩⟩ :=
    decodeSrc_eq_ok h
  all_goals exact ⟨⟨rfl, by simp [Instr.format]⟩, nofun, rfl⟩

theorem takes_of_next {s : State} {rest : Source} {k : BitVec 2} {d : Byte} {i : Instr}
    (hn : s.source.next = some (k, d, rest)) (hd : decodeSrc s.phase k d = .ok i) : Takes s i rest := by
  obtain ⟨ha, hr, hb⟩ := accepted_of_decodeSrc hd
  refine ⟨ha, hr, ?_⟩
  rw [hb]
  obtain ⟨rfl, hlen⟩ | ⟨rfl | rfl, rfl⟩ := Source.next_eq_some hn
  · exact hlen.symm
  · rfl
  · rfl

theorem fetchMove_src_cases (s : State) :
    fetchMove .src s = .quiet s ∨ ∃ i src, fetchMove .src s = .run i { s with source := src } ∧ Takes s i src := by
  cases hn : s.source.next with
  | none => exact .inl (fetchMove_src_none hn)
  | some x =>
    obtain ⟨k, d, rest⟩ := x
    cases hd : decode s.params s.phase (.src k d) with
    | error e => exact .inl (fetchMove_src_error hn hd)
    | ok i =>
      refine .inr ⟨i, rest, fetchMove_src_ok hn hd, ?_⟩
      exact takes_of_next hn hd

theorem fetchMove_call_cases (s : State) :
    fetchMove .call s = .run .pull s ∨ ∃ i src, fetchMove .call s = .run i { s with source := src } ∧ Takes s i src := by
  by_cases hp : s.phase = .idle
  · cases hd : decodeFrame s.params s.source.bs with
    | error e => exact .inl (fetchMove_call_noFrame hd)
    | ok x =>
      obtain ⟨i, rest⟩ := x
      obtain ⟨hi, hbs⟩ := decodeFrame_eq_ok hd
      refine .inr ⟨i, _, fetchMove_call_frame hp hd, ?accepted, ?notReset, ?length⟩
      case accepted => exact accepted_of_frame hi hp
      case notReset => rintro rfl; cases hi
      case length => rw [hbs, bytesTaken_of_frame hi, List.length_append, Nat.add_comm]
  · exact .inl (fetchMove_call_busy hp)

/-- An instruction run on what it takes counts it. -/
theorem Takes.counted {s t : State} {i : Instr} {src : Source} (ht : Takes s i src)
    (h : exec i { s with source := src } = .next t) :
    t.consumed + t.source.bs.length = s.consumed + s.source.bs.length := by
  have hc : t.consumed = s.consumed + bytesTaken i := (effect_of_exec h).consumed ht.accepted ht.notReset
  have hs : t.source = src := (exec_keepsInputs _ _ t h).source
  have hl := ht.length
  rw [hc, hs]; omega

theorem consumed_of_pull {s t : State} (h : exec .pull s = .next t) :
    t.consumed + t.source.bs.length = s.consumed + s.source.bs.length := by
  rw [(effect_of_exec h).consumed_pull, (exec_keepsInputs _ _ t h).source]

/-- Settles O46, one case per move: a symbol, a whole frame or nothing leaves the source. -/
theorem consumedCountsTheBytesTaken : Obligations.ConsumedCountsTheBytesTaken := by
  intro s t m ms hm hmove hstep
  obtain rfl | rfl | rfl := hmove
  · obtain hq | ⟨i, src, hr, ht⟩ := fetchMove_src_cases { s with moves := ms }
    · rw [step_of_quiet ((fetch_move hm).trans hq)] at hstep
      cases hstep; rfl
    · rw [step_of_move_run hm hr] at hstep
      exact ht.counted hstep
  · obtain hr | ⟨i, src, hr, ht⟩ := fetchMove_call_cases { s with moves := ms } <;>
      rw [step_of_move_run hm hr] at hstep
    · exact consumed_of_pull (s := { s with moves := ms }) hstep
    · exact ht.counted hstep
  · rw [step_of_move_run hm (fetchMove_pull _)] at hstep
    exact consumed_of_pull (s := { s with moves := ms }) hstep

end Sys2Proof.Machine
end

section
/-! The outcome registers: when `OUT_KIND` changes, and what stands until the next request (spec/10_state.md R25, R26,
R28, R34, R40). -/

namespace Sys2Proof.Machine

theorem fetchSignal_eq_run {g : Signal} {s t u : State} {i : Instr} (h : fetchSignal g s t = .run i u) :
    decode s.params s.phase g = .ok i := by
  cases hd : decode s.params s.phase g with
  | ok j => rw [fetchSignal_ok hd] at h; cases h; rfl
  | error e => rw [fetchSignal_error hd] at h; cases h

/-! ## `OUT_KIND` -/

/-- Header completion publishes an outcome or leaves `OUT_KIND` alone (R144). -/
theorem afterHeader_outKind (c : HeaderClass) (l : Word16) (s : State) :
    (afterHeader c l s).outValid = true ∨ (afterHeader c l s).outKind = s.outKind := by
  unfold afterHeader
  split <;> simp

/-- An effect that is no `RESET` publishes an outcome or leaves `OUT_KIND` alone. -/
theorem Effect.outKind {s t : State} {i : Instr} (he : Effect s i t) :
    i = .reset ∨ t.outValid = true ∨ t.outKind = s.outKind := by
  cases he with
  | reset => exact .inl rfl
  | notAccepted | answered | pull | headerByte | payloadByte => exact .inr (.inr rfl)
  | fourthByte => exact .inr (afterHeader_outKind _ _ _)
  | @lastByte _ isErr => cases isErr <;> exact .inr (.inl rfl)
  | eoiHdr => split <;> exact .inr (.inl rfl)
  | eoiPay | failHdr | failPay | flush | delim | responseEnd | rsvd3 | overmax | nonhex | data | errline =>
    exact .inr (.inl rfl)

theorem ne_reset_of_format {i : Instr} {f : Format} (hi : i.format = f) (hf : f ≠ .ev) : i ≠ .reset := by
  rintro rfl; exact hf hi.symm

/-- The event `RESET` comes from the port `rst` alone (R39). -/
theorem fetchMove_run_reset {m : Move} {s u : State} (h : fetchMove m s = .run .reset u) : m = .rst := by
  cases m with
  | rst => rfl
  | pull | attach => simp at h
  | src =>
    obtain hq | ⟨i, src, hr, ht⟩ := fetchMove_src_cases s
    · rw [hq] at h; cases h
    · rw [hr] at h; cases h; exact absurd rfl ht.notReset
  | call =>
    obtain hr | ⟨i, src, hr, ht⟩ := fetchMove_call_cases s <;> rw [hr] at h <;> cases h
    exact absurd rfl ht.notReset
  | present k d => have := decodeSrc_eq_ok (fetchSignal_eq_run h); simp at this
  | demux p => exact absurd (Fetched.run.inj h).1 (ne_reset_of_format (decodeMessage_format p) nofun)
  | digit b => exact absurd (Fetched.run.inj h).1 (ne_reset_of_format (decodeDigit_format b) nofun)
  | ref f => exact absurd (Fetched.run.inj h).1 (ne_reset_of_format (decodeCall_format f) nofun)

/-- Settles O45: an effect that changes the kind publishes or is a `RESET`, and `RESET` comes from `rst`. -/
theorem outKindChangesOnlyWithAnOutcome : Obligations.OutKindChangesOnlyWithAnOutcome := by
  intro s t hstep hk
  cases hm : s.moves with
  | nil => rw [step_no_move hm] at hstep; cases hstep; exact absurd rfl hk
  | cons m ms =>
    obtain ⟨src, ms', hf⟩ := fetch_state s
    obtain hq | ⟨i, u, hr, he⟩ := step_effect hstep
    · rw [hq] at hf; cases hf; exact absurd rfl hk
    · rw [hr, Fetched.state_run] at hf
      subst hf
      obtain rfl | hv | hsame := he.outKind
      · exact .inr ⟨ms, by rw [fetchMove_run_reset ((fetch_move hm).symm.trans hr)]⟩
      · exact .inl hv
      · exact absurd hsame hk

/-! ## A published outcome -/

/-- A pure function's row answers its caller and does nothing else (R180, R190). -/
theorem Effect.answer_of_function {s t : State} {i : Instr} (he : Effect s i t) (hh : i.format ≠ .h)
    (hev : i.format ≠ .ev) : ∃ r, t = { s with answer := r } := by
  cases he with
  | notAccepted => exact ⟨s.answer, rfl⟩
  | answered r => exact ⟨r, rfl⟩
  | reset | pull | headerByte | fourthByte | payloadByte | lastByte | eoiHdr | eoiPay | failHdr | failPay =>
    exact absurd rfl hev
  | flush | delim | responseEnd | rsvd3 | overmax | nonhex | data | errline => exact absurd rfl hh

theorem answer_of_exec_function {s t : State} {i : Instr} {f : Format} (h : exec i s = .next t) (hi : i.format = f)
    (hh : f ≠ .h) (hev : f ≠ .ev) : ∃ r, t = { s with answer := r } :=
  (effect_of_exec h).answer_of_function (hi ▸ hh) (hi ▸ hev)

/-- A symbol offered in `IDLE` stays in the source (R55, R150). -/
theorem fetchMove_src_idle {s : State} (hp : s.phase = .idle) : fetchMove .src s = .quiet s := by
  cases hn : s.source.next with
  | none => exact fetchMove_src_none hn
  | some x =>
    obtain ⟨k, d, rest⟩ := x
    cases hd : decode s.params s.phase (.src k d) with
    | error e => exact fetchMove_src_error hn hd
    | ok i =>
      obtain ⟨rfl, -⟩ : k = 3 ∧ i = .srcRsvd := by simpa [hp] using decodeSrc_eq_ok hd
      simpa using Source.next_eq_some hn

/-- In `IDLE` a move that is no request and no reset writes the environment's fields only. -/
theorem step_idle_noRequest {s t : State} {m : Move} {ms : List Move} (hp : s.phase = .idle) (hm : s.moves = m :: ms)
    (hpull : m ≠ .pull) (hcall : m ≠ .call) (hrst : m ≠ .rst) (hstep : step s = .next t) :
    ∃ src r, t = { s with source := src, moves := ms, answer := r } := by
  cases m with
  | pull => exact absurd rfl hpull
  | call => exact absurd rfl hcall
  | rst => exact absurd rfl hrst
  | attach src =>
    rw [step_of_quiet (fetch_move hm)] at hstep
    cases hstep; exact ⟨src, s.answer, rfl⟩
  | src =>
    rw [step_of_quiet ((fetch_move hm).trans (fetchMove_src_idle hp))] at hstep
    cases hstep; exact ⟨s.source, s.answer, rfl⟩
  | present k d =>
    cases hd : decode s.params s.phase (.src k d) with
    | error e =>
      rw [step_of_quiet ((fetch_move hm).trans (fetchSignal_error (by exact hd) _))] at hstep
      cases hstep; exact ⟨s.source, s.answer, rfl⟩
    | ok i =>
      rw [step_of_move_signal hm (fetchMove_present k d) hd] at hstep
      obtain ⟨-, rfl⟩ : k = 3 ∧ i = .srcRsvd := by simpa [hp] using decodeSrc_eq_ok hd
      cases hstep
  | demux p =>
    rw [step_of_move_signal hm (fetchMove_demux p) rfl] at hstep
    exact ⟨s.source, answer_of_exec_function hstep (decodeMessage_format p) nofun nofun⟩
  | digit b =>
    rw [step_of_move_signal hm (fetchMove_digit b) rfl] at hstep
    exact ⟨s.source, answer_of_exec_function hstep (decodeDigit_format b) nofun nofun⟩
  | ref f =>
    rw [step_of_move_signal hm (fetchMove_ref f) rfl] at hstep
    exact ⟨s.source, answer_of_exec_function hstep (decodeCall_format f) nofun nofun⟩

/-- Settles O44: a published outcome is in `IDLE`, where such a move writes the environment's fields only. -/
theorem publishedOutcomeStandsUntilTheNextPull : Obligations.PublishedOutcomeStandsUntilTheNextPull := by
  intro s t m ms h hv hm hpull hcall hrst hstep
  obtain ⟨hp, -⟩ := h.published hv
  obtain ⟨src, r, rfl⟩ := step_idle_noRequest hp hm hpull hcall hrst hstep
  exact ⟨hv, hp, rfl, rfl, rfl, rfl, fun _ => rfl⟩

/-! ## The raw header -/

/-- Settles O48: with `HCNT` 4 the header cells are written, and the view of `INVALID_LENGTH` is those cells. -/
theorem rawIsTheHeaderInBuf : Obligations.RawIsTheHeaderInBuf := by
  intro s h hv hc
  have hw := h.headerWritten
  rw [hc] at hw
  obtain ⟨hd, hb⟩ := exists_header_of_written hw
  have hrange := Memory.readRange_of_header hb
  refine ⟨hd, by simp [State.raw, hv, hc, hb], hrange, fun hk => ?_⟩
  obtain ⟨-, -, hview, -⟩ := h.published hv
  obtain ⟨hoff, hlen⟩ : s.viewOff = 0 ∧ s.viewLen = 4 := by simpa [ViewOfKind, hk] using hview
  simpa [State.view, hoff, hlen] using hrange

/-! ## Reset -/

/-- Settles O19: the reset state's fields and the outputs computed from them, against R40's table. -/
theorem resetStateHasTheTablesValues : Obligations.ResetStateHasTheTablesValues :=
  ⟨rfl, rfl, rfl, rfl, rfl, rfl, rfl, rfl, fun _ => rfl, rfl, rfl, rfl, rfl, rfl⟩

end Sys2Proof.Machine
end

section
/-! No fault under the invariant: every byte an instruction stores is below `BUF_CAP`, and every cell a rule reads has
been written (spec/20_memory.md R54, spec/41_length_classifier.md R131). -/

namespace Sys2Proof.Machine

/-- The instruction does not end in a fault. -/
def NoFault (o : Result) : Prop := ∀ f, o ≠ .fault f

theorem noFault_next (s : State) : NoFault (.next s) := nofun

theorem noFault_refused (r : Refusal) : NoFault (.refused r) := nofun

theorem noFault_of_eq_next {o : Result} {t : State} (h : o = .next t) : NoFault o := h ▸ noFault_next t

theorem noFault_giveAnswer (r : Answer) (s : State) : NoFault (giveAnswer r s) := noFault_next _

/-! ## The guards -/

/-- An event that only updates the state, in its phase (R142, R145, R149). -/
theorem noFault_whenPhase_next (ph : Phase) (g : State → State) (s : State) :
    NoFault (whenPhase ph (fun s => .next (g s)) s) := by
  by_cases h : s.phase = ph
  · exact noFault_of_eq_next (whenPhase_accepted h _)
  · exact noFault_of_eq_next (whenPhase_refused h _)

theorem noFault_whenIdle {f : State → Result} {s : State} (hf : NoFault (f s)) : NoFault (whenIdle f s) := by
  by_cases h : s.phase = .idle
  · rw [whenIdle_idle h]; exact hf
  · rw [whenIdle_busy h]; exact noFault_next s

theorem noFault_whenWellFormed {i : Instr} {f : State → Result} {s : State}
    (hf : i.wellFormed s.params = true → NoFault (f s)) : NoFault (whenWellFormed i f s) := by
  cases h : i.wellFormed s.params with
  | true => rw [whenWellFormed_wf h]; exact hf h
  | false => rw [whenWellFormed_not h]; exact noFault_refused _

/-! ## The byte events -/

/-- A header byte in `HDR` is stored and counted, and the fourth completes the header (R143, R144). -/
theorem execSrcByteHdr_hdr {s : State} (hp : s.phase = .hdr) (ha : s.hcnt.toNat < s.params.bufCap) (b : Byte) :
    execSrcByteHdr b s =
      if s.hcnt + 1 = 4 then completeHeader (headerByteTaken b s) else .next (headerByteTaken b s) := by
  rw [execSrcByteHdr, whenPhase_accepted hp, memWrite_next b ha]; rfl

/-- A payload byte in `PAY` is stored and counted, and the last completes the payload (R147, R148). -/
theorem execSrcBytePay_pay {s : State} (hp : s.phase = .pay) (ha : 4 + s.pcnt.toNat < s.params.bufCap) (b : Byte) :
    execSrcBytePay b s =
      if (s.pcnt + 1).toNat + 4 = s.len.toNat then completePayload (payloadByteTaken b s)
      else .next (payloadByteTaken b s) := by
  rw [execSrcBytePay, whenPhase_accepted hp, memWrite_next b ha]; rfl

/-- Header completion reads the four header cells, which `HCNT` counts (R144). -/
theorem noFault_completeHeader {s : State} (h : StoreInv s) (hc : s.hcnt = 4) : NoFault (completeHeader s) := by
  have hw := h.headerWritten
  rw [hc] at hw
  obtain ⟨hd, hb⟩ := exists_header_of_written hw
  exact noFault_of_eq_next (completeHeader_next hb)

/-- The "ERR " test reads four cells of the payload, and only where the payload has them (R148). -/
theorem noFault_completePayload {s : State} (hw : Written s.buf 4 (s.len.toNat - 4)) : NoFault (completePayload s) := by
  by_cases h8 : 8 ≤ s.len.toNat
  · have hq : Written s.buf 4 4 := hw.mono (le_refl 4) (by omega)
    obtain ⟨q, hq⟩ := Option.isSome_iff_exists.1 (Memory.readRange_isSome.2 hq)
    exact noFault_of_eq_next (completePayload_tested h8 hq)
  · exact noFault_of_eq_next (completePayload_short (by omega))

theorem noFault_execSrcByteHdr {s : State} (h : Inv s) (b : Byte) : NoFault (execSrcByteHdr b s) := by
  by_cases hp : s.phase = .hdr
  · obtain ⟨h3, -⟩ := h.inHdr hp
    have hcap := valid_four_le_bufCap h.paramsValid
    rw [execSrcByteHdr_hdr hp (by omega)]
    split
    · exact noFault_completeHeader (storeInv_headerByteTaken h.store h3 b) ‹_›
    · exact noFault_next _
  · exact noFault_of_eq_next (whenPhase_refused hp _)

theorem noFault_execSrcBytePay {s : State} (h : Inv s) (b : Byte) : NoFault (execSrcBytePay b s) := by
  by_cases hp : s.phase = .pay
  · obtain ⟨-, -, -, hm, hn, -⟩ := h.inPay hp
    obtain ⟨-, -, hcap⟩ := h.paramsValid
    rw [execSrcBytePay_pay hp (by omega)]
    split
    · obtain ⟨-, -, hc, hw⟩ := payloadByteTaken_inPay h hp b
      exact noFault_completePayload (hw.mono (le_refl 4) (by show 4 + (s.len.toNat - 4) ≤ _; omega))
    · exact noFault_next _
  · exact noFault_of_eq_next (whenPhase_refused hp _)

/-! ## The whole frames -/

/-- The header of a whole frame has its four cells (R8). -/
theorem noFault_headerFrame {hd : Header} {ends : State → State} {s : State} (hv : s.params.Valid) :
    NoFault (whenIdle (fun s => andThen (takeHeader hd s) fun t => .next (ends t)) s) := by
  refine noFault_whenIdle ?_
  rw [takeHeader_next hd hv]
  exact noFault_next _

/-- The payload of a whole frame within `MAX_DECLARED` lies in BUF (R8, R131). -/
theorem noFault_payloadFrame {hd : Header} {p : List Byte} {l off n : Word16} {k : OutKind} {s : State}
    (hv : s.params.Valid) (hn : 4 + p.length ≤ s.params.maxDeclared) :
    NoFault (whenIdle (fun s => andThen (takeHeader hd s) fun t =>
      andThen (takePayload p { t with len := l }) fun u => .next (finish k off n u)) s) := by
  refine noFault_whenIdle ?_
  have hcap := hv.2.2
  rw [takeHeader_next hd hv, andThen_next, takePayload_next (by simp only [startDecode_params]; omega)]
  exact noFault_next _

/-! ## Every instruction, and every step -/

/-- No instruction faults from a state that meets the invariant, decoded or not. -/
theorem noFault_exec {s : State} (h : Inv s) (i : Instr) : NoFault (exec i s) := by
  have hv := h.paramsValid
  cases i with
  | flush | delim | responseEnd | rsvd3 => exact noFault_headerFrame hv
  | overmax | nonhex => exact noFault_whenWellFormed fun _ => noFault_headerFrame hv
  | data hd p =>
    refine noFault_whenWellFormed fun hw => ?_
    obtain ⟨l, -, hn, hm⟩ := wellFormed_data hw
    exact noFault_payloadFrame hv (by omega)
  | errline hd txt =>
    refine noFault_whenWellFormed fun hw => ?_
    obtain ⟨l, -, hn, hm⟩ := wellFormed_errline hw
    have hlen : (Config.errMagic ++ txt).length = txt.length + 4 := by simp [Config.errMagic]
    exact noFault_payloadFrame hv (by omega)
  | sbPack | sbProgress | sbFatal | hexenc | encFlush | encDelim | encResponseEnd => exact noFault_giveAnswer _ s
  | sbInvalid | hexdigDec | hexdigUpper | hexdigLower | hexdigNone =>
    exact noFault_whenWellFormed fun _ => noFault_giveAnswer _ s
  | reset => exact noFault_next _
  | pull | srcEoiHdr | srcEoiPay | srcFailHdr | srcFailPay => exact noFault_whenPhase_next _ _ s
  | srcByteHdr b => exact noFault_execSrcByteHdr h b
  | srcBytePay b => exact noFault_execSrcBytePay h b
  | srcRsvd => exact noFault_refused _
  | encLength | encFrame | encSideband =>
    simp only [exec, execEncLength, execEncFrame, execEncSideband]
    split
    · exact noFault_giveAnswer _ s
    · exact noFault_refused _

/-- Settles O43: the fetch keeps the invariant, under which no instruction faults. -/
theorem noFaultUnderTheInvariant : Obligations.NoFaultUnderTheInvariant := by
  intro s f h
  obtain ⟨t, -, hs⟩ | ⟨i, t, hf, hs⟩ := step_cases s <;> rw [hs]
  · exact noFault_next t f
  · have ht := h.fetch
    rw [hf] at ht
    exact noFault_exec ht i f

end Sys2Proof.Machine
end

section
/-! The frames of the events in BUF and the registers, and what the read port shows (spec/20_memory.md R52, R53). -/

namespace Sys2Proof.Machine

/-- The states differ in `PHASE` and the outcome registers at most. -/
structure SameButOutcome (s t : State) : Prop where
  buf : t.buf = s.buf
  environment : SameEnvironment s t
  len : t.len = s.len
  consumed : t.consumed = s.consumed
  hcnt : t.hcnt = s.hcnt
  pcnt : t.pcnt = s.pcnt

theorem sameEnvironment_refl (s : State) : SameEnvironment s s := ⟨rfl, rfl, rfl, rfl⟩

theorem SameButOutcome.refl (s : State) : SameButOutcome s s := ⟨rfl, sameEnvironment_refl s, rfl, rfl, rfl, rfl⟩

/-- `Finish` writes `PHASE` and the outcome registers (R146). -/
theorem sameButOutcome_finish (k : OutKind) (off n : Word16) (s : State) : SameButOutcome s (finish k off n s) :=
  ⟨rfl, sameEnvironment_refl s, rfl, rfl, rfl, rfl⟩

theorem sameButOutcome_raiseFailure (k : OutKind) (s : State) : SameButOutcome s (raiseFailure k s) := by
  cases k <;> exact sameButOutcome_finish _ _ _ s

theorem sameButOutcome_afterPayload (isErr : Bool) (s : State) : SameButOutcome s (afterPayload isErr s) := by
  cases isErr <;> exact sameButOutcome_finish _ _ _ s

/-! ## The storing events -/

/-- Storing one byte leaves it at its address and every other address as it was. -/
theorem frame_of_buf_write {s t : State} {a : Nat} {b : Byte} (h : t.buf = s.buf.write a b) :
    SameOutside s t a 1 ∧ t.buf.read a = some b := by
  constructor
  · intro x hx
    rw [h, Memory.read_write_other s.buf b (by omega)]
  · rw [h, Memory.read_write_same]

/-- A header byte is stored and counted; only the fourth does more, and that in `LEN`, `PCNT`, `PHASE` and the
outcome registers (R143, R144). -/
theorem execSrcByteHdr_frame {s t : State} {b : Byte} (hp : s.phase = .hdr) (h : execSrcByteHdr b s = .next t) :
    t.buf = s.buf.write s.hcnt.toNat b ∧ t.hcnt = s.hcnt + 1 ∧ t.consumed = s.consumed + 1 ∧ SameEnvironment s t ∧
    (t.pcnt = s.pcnt ∨ t.pcnt = 0) ∧ (s.hcnt ≠ 3 → t = headerByteTaken b s) := by
  obtain ⟨hn, -⟩ | ⟨-, ht⟩ := execSrcByteHdr_eq_next h
  · exact absurd hp hn
  · split at ht
    · obtain ⟨hd, -, rfl⟩ := completeHeader_eq_next ht
      obtain ⟨hbuf, hhcnt, hcons, hparams, hsource, hmoves, hanswer, hpcnt⟩ := afterHeader_frame
        (classify (headerByteTaken b s).params (lenParse hd)) ((lenParse hd).getD 0) (headerByteTaken b s)
      exact ⟨hbuf, hhcnt, hcons, ⟨hparams, hsource, hmoves, hanswer⟩, hpcnt,
        fun h3 => absurd ((hcnt_succ_eq_four s.hcnt).1 ‹_›) h3⟩
    · subst ht
      exact ⟨rfl, rfl, rfl, sameEnvironment_refl s, .inl rfl, fun _ => rfl⟩

/-- A payload byte is stored and counted; only the last does more, and that in `PHASE` and the outcome registers
(R147, R148). -/
theorem execSrcBytePay_frame {s t : State} {b : Byte} (hp : s.phase = .pay) (h : execSrcBytePay b s = .next t) :
    SameButOutcome (payloadByteTaken b s) t ∧
    ((s.pcnt + 1).toNat + 4 ≠ s.len.toNat → t = payloadByteTaken b s) := by
  obtain ⟨hn, -⟩ | ⟨-, ht⟩ := execSrcBytePay_eq_next h
  · exact absurd hp hn
  · split at ht
    · obtain ⟨isErr, rfl, -⟩ := completePayload_eq_next ht
      exact ⟨sameButOutcome_afterPayload isErr _, fun hne => absurd ‹_› hne⟩
    · subst ht
      exact ⟨.refl _, fun _ => rfl⟩

/-- Settles O30: each event stores its byte at its counter's address, and a completion touches neither BUF nor what
the events have counted. -/
theorem byteEventsStoreOneByteAndNothingElse : Obligations.ByteEventsStoreOneByteAndNothingElse := by
  intro s t b
  refine ⟨fun hp h => ?hdr, fun hp h => ?pay⟩
  case hdr =>
    obtain ⟨hbuf, hhcnt, hcons, henv, hpcnt, hlast⟩ := execSrcByteHdr_frame hp h
    obtain ⟨hout, hread⟩ := frame_of_buf_write hbuf
    refine ⟨hout, hread, hhcnt, hcons, henv, hpcnt, fun h3 => ?_⟩
    rw [hlast h3]
    exact ⟨rfl, rfl, rfl, rfl, rfl, rfl, rfl⟩
  case pay =>
    obtain ⟨⟨hbuf, henv, hlen, hcons, hhcnt, hpcnt⟩, hlast⟩ := execSrcBytePay_frame hp h
    obtain ⟨hout, hread⟩ := frame_of_buf_write (s := s) hbuf
    refine ⟨hout, hread, hpcnt, hcons, henv, hhcnt, hlen, fun hne => ?_⟩
    rw [hlast hne]
    exact ⟨rfl, rfl, rfl, rfl, rfl⟩

/-! ## The events that store nothing -/

/-- A source end raises a failure in its phase and does nothing in another (R145, R149, R150). -/
theorem sameButOutcome_of_sourceEnd {ph : Phase} (k : State → OutKind) {s t : State}
    (h : whenPhase ph (fun s => .next (raiseFailure (k s) s)) s = .next t) : SameButOutcome s t := by
  obtain ⟨-, rfl⟩ | ⟨-, ht⟩ := whenPhase_eq_next h
  · exact .refl _
  · cases ht
    exact sameButOutcome_raiseFailure (k s) s

theorem sameButOutcome_of_exec_sourceEnd {s t : State} {i : Instr}
    (hi : i ∈ [Instr.srcEoiHdr, .srcEoiPay, .srcFailHdr, .srcFailPay]) (h : exec i s = .next t) :
    SameButOutcome s t := by
  simp only [List.mem_cons, List.not_mem_nil, or_false] at hi
  obtain rfl | rfl | rfl | rfl := hi
  · exact sameButOutcome_of_sourceEnd (fun s => if s.hcnt = 0 then .endOfInput else .truncated) h
  · exact sameButOutcome_of_sourceEnd (fun _ => .truncated) h
  · exact sameButOutcome_of_sourceEnd (fun _ => .sourceFailure) h
  · exact sameButOutcome_of_sourceEnd (fun _ => .sourceFailure) h

/-- Settles O31: `RESET`, `PULL` and the source ends, each by the registers its rule writes. -/
theorem otherEventsLeaveBufAndTheRestAlone : Obligations.OtherEventsLeaveBufAndTheRestAlone := by
  intro s t i hi h
  obtain rfl | hi := List.mem_cons.1 hi
  · cases h
    exact ⟨fun _ => rfl, sameEnvironment_refl s, fun hn => absurd rfl hn, nofun, fun hn => absurd rfl hn⟩
  · obtain rfl | hi := List.mem_cons.1 hi
    · cases effect_of_execPull h with
      | notAccepted | pull =>
        exact ⟨fun _ => rfl, sameEnvironment_refl s, fun _ => ⟨rfl, rfl⟩, fun _ => ⟨rfl, rfl⟩,
          fun _ hn => absurd rfl hn⟩
      | answered r hh hev => exact absurd rfl hev
    · obtain ⟨hbuf, henv, hlen, hcons, hhcnt, hpcnt⟩ := sameButOutcome_of_exec_sourceEnd hi h
      have hpull : i ≠ .pull := by rintro rfl; simp at hi
      exact ⟨fun _ => by rw [hbuf], henv, fun _ => ⟨hlen, hcons⟩, fun hn => absurd hn hpull, fun _ _ => ⟨hhcnt, hpcnt⟩⟩

/-! ## The read port -/

/-- In `IDLE` and below `BUF_CAP` the port reads the cell (R53 (a), (b)). -/
theorem readPort_idle {s : State} {a : BitVec 16} (hp : s.phase = .idle) (ha : a.toNat < s.params.bufCap) :
    s.readPort a = s.buf.read a.toNat := if_pos ⟨hp, ha⟩

theorem readPort_busy {s : State} (hp : s.phase ≠ .idle) (a : BitVec 16) : s.readPort a = none :=
  if_neg fun h => hp h.1

theorem readPort_above {s : State} {a : BitVec 16} (ha : s.params.bufCap ≤ a.toNat) : s.readPort a = none :=
  if_neg fun h => Nat.not_lt.2 ha h.2

theorem readPort_unwritten {s : State} {a : BitVec 16} (h : s.buf.read a.toNat = none) : s.readPort a = none := by
  rw [State.readPort, h, ite_self]

/-- Where the read is specified the draw does not show. -/
theorem rdData_of_readPort {s : State} {a : BitVec 16} {b : Byte} (h : s.readPort a = some b) (draw : Nat) :
    s.rdData draw a = b := by
  rw [State.rdData, h, Option.getD_some]

/-- Settles O47, one clause per case of R53. -/
theorem readPortShowsTheLastByteWritten : Obligations.ReadPortShowsTheLastByteWritten := by
  intro s a draw
  refine ⟨fun b hp ha hb => ?_, readPort_unwritten, fun hp => readPort_busy hp a, readPort_above⟩
  have hport : s.readPort a = some b := (readPort_idle hp ha).trans hb
  exact ⟨hport, rdData_of_readPort hport draw⟩

end Sys2Proof.Machine
end

section
/-! The class of a header (spec/30_encoding.md R76 to R78, R80; spec/41_length_classifier.md R120). -/

namespace Sys2Proof.Machine

/-- The length field has a value exactly when all four bytes are hex digits (R105). -/
theorem lenParse_isSome (h : Header) : (lenParse h).isSome = h.bytes.all isHexDigit := by
  simp only [Header.bytes, List.all_cons, List.all_nil, ← hexDecode_isSome, lenParse]
  cases hexDecode h.c0 <;> cases hexDecode h.c1 <;> cases hexDecode h.c2 <;> cases hexDecode h.c3 <;> rfl

theorem lenParse_eq_none {h : Header} : lenParse h = none ↔ ∃ b ∈ h.bytes, isHexDigit b = false := by
  rw [← Option.not_isSome_iff_eq_none, lenParse_isSome]
  simp

/-- A value below 10 has one spelling (R77, R78). -/
theorem lenParse_eq_some_small {h h' : Header} {l : Word16} (h9 : l.toNat ≤ 9) (hl : lenParse h' = some l) :
    lenParse h = some l ↔ h = h' :=
  ⟨fun h => header_eq_of_lenParse h hl h9, fun h => h ▸ hl⟩

/-- Settles O4: each class's condition on the parsed value, and for the four control values their one spelling. -/
theorem everyHeaderIsInTheClassOfItsValue : Obligations.EveryHeaderIsInTheClassOfItsValue := by
  intro P h hv
  refine ⟨?nonhex, ?flush, ?delim, ?responseEnd, ?rsvd3, ?overmax, fun n => ?data⟩
  case nonhex => exact classify_nonhex.trans lenParse_eq_none
  case flush => exact classify_flush.trans (lenParse_eq_some_small (by decide) lenParse_flush)
  case delim => exact classify_delim.trans (lenParse_eq_some_small (by decide) lenParse_delim)
  case responseEnd => exact classify_responseEnd.trans (lenParse_eq_some_small (by decide) lenParse_responseEnd)
  case rsvd3 => exact classify_rsvd3.trans (lenParse_eq_some_small (by decide) lenParse_rsvd3)
  case overmax => exact classify_overmax hv.1
  case data =>
    rw [classify_data]
    refine exists_congr fun l => and_congr_right fun _ => ?_
    omega

end Sys2Proof.Machine
end

section
/-! The frame decoder and the wire bytes of a frame: what it reads is well-formed, it reads every well-formed frame
back, and what follows the frame does not matter to it (spec/30_encoding.md R76, R81). -/

namespace Sys2Proof.Machine

/-! ## Well-formed terms with a header, from the header's class -/

/-- For any parameters, R8's constraints or not, an `OVERMAX` header spells more than the maximum. -/
theorem maxDeclared_lt_of_classify_overmax {P : Params} {r : Option Word16} (h : classify P r = .overmax) :
    ∃ l, r = some l ∧ P.maxDeclared < l.toNat := by
  cases r with
  | none => cases h
  | some l =>
    refine ⟨l, rfl, ?_⟩
    by_contra hm
    simp only [classify, if_neg hm] at h
    split_ifs at h

theorem wellFormed_overmax_of_class {P : Params} {hd : Header} (h : classify P (lenParse hd) = .overmax) :
    (Instr.overmax hd).wellFormed P = true := by
  obtain ⟨l, hl, hm⟩ := maxDeclared_lt_of_classify_overmax h
  simp [Instr.wellFormed, hl, hm]

theorem wellFormed_nonhex_of_class {P : Params} {hd : Header} (h : classify P (lenParse hd) = .nonhex) :
    (Instr.nonhex hd).wellFormed P = true := by
  simp [Instr.wellFormed, classify_nonhex.1 h]

theorem wellFormed_data_of_class {P : Params} {hd : Header} {p : List Byte}
    (h : classify P (lenParse hd) = .data p.length) (he : startsWithErr p = false) :
    (Instr.data hd p).wellFormed P = true := by
  obtain ⟨l, hl, hn, hm⟩ := classify_data.1 h
  have h4 : 4 ≤ l.toNat := by omega
  simp [Instr.wellFormed, hl, he, hn, hm, h4]

theorem errMagic_append_length (txt : List Byte) : (Config.errMagic ++ txt).length = txt.length + 4 := by
  simp [Config.errMagic]

theorem wellFormed_errline_of_class {P : Params} {hd : Header} {txt : List Byte}
    (h : classify P (lenParse hd) = .data (Config.errMagic ++ txt).length) :
    (Instr.errline hd txt).wellFormed P = true := by
  obtain ⟨l, hl, hn, hm⟩ := classify_data.1 h
  have hn8 : txt.length + 8 = l.toNat := by rw [← hn, errMagic_append_length]
  simp [Instr.wellFormed, hl, hm, hn8]

theorem not_startsWithErr_of_wellFormed {P : Params} {hd : Header} {p : List Byte}
    (h : (Instr.data hd p).wellFormed P = true) : startsWithErr p = false := by
  cases hl : lenParse hd <;> simp_all [Instr.wellFormed]

/-! ## What the frame decoder answers -/

/-- The header and the payload it promises, at the front of a stream. -/
theorem decodeFrame_payload {P : Params} {hd : Header} {p : List Byte} (hc : classify P (lenParse hd) = .data p.length)
    (rest : List Byte) : decodeFrame P (hd.bytes ++ (p ++ rest)) =
      .ok (if startsWithErr p then .errline hd (p.drop 4) else .data hd p, rest) := by
  rw [decodeFrame_header, hc]
  simp only [List.length_append, List.take_left, List.drop_left]
  rw [if_neg (by omega)]
  split <;> rfl

/-- Everything the frame decoder can answer on a stream that begins with a header: a frame that is its header alone,
or the header with all the payload it promises. -/
theorem decodeFrame_header_cases {P : Params} {hd : Header} {tail rest : List Byte} {i : Instr}
    (h : decodeFrame P (hd.bytes ++ tail) = .ok (i, rest)) :
    (tail = rest ∧ i.wellFormed P = true ∧ ∀ more, decodeFrame P (hd.bytes ++ more) = .ok (i, more)) ∨
    (∃ p, tail = p ++ rest ∧ classify P (lenParse hd) = .data p.length ∧
      i = if startsWithErr p then .errline hd (p.drop 4) else .data hd p) := by
  rw [decodeFrame_header] at h
  cases hc : classify P (lenParse hd) <;> simp only [hc] at h
  case flush | delim | responseEnd | rsvd3 =>
    cases h
    exact .inl ⟨rfl, rfl, fun more => by rw [decodeFrame_header, hc]⟩
  case nonhex =>
    cases h
    exact .inl ⟨rfl, wellFormed_nonhex_of_class hc, fun more => by rw [decodeFrame_header, hc]⟩
  case overmax =>
    cases h
    exact .inl ⟨rfl, wellFormed_overmax_of_class hc, fun more => by rw [decodeFrame_header, hc]⟩
  case data n =>
    split at h
    · cases h
    · have hn : (tail.take n).length = n := List.length_take_of_le (by omega)
      have ht : tail = tail.take n ++ tail.drop n := (List.take_append_drop n tail).symm
      split at h
      · cases h; exact .inr ⟨_, ht, by rw [hn], (if_pos ‹_›).symm⟩
      · cases h; exact .inr ⟨_, ht, by rw [hn], (if_neg ‹_›).symm⟩

/-- A payload term is well-formed when the header promises just this payload. -/
theorem wellFormed_payload {P : Params} {hd : Header} {p : List Byte} (hc : classify P (lenParse hd) = .data p.length) :
    (if startsWithErr p then Instr.errline hd (p.drop 4) else .data hd p).wellFormed P = true := by
  split
  case isTrue he =>
    obtain ⟨txt, rfl⟩ := startsWithErr_iff.1 he
    exact wellFormed_errline_of_class hc
  case isFalse he => exact wellFormed_data_of_class hc (Bool.eq_false_of_not_eq_true he)

/-- What the frame decoder reads is well-formed. -/
theorem decodeFrame_wellFormed {P : Params} {bs rest : List Byte} {i : Instr} (h : decodeFrame P bs = .ok (i, rest)) :
    i.wellFormed P = true := by
  match bs, h with
  | c0 :: c1 :: c2 :: c3 :: tail, h =>
    obtain ⟨-, hw, -⟩ | ⟨p, -, hc, rfl⟩ := decodeFrame_header_cases (hd := ⟨c0, c1, c2, c3⟩) h
    · exact hw
    · exact wellFormed_payload hc

/-- Bytes after those the frame decoder has seen stay for the next frame (R81). -/
theorem decodeFrame_append {P : Params} {bs rest : List Byte} {i : Instr} (h : decodeFrame P bs = .ok (i, rest))
    (more : List Byte) : decodeFrame P (bs ++ more) = .ok (i, rest ++ more) := by
  match bs, h with
  | c0 :: c1 :: c2 :: c3 :: tail, h =>
    show decodeFrame P (Header.bytes ⟨c0, c1, c2, c3⟩ ++ (tail ++ more)) = _
    obtain ⟨rfl, -, hmore⟩ | ⟨p, rfl, hc, rfl⟩ := decodeFrame_header_cases (hd := ⟨c0, c1, c2, c3⟩) h
    · exact hmore _
    · rw [List.append_assoc, decodeFrame_payload hc]

theorem wireBytes_data_append (hd : Header) (p rest : List Byte) :
    wireBytes (.data hd p) ++ rest = hd.bytes ++ (p ++ rest) := List.append_assoc ..

theorem wireBytes_errline_append (hd : Header) (txt rest : List Byte) :
    wireBytes (.errline hd txt) ++ rest = hd.bytes ++ (Config.errMagic ++ txt ++ rest) := List.append_assoc ..

/-- The frame decoder reads every well-formed frame back from its wire bytes, and leaves the rest (R76, R81). -/
theorem decodeFrame_wireBytes {P : Params} (hv : P.Valid) {i : Instr} (hi : i.format = .h)
    (hw : i.wellFormed P = true) (rest : List Byte) : decodeFrame P (wireBytes i ++ rest) = .ok (i, rest) := by
  cases i with
  | flush => exact (decodeFrame_header P Header.flush rest).trans (by rw [classify_flush.2 lenParse_flush])
  | delim => exact (decodeFrame_header P Header.delim rest).trans (by rw [classify_delim.2 lenParse_delim])
  | responseEnd =>
    exact (decodeFrame_header P Header.responseEnd rest).trans (by rw [classify_responseEnd.2 lenParse_responseEnd])
  | rsvd3 => exact (decodeFrame_header P Header.rsvd3 rest).trans (by rw [classify_rsvd3.2 lenParse_rsvd3])
  | overmax hd =>
    exact (decodeFrame_header P hd rest).trans (by rw [(classify_overmax hv.1).2 (wellFormed_overmax hw)])
  | nonhex hd => exact (decodeFrame_header P hd rest).trans (by rw [classify_nonhex.2 (wellFormed_nonhex hw)])
  | data hd p =>
    have hc : classify P (lenParse hd) = .data p.length := classify_data.2 (wellFormed_data hw)
    have he : ¬ startsWithErr p = true := by simp [not_startsWithErr_of_wellFormed hw]
    rw [wireBytes_data_append, decodeFrame_payload hc, if_neg he]
  | errline hd txt =>
    obtain ⟨l, hl, hn, hm⟩ := wellFormed_errline hw
    have hc : classify P (lenParse hd) = .data (Config.errMagic ++ txt).length :=
      classify_data.2 ⟨l, hl, by rw [errMagic_append_length, hn], hm⟩
    have he : startsWithErr (Config.errMagic ++ txt) = true := startsWithErr_iff.2 ⟨txt, rfl⟩
    rw [wireBytes_errline_append, decodeFrame_payload hc, if_pos he]; rfl
  | sbPack | sbProgress | sbFatal | sbInvalid | hexdigDec | hexdigUpper | hexdigLower | hexdigNone | reset | pull |
    srcByteHdr | srcBytePay | srcEoiHdr | srcEoiPay | srcFailHdr | srcFailPay | srcRsvd | hexenc | encLength |
    encFrame | encFlush | encDelim | encResponseEnd | encSideband => cases hi

/-- Settles O3: the decoder reads wire bytes, and reads them back. -/
theorem frameDecodingSplitsTheStreamExactly : Obligations.FrameDecodingSplitsTheStreamExactly := by
  intro P bs rest i hv
  constructor
  · intro h
    obtain ⟨hi, hbs⟩ := decodeFrame_eq_ok h
    exact ⟨hi, decodeFrame_wellFormed h, hbs⟩
  · rintro ⟨hi, hw, rfl⟩
    exact decodeFrame_wireBytes hv hi hw rest

end Sys2Proof.Machine
end

section
/-! The decoder and the encoder undo each other, format by format (spec/30_encoding.md R70, R76, R83, R88, R89). -/

namespace Sys2Proof.Machine

/-! ## A whole frame -/

theorem encode_of_frame {i : Instr} (hi : i.format = .h) : encode i = .frame (wireBytes i) := by
  cases i <;> cases hi <;> rfl

/-- A frame signal is one whole frame with no byte left over. -/
theorem decode_frame_eq_ok {P : Params} {ph : Phase} {bs : List Byte} {i : Instr} :
    decode P ph (.frame bs) = .ok i ↔ decodeFrame P bs = .ok (i, []) := by
  simp only [decode]
  split <;> simp_all

theorem decode_encode_frame {P : Params} (hv : P.Valid) (ph : Phase) {i : Instr} (hi : i.format = .h)
    (hw : i.wellFormed P = true) : decode P ph (encode i) = .ok i := by
  rw [encode_of_frame hi, decode_frame_eq_ok]
  simpa using decodeFrame_wireBytes hv hi hw []

/-! ## A sideband message -/

theorem decodeMessage_untagged {p : List Byte} {P : Params} (h : (Instr.sbInvalid p).wellFormed P = true) :
    decodeMessage p = .sbInvalid p := by
  cases p with
  | nil => rfl
  | cons b rest =>
    have hb : tagOfByte b = .invalid := by simpa [Instr.wellFormed] using h
    simp [decodeMessage, hb]

theorem encode_decodeMessage (p : List Byte) : encode (decodeMessage p) = .message p := by
  cases p with
  | nil => rfl
  | cons b rest =>
    cases hb : tagOfByte b <;> simp only [decodeMessage, hb, encode]
    case pack => rw [tagOfByte_pack.1 hb]
    case progress => rw [tagOfByte_progress.1 hb]
    case fatal => rw [tagOfByte_fatal.1 hb]

theorem decodeMessage_wellFormed (P : Params) (p : List Byte) : (decodeMessage p).wellFormed P = true := by
  cases p with
  | nil => rfl
  | cons b rest => cases hb : tagOfByte b <;> simp [decodeMessage, hb, Instr.wellFormed]

/-! ## A digit -/

theorem isDecDigit_of_isLowerDigit : ∀ b, isLowerDigit b = true → isDecDigit b = false := by decide

theorem isDecDigit_of_isUpperDigit : ∀ b, isUpperDigit b = true → isDecDigit b = false := by decide

theorem isLowerDigit_of_isUpperDigit : ∀ b, isUpperDigit b = true → isLowerDigit b = false := by decide

theorem decodeDigit_dec {b : Byte} (h : isDecDigit b = true) : decodeDigit b = .hexdigDec b := by
  simp [decodeDigit, h]

theorem decodeDigit_lower {b : Byte} (h : isLowerDigit b = true) : decodeDigit b = .hexdigLower b := by
  simp [decodeDigit, h, isDecDigit_of_isLowerDigit b h]

theorem decodeDigit_upper {b : Byte} (h : isUpperDigit b = true) : decodeDigit b = .hexdigUpper b := by
  simp [decodeDigit, h, isDecDigit_of_isUpperDigit b h, isLowerDigit_of_isUpperDigit b h]

theorem decodeDigit_none {b : Byte} (h : isHexDigit b = false) : decodeDigit b = .hexdigNone b := by
  simp_all [decodeDigit, isHexDigit]

theorem encode_decodeDigit (b : Byte) : encode (decodeDigit b) = .digit b := by
  simp only [decodeDigit]
  split_ifs <;> rfl

theorem decodeDigit_wellFormed (P : Params) (b : Byte) : (decodeDigit b).wellFormed P = true := by
  simp only [decodeDigit]
  split_ifs <;> simp [Instr.wellFormed, isHexDigit, *]

/-! ## A reference call -/

theorem encode_decodeCall (f : RefCall) : encode (decodeCall f) = .call f := by cases f <;> rfl

theorem decodeCall_wellFormed (P : Params) (f : RefCall) : (decodeCall f).wellFormed P = true := by cases f <;> rfl

/-! ## The phase -/

/-- Only the events of the source depend on the phase. -/
theorem fitsPhase_of_format {i : Instr} (h : i.format ≠ .ev) (ph : Phase) : i.fitsPhase ph = true := by
  cases i <;> simp_all [Instr.fitsPhase, Instr.format]

/-! ## The statements -/

/-- Settles O1: a frame by its wire bytes, a message by its tag, a digit by its class, a source event by its phase. -/
theorem decodeOfEncodeIsTheInstruction : Obligations.DecodeOfEncodeIsTheInstruction := by
  intro P ph i hv hw hp
  cases i with
  | flush | delim | responseEnd | rsvd3 | data | errline | overmax | nonhex => exact decode_encode_frame hv ph rfl hw
  | sbPack | sbProgress | sbFatal => rfl
  | sbInvalid p => exact congrArg Except.ok (decodeMessage_untagged hw)
  | hexdigDec b => exact congrArg Except.ok (decodeDigit_dec hw)
  | hexdigUpper b => exact congrArg Except.ok (decodeDigit_upper hw)
  | hexdigLower b => exact congrArg Except.ok (decodeDigit_lower hw)
  | hexdigNone b => exact congrArg Except.ok (decodeDigit_none (by simpa [Instr.wellFormed] using hw))
  | srcByteHdr | srcEoiHdr | srcFailHdr => rw [eq_of_beq (b := Phase.hdr) hp]; rfl
  | srcBytePay | srcEoiPay | srcFailPay => rw [eq_of_beq (b := Phase.pay) hp]; rfl
  | reset | pull | srcRsvd => rfl
  | hexenc | encLength | encFrame | encFlush | encDelim | encResponseEnd | encSideband => rfl

/-- Settles O2, one case per format of the signal. -/
theorem decodedInstructionEncodesBack : Obligations.DecodedInstructionEncodesBack := by
  intro P ph g i h
  cases g with
  | frame bs =>
    have hd := decode_frame_eq_ok.1 h
    obtain ⟨hi, hbs⟩ := decodeFrame_eq_ok hd
    refine ⟨decodeFrame_wellFormed hd, fitsPhase_of_format (by simp [hi]) ph, hi, .inl ?_⟩
    rw [encode_of_frame hi, hbs, List.append_nil]
  | message p =>
    cases h
    have hi := decodeMessage_format p
    exact ⟨decodeMessage_wellFormed P p, fitsPhase_of_format (by simp [hi]) ph, hi, .inl (encode_decodeMessage p)⟩
  | digit b =>
    cases h
    have hi := decodeDigit_format b
    exact ⟨decodeDigit_wellFormed P b, fitsPhase_of_format (by simp [hi]) ph, hi, .inl (encode_decodeDigit b)⟩
  | call f =>
    cases h
    have hi := decodeCall_format f
    exact ⟨decodeCall_wellFormed P f, fitsPhase_of_format (by simp [hi]) ph, hi, .inl (encode_decodeCall f)⟩
  | rst | pullReq => cases h; exact ⟨rfl, rfl, rfl, .inl rfl⟩
  | src k d =>
    obtain ⟨rfl, rfl⟩ | ⟨rfl, ⟨rfl, rfl⟩ | ⟨rfl, rfl⟩ | ⟨rfl, rfl⟩⟩ | ⟨rfl, ⟨rfl, rfl⟩ | ⟨rfl, rfl⟩ | ⟨rfl, rfl⟩⟩ :=
      decodeSrc_eq_ok h
    case inl | inr.inl.inr.inl | inr.inl.inr.inr | inr.inr.inr.inl | inr.inr.inr.inr =>
      exact ⟨rfl, rfl, rfl, .inr ⟨_, d, by decide, rfl, rfl⟩⟩
    case inr.inl.inl | inr.inr.inl => exact ⟨rfl, rfl, rfl, .inl rfl⟩

end Sys2Proof.Machine
end

section
/-! The words of the opcode table, placed and run, and the reserved source kind (spec/30_encoding.md R88, R89, R92). -/

namespace Sys2Proof.Machine

theorem decodeTableWordFor_eq_some {P : Params} {nbits w : Nat} {i : Instr} :
    decodeTableWordFor P nbits w = some i ↔ decode P .hdr (tableSignal P nbits w) = .ok i := by
  simp only [decodeTableWordFor]
  split <;> simp_all

/-- A placed signal's instruction is what the next step runs, and placing and fetching leave no trace but the phase.
A source symbol is placed in `HDR`; the others are read alike in every phase. -/
theorem step_placeSignal {s : State} {g : Signal} {i : Instr} (h : decode s.params .hdr g = .ok i) :
    ∃ ph, step (placeSignal s g) = exec i { s with phase := ph } := by
  cases g with
  | frame bs =>
    have hd := decodeFrame_append (decode_frame_eq_ok.1 h) s.source.bs
    exact ⟨.idle, step_of_move_run rfl (fetchMove_call_frame rfl hd)⟩
  | message p => exact ⟨s.phase, step_of_move_signal rfl (fetchMove_demux p) h⟩
  | digit b => exact ⟨s.phase, step_of_move_signal rfl (fetchMove_digit b) h⟩
  | rst => cases h; exact ⟨s.phase, step_of_move_run rfl (fetchMove_rst _)⟩
  | pullReq => cases h; exact ⟨.idle, step_of_move_run rfl (fetchMove_pull _)⟩
  | src k d => exact ⟨.hdr, step_of_move_signal rfl (fetchMove_present k d) h⟩
  | call f => exact ⟨s.phase, step_of_move_signal rfl (fetchMove_ref f) h⟩

/-- Settles O40: the word's signal, placed. -/
theorem placedTableWordIsRunNext : Obligations.PlacedTableWordIsRunNext := by
  intro s nbits w i
  have hrun (h : decodeTableWordFor s.params nbits w = some i) :
      ∃ ph, step (s.withFetchWord nbits w) = exec i { s with phase := ph } :=
    step_placeSignal (decodeTableWordFor_eq_some.1 h)
  exact ⟨hrun, fun hP h => hrun (hP ▸ h)⟩

/-- Settles O7: closed words, decoded by evaluation. -/
theorem tableWordsDecodeToTheirRows : Obligations.TableWordsDecodeToTheirRows := by
  unfold Obligations.TableWordsDecodeToTheirRows
  decide

/-- Settles O29: the codes by the decoder's table; the reserved kind decodes to `SRC_RSVD` in every phase. -/
theorem sourceKindCodesAndTheReservedKind : Obligations.SourceKindCodesAndTheReservedKind := by
  have hrefused (s : State) : exec .srcRsvd s = .refused .reservedSrcKind := rfl
  refine ⟨fun P d => ⟨rfl, rfl, rfl, rfl, rfl, rfl⟩, hrefused, fun s d ms hm => ?_⟩
  exact (step_of_move_signal hm (fetchMove_present 3 d) rfl).trans (hrefused _)

end Sys2Proof.Machine
end

section
/-! The hex-length parser: a digit, the four digit rows and the length field (spec/40_hex_length_parser.md R100 to
R105). -/

namespace Sys2Proof.Machine

/-! ## The digit classes and their values, in numbers -/

theorem isDecDigit_iff {b : Byte} : isDecDigit b = true ↔ 0x30 ≤ b.toNat ∧ b.toNat ≤ 0x39 := by
  simp [isDecDigit, BitVec.le_def]

theorem isLowerDigit_iff {b : Byte} : isLowerDigit b = true ↔ 0x61 ≤ b.toNat ∧ b.toNat ≤ 0x66 := by
  simp [isLowerDigit, BitVec.le_def]

theorem isUpperDigit_iff {b : Byte} : isUpperDigit b = true ↔ 0x41 ≤ b.toNat ∧ b.toNat ≤ 0x46 := by
  simp [isUpperDigit, BitVec.le_def]

theorem isHexDigit_iff {b : Byte} : isHexDigit b = true ↔
    (0x30 ≤ b.toNat ∧ b.toNat ≤ 0x39) ∨ (0x61 ≤ b.toNat ∧ b.toNat ≤ 0x66) ∨ (0x41 ≤ b.toNat ∧ b.toNat ≤ 0x46) := by
  simp only [isHexDigit, Bool.or_eq_true, isDecDigit_iff, isLowerDigit_iff, isUpperDigit_iff, or_assoc]

theorem decValue_eq {b : Byte} (h : 0x30 ≤ b.toNat) : decValue b = BitVec.ofNat 4 (b.toNat - 0x30) := by
  unfold decValue
  bv_omega

theorem lowerValue_eq {b : Byte} (h : 0x61 ≤ b.toNat) : lowerValue b = BitVec.ofNat 4 (b.toNat - 0x61 + 10) := by
  unfold lowerValue
  bv_omega

theorem upperValue_eq {b : Byte} (h : 0x41 ≤ b.toNat) : upperValue b = BitVec.ofNat 4 (b.toNat - 0x41 + 10) := by
  unfold upperValue
  bv_omega

theorem hexDecode_eq_none {b : Byte} : hexDecode b = none ↔ isHexDigit b = false := by
  rw [← hexDecode_isSome, Option.isSome_eq_false_iff, Option.isNone_iff_eq_none]

/-! ## The digit rows -/

theorem exec_hexdigDec {b : Byte} (h : isDecDigit b = true) (s : State) :
    exec (.hexdigDec b) s = .next { s with answer := .nibble (some (decValue b)) } :=
  whenWellFormed_wf (i := .hexdigDec b) h _

theorem exec_hexdigUpper {b : Byte} (h : isUpperDigit b = true) (s : State) :
    exec (.hexdigUpper b) s = .next { s with answer := .nibble (some (upperValue b)) } :=
  whenWellFormed_wf (i := .hexdigUpper b) h _

theorem exec_hexdigLower {b : Byte} (h : isLowerDigit b = true) (s : State) :
    exec (.hexdigLower b) s = .next { s with answer := .nibble (some (lowerValue b)) } :=
  whenWellFormed_wf (i := .hexdigLower b) h _

theorem exec_hexdigNone {b : Byte} (h : isHexDigit b = false) (s : State) :
    exec (.hexdigNone b) s = .next { s with answer := .nibble none } :=
  whenWellFormed_wf (i := .hexdigNone b) (by simp [Instr.wellFormed, h]) _

/-! ## The statements -/

/-- Settles O6: no value means a byte of the field is no hex digit, and a value is the four nibbles assembled. -/
theorem lengthFieldValueAllOrNothing : Obligations.LengthFieldValueAllOrNothing := by
  intro h
  constructor
  · rw [lenParse_eq_none]
    simp [Header.bytes, hexDecode_eq_none]
  · intro n0 n1 n2 n3 h0 h1 h2 h3
    have hl : lenParse h = some (assembleLength n0 n1 n2 n3) :=
      lenParse_eq_some.2 ⟨n0, n1, n2, n3, h0, h1, h2, h3, rfl⟩
    exact ⟨_, hl, assembleLength_toNat n0 n1 n2 n3⟩

/-- Settles O5, one case per digit class and one for the bytes outside all three. -/
theorem hexDecodeOfEveryByte : Obligations.HexDecodeOfEveryByte := by
  intro b
  refine ⟨fun h => ?dec, fun h => ?lower, fun h => ?upper, fun h => ?none⟩
  case dec => rw [hexDecode_dec (isDecDigit_iff.2 h), decValue_eq h.1]
  case lower => rw [hexDecode_lower b (isLowerDigit_iff.2 h), lowerValue_eq h.1]
  case upper => rw [hexDecode_upper b (isUpperDigit_iff.2 h), upperValue_eq h.1]
  case none =>
    have hout : ¬ isHexDigit b = true := by rw [isHexDigit_iff]; omega
    exact hexDecode_none (Bool.eq_false_of_not_eq_true hout)

/-- Settles O8, one digit row per case. -/
theorem hexDigitRowsReturnTheNibble : Obligations.HexDigitRowsReturnTheNibble := by
  intro b s
  refine ⟨fun h => ?dec, fun h => ?upper, fun h => ?lower, fun h => exec_hexdigNone h s⟩
  case dec => rw [exec_hexdigDec (isDecDigit_iff.2 h), decValue_eq h.1]
  case upper => rw [exec_hexdigUpper (isUpperDigit_iff.2 h), upperValue_eq h.1]
  case lower => rw [exec_hexdigLower (isLowerDigit_iff.2 h), lowerValue_eq h.1]

end Sys2Proof.Machine
end

section
/-! The frames that are a header alone: the control frames and the headers that are no length, taken whole
(spec/41_length_classifier.md R121 to R125, R127). -/

namespace Sys2Proof.Machine

/-- `Finish` publishes its kind and its view (R146). -/
theorem published_finish (k : OutKind) (off n : Word16) (s : State) :
    Published (finish k off n s) k off.toNat n.toNat := ⟨rfl, rfl, rfl, rfl, rfl⟩

/-! ## The header taken whole -/

theorem holds_headerTaken (hd : Header) (s : State) : Holds (headerTaken hd s) 0 hd.bytes :=
  Memory.readRange_writeAll s.buf 0 hd.bytes

theorem sameOutside_headerTaken (hd : Header) (s : State) : SameOutside s (headerTaken hd s) 0 4 :=
  fun _ hx => Memory.read_writeAll_outside s.buf hd.bytes hx

theorem sameEnvironment_headerTaken (hd : Header) (s : State) : SameEnvironment s (headerTaken hd s) :=
  ⟨rfl, rfl, rfl, rfl⟩

/-! ## An outcome at the header's end -/

/-- The header is taken, `LEN` written, and `Finish(k, 0, n)` ends the decode; R121 to R125 and R127 differ in `k`,
`LEN` and `n` only. -/
def headerFinished (hd : Header) (k : OutKind) (l n : Word16) (s : State) : State :=
  finish k 0 n { headerTaken hd s with len := l }

/-- What the six frames have in common: the registers of the header, its four bytes in BUF, and all else unchanged. -/
structure EndsAtHeader (hd : Header) (l : Word16) (s t : State) : Prop where
  len : t.len = l
  hcnt : t.hcnt = 4
  pcnt : t.pcnt = 0
  consumed : t.consumed = s.consumed + 4
  holds : Holds t 0 hd.bytes
  outside : SameOutside s t 0 4
  environment : SameEnvironment s t

theorem endsAtHeader_headerFinished (hd : Header) (k : OutKind) (l n : Word16) (s : State) :
    EndsAtHeader hd l s (headerFinished hd k l n s) :=
  ⟨rfl, rfl, rfl, rfl, holds_headerTaken hd s, sameOutside_headerTaken hd s, sameEnvironment_headerTaken hd s⟩

/-- A frame that ends at its header with an empty view gives its signal (R121 to R123). -/
theorem exec_headerFinished_signal {i : Instr} {hd : Header} {k : OutKind} {l : Word16} {s : State}
    (h : exec i s = .next (headerFinished hd k l 0 s)) :
    ∃ t, exec i s = .next t ∧ Published t k 0 0 ∧ t.len = l ∧ t.hcnt = 4 ∧ t.pcnt = 0 ∧
      t.consumed = s.consumed + 4 ∧ Holds t 0 hd.bytes ∧ SameOutside s t 0 4 ∧ SameEnvironment s t :=
  let ⟨hlen, hhcnt, hpcnt, hcons, hholds, hout, henv⟩ := endsAtHeader_headerFinished hd k l 0 s
  ⟨_, h, published_finish k 0 0 _, hlen, hhcnt, hpcnt, hcons, hholds, hout, henv⟩

/-- A frame that ends at its header with the view `(0, 4)` carries the header's raw bytes (R124, R125, R127). -/
theorem exec_headerFinished_raw {i : Instr} {hd : Header} {k : OutKind} {l : Word16} {s : State}
    (h : exec i s = .next (headerFinished hd k l 4 s)) :
    ∃ t, exec i s = .next t ∧ Published t k 0 4 ∧ t.view = some hd.bytes ∧ t.len = l ∧ t.hcnt = 4 ∧ t.pcnt = 0 ∧
      t.consumed = s.consumed + 4 ∧ SameOutside s t 0 4 ∧ SameEnvironment s t :=
  let ⟨hlen, hhcnt, hpcnt, hcons, hholds, hout, henv⟩ := endsAtHeader_headerFinished hd k l 4 s
  ⟨_, h, published_finish k 0 4 _, hholds, hlen, hhcnt, hpcnt, hcons, hout, henv⟩

/-! ## The statements -/

/-- Settles O32: each control frame ends at its header, with an empty view. -/
theorem controlFramesGiveTheirSignal : Obligations.ControlFramesGiveTheirSignal := by
  intro s hv hp
  refine ⟨?flush, ?delim, ?responseEnd⟩
  case flush => exact exec_headerFinished_signal (hd := Header.flush) (exec_flush_idle hv hp)
  case delim => exact exec_headerFinished_signal (hd := Header.delim) (exec_delim_idle hv hp)
  case responseEnd => exact exec_headerFinished_signal (hd := Header.responseEnd) (exec_responseEnd_idle hv hp)

/-- Settles O33: each header that is no length ends the decode, with the four header cells as the view. -/
theorem invalidHeadersCarryTheRawBytes : Obligations.InvalidHeadersCarryTheRawBytes := by
  intro s hv hp
  refine ⟨?rsvd3, fun hd l hl hm => ?overmax, fun hd hl => ?nonhex⟩
  case rsvd3 => exact exec_headerFinished_raw (hd := Header.rsvd3) (exec_rsvd3_idle hv hp)
  case overmax => exact exec_headerFinished_raw (exec_overmax_idle hv hp hl hm)
  case nonhex => exact exec_headerFinished_raw (exec_nonhex_idle hv hp hl)

end Sys2Proof.Machine
end

section
/-! The events of the scanner, one equation per rule: what each accepted event answers, and that an event which is not
accepted changes nothing (spec/42_frame_scanner.md R142 to R151). -/

namespace Sys2Proof.Machine

/-! ## Events that are accepted -/

theorem exec_pull_idle {s : State} (hp : s.phase = .idle) : exec .pull s = .next (startDecode s) := by
  rw [exec, execPull, whenPhase_accepted hp]

theorem exec_srcEoiHdr_hdr {s : State} (hp : s.phase = .hdr) :
    exec .srcEoiHdr s = .next (finish (if s.hcnt = 0 then .endOfInput else .truncated) 0 0 s) := by
  rw [exec, execSrcEoiHdr, whenPhase_accepted hp]
  split <;> rfl

theorem exec_srcFailHdr_hdr {s : State} (hp : s.phase = .hdr) :
    exec .srcFailHdr s = .next (finish .sourceFailure 0 0 s) := by
  rw [exec, execSrcFailHdr, whenPhase_accepted hp]; rfl

theorem exec_srcEoiPay_pay {s : State} (hp : s.phase = .pay) :
    exec .srcEoiPay s = .next (finish .truncated 0 0 s) := by
  rw [exec, execSrcEoiPay, whenPhase_accepted hp]; rfl

theorem exec_srcFailPay_pay {s : State} (hp : s.phase = .pay) :
    exec .srcFailPay s = .next (finish .sourceFailure 0 0 s) := by
  rw [exec, execSrcFailPay, whenPhase_accepted hp]; rfl

/-- A header byte before the fourth is stored and counted (R143). -/
theorem exec_srcByteHdr_counted {s : State} (hv : s.params.Valid) (hp : s.phase = .hdr) (hc : s.hcnt.toNat < 3)
    (b : Byte) : exec (.srcByteHdr b) s = .next (headerByteTaken b s) := by
  have hcap := valid_four_le_bufCap hv
  have hne : s.hcnt + 1 ≠ 4 := fun h => by rw [(hcnt_succ_eq_four _).1 h] at hc; exact absurd hc (by decide)
  exact (execSrcByteHdr_hdr hp (by omega) b).trans (if_neg hne)

/-- The fourth header byte completes the header in the same event (R144). -/
theorem exec_srcByteHdr_fourth {s : State} {b : Byte} {hd : Header} (hv : s.params.Valid) (hp : s.phase = .hdr)
    (hc : s.hcnt = 3) (hh : (s.buf.write 3 b).header = some hd) :
    exec (.srcByteHdr b) s = .next (afterHeader (classify s.params (lenParse hd)) ((lenParse hd).getD 0)
      { s with buf := s.buf.write 3 b, hcnt := 4, consumed := s.consumed + 1 }) := by
  have hcap := valid_four_le_bufCap hv
  have ha : s.hcnt.toNat < s.params.bufCap := by rw [hc]; exact hcap
  have ht : headerByteTaken b s = { s with buf := s.buf.write 3 b, hcnt := 4, consumed := s.consumed + 1 } := by
    simp [headerByteTaken, hc]
  refine (execSrcByteHdr_hdr hp ha b).trans ?_
  rw [if_pos ((hcnt_succ_eq_four _).2 hc), ht, completeHeader_next hh]

/-- A payload byte before the last is stored and counted (R147). -/
theorem exec_srcBytePay_counted {s : State} (hv : s.params.Valid) (hp : s.phase = .pay)
    (hm : s.len.toNat ≤ s.params.maxDeclared) (hc : s.pcnt.toNat + 5 < s.len.toNat) (b : Byte) :
    exec (.srcBytePay b) s = .next (payloadByteTaken b s) := by
  have hlt := s.len.isLt
  have hcap := hv.2.2
  have hs := pcnt_succ_toNat s.pcnt (by omega)
  exact (execSrcBytePay_pay hp (by omega) b).trans (if_neg (by omega))

/-- The last payload byte completes the payload in the same event (R148). -/
theorem exec_srcBytePay_last {s : State} (hv : s.params.Valid) (hp : s.phase = .pay)
    (hm : s.len.toNat ≤ s.params.maxDeclared) (hc : s.pcnt.toNat + 5 = s.len.toNat) (b : Byte) :
    exec (.srcBytePay b) s = completePayload (payloadByteTaken b s) := by
  have hlt := s.len.isLt
  have hcap := hv.2.2
  have hs := pcnt_succ_toNat s.pcnt (by omega)
  exact (execSrcBytePay_pay hp (by omega) b).trans (if_pos (by omega))

/-! ## The statements about accepted events -/

/-- Settles O21: `PULL` in `IDLE` is the five writes that open a decode. -/
theorem pullOpensADecode : Obligations.PullOpensADecode := fun _ hp => exec_pull_idle hp

/-- Settles O23: below 3 the count does not reach the fourth byte. -/
theorem headerByteIsStoredAtHcnt : Obligations.HeaderByteIsStoredAtHcnt :=
  fun _ b hv hp hc => exec_srcByteHdr_counted hv hp hc b

/-- Settles O24: the four bytes stand in BUF once the fourth is stored, and each value of the length field has its
class. -/
theorem fourthHeaderByteCompletesTheHeader : Obligations.FourthHeaderByteCompletesTheHeader := by
  intro s c0 c1 c2 b hv hp hc h0 h1 h2 hd u
  have hh : (s.buf.write 3 b).header = some hd := by
    rw [Memory.header_eq_some]
    simp [Memory.read_write, h0, h1, h2, hd]
  have hend := exec_srcByteHdr_fourth hv hp hc hh
  refine ⟨fun hl => ?nonhex, fun l hl => ?value⟩
  case nonhex =>
    rw [hl, classify_nonhex.2 rfl] at hend
    exact hend
  case value =>
    rw [hl, Option.getD_some] at hend
    refine ⟨fun hn => ?flush, fun hn => ?delim, fun hn => ?responseEnd, fun hn => ?rsvd3, fun hn => ?empty,
      fun h5 hm => ?payload, fun hm => ?overmax⟩
    case flush =>
      obtain rfl : l = 0 := BitVec.eq_of_toNat_eq hn
      rw [classify_flush.2 rfl] at hend; exact hend
    case delim =>
      obtain rfl : l = 1 := BitVec.eq_of_toNat_eq hn
      rw [classify_delim.2 rfl] at hend; exact hend
    case responseEnd =>
      obtain rfl : l = 2 := BitVec.eq_of_toNat_eq hn
      rw [classify_responseEnd.2 rfl] at hend; exact hend
    case rsvd3 =>
      obtain rfl : l = 3 := BitVec.eq_of_toNat_eq hn
      rw [classify_rsvd3.2 rfl] at hend; exact hend
    case empty =>
      obtain rfl : l = 4 := BitVec.eq_of_toNat_eq hn
      rw [classify_data.2 ⟨4, rfl, rfl, hv.1⟩] at hend; exact hend
    case payload =>
      obtain ⟨n, hn⟩ : ∃ n, n + 1 + 4 = l.toNat := ⟨l.toNat - 5, by omega⟩
      rw [classify_data.2 ⟨l, rfl, hn, hm⟩] at hend
      exact hend
    case overmax => rw [(classify_overmax hv.1).2 ⟨l, rfl, hm⟩] at hend; exact hend

/-- Settles O25: before the last byte the test for the end of the payload fails. -/
theorem payloadByteIsStoredAfterTheHeader : Obligations.PayloadByteIsStoredAfterTheHeader :=
  fun _ b hv hp hm hc => exec_srcBytePay_counted hv hp hm hc b

/-- Settles O26: the last byte completes the payload, which has four bytes to test from `LEN` 8 on. -/
theorem lastPayloadBytePublishesAfterTheErrTest : Obligations.LastPayloadBytePublishesAfterTheErrTest := by
  intro s b hv hp hm hc u
  have hend : exec (.srcBytePay b) s = completePayload u := exec_srcBytePay_last hv hp hm hc b
  have h4 : s.len - 4 = BitVec.ofNat 16 (s.len.toNat - 4) := word16_sub_ofNat s.len 4 (by omega)
  refine ⟨fun h8 => ?short, fun h8 hq => ?errorLine, fun q h8 hq hne => ?payload⟩
  case short =>
    rw [hend, completePayload_short (s := u) h8, ← h4]; rfl
  case errorLine =>
    have h8' : s.len - 8 = BitVec.ofNat 16 (s.len.toNat - 8) := word16_sub_ofNat s.len 8 h8
    rw [hend, completePayload_tested (s := u) h8 hq, ← h8']; rfl
  case payload =>
    have hf : (q == Config.errMagic) = false := beq_eq_false_iff_ne.2 hne
    rw [hend, completePayload_tested (s := u) h8 hq, hf, ← h4]; rfl

/-- Settles O27: the end of the source in `HDR` raises a failure, by whether a header byte has arrived. -/
theorem sourceEndInTheHeader : Obligations.SourceEndInTheHeader := by
  intro s hp
  refine ⟨fun hc => ?_, fun hc => ?_, exec_srcFailHdr_hdr hp⟩
  · rw [exec_srcEoiHdr_hdr hp, if_pos hc]; rfl
  · rw [exec_srcEoiHdr_hdr hp, if_neg hc]; rfl

/-- Settles O28: the end of the source in `PAY` raises a failure. -/
theorem sourceEndInThePayload : Obligations.SourceEndInThePayload :=
  fun _ hp => ⟨exec_srcEoiPay_pay hp, exec_srcFailPay_pay hp⟩

/-! ## Events that are not accepted, and no event -/

theorem exec_pull_busy {s : State} (hp : s.phase ≠ .idle) : exec .pull s = .next s := by
  rw [exec, execPull, whenPhase_refused hp]

/-- An offer in `IDLE` uses its move up and nothing else (R55, R150). -/
theorem step_src_idle {s : State} {ms : List Move} (hp : s.phase = .idle) (hm : s.moves = .src :: ms) :
    step s = .next { s with moves := ms } :=
  step_of_quiet ((fetch_move hm).trans (fetchMove_src_idle hp))

/-- Settles O22: each event's guard on the phase fails. -/
theorem unacceptedEventsChangeNothing : Obligations.UnacceptedEventsChangeNothing := by
  intro s
  refine ⟨fun hp => ?pull, fun hp => ?hdr, fun hp => ?pay, fun ms hp hm => ?offer, fun ms hp hm => ?request, ?reset⟩
  case pull => exact exec_pull_busy hp
  case hdr =>
    simp [exec, execSrcByteHdr, execSrcEoiHdr, execSrcFailHdr, whenPhase_refused hp]
  case pay =>
    simp [exec, execSrcBytePay, execSrcEoiPay, execSrcFailPay, whenPhase_refused hp]
  case offer => exact step_src_idle hp hm
  case request => exact (step_of_move_run hm (fetchMove_pull _)).trans (exec_pull_busy (by exact hp))
  case reset => exact ⟨resetRegisters s, rfl, rfl, rfl⟩

/-- Settles O36: every row of format H is guarded by `IDLE`, behind its well-formedness where it has one. -/
theorem decodeCallWhileBusyIsIgnored : Obligations.DecodeCallWhileBusyIsIgnored := by
  intro s i hp hi hw
  cases i with
  | flush | delim | responseEnd | rsvd3 =>
    simp only [exec, execFlush, execDelim, execResponseEnd, execRsvd3, whenIdle_busy hp]
  | overmax | nonhex | data | errline =>
    simp only [exec, execOvermax, execNonhex, execData, execErrline, whenWellFormed_wf hw, whenIdle_busy hp]
  | sbPack | sbProgress | sbFatal | sbInvalid | hexdigDec | hexdigUpper | hexdigLower | hexdigNone | reset | pull |
    srcByteHdr | srcBytePay | srcEoiHdr | srcEoiPay | srcFailHdr | srcFailPay | srcRsvd | hexenc | encLength |
    encFrame | encFlush | encDelim | encResponseEnd | encSideband => cases hi

/-- Settles O39: no move, or an offer of a source that has no symbol, is no event. -/
theorem withoutAnEventTheScannerWaits : Obligations.WithoutAnEventTheScannerWaits := by
  intro s
  refine ⟨step_no_move, fun ms hm hsrc => step_of_quiet ((fetch_move hm).trans (fetchMove_src_none ?_))⟩
  show s.source.next = none
  rw [hsrc, Source.next_stall]

end Sys2Proof.Machine
end

section
/-! The frames with a payload, taken whole (spec/42_frame_scanner.md R159, R160). -/

namespace Sys2Proof.Machine

/-! ## A stored run of bytes, read in part -/

theorem Memory.readRange_writeAll_drop (m : Memory) (a : Nat) (bs : List Byte) (j : Nat) :
    (m.writeAll a bs).readRange (a + j) (bs.drop j).length = some (bs.drop j) := by
  refine Memory.readRange_eq_some.2 ⟨rfl, fun i hi => ?_⟩
  rw [List.length_drop] at hi
  rw [Nat.add_assoc, Memory.read_writeAll_inside m bs a (j + i) (by omega), List.getElem?_drop]

theorem Memory.readRange_writeAll_take (m : Memory) (a : Nat) {bs : List Byte} {n : Nat} (hn : n ≤ bs.length) :
    (m.writeAll a bs).readRange a n = some (bs.take n) := by
  refine Memory.readRange_eq_some.2 ⟨List.length_take_of_le hn, fun i hi => ?_⟩
  rw [Memory.read_writeAll_inside m bs a i (by omega), List.getElem?_take_of_lt hi]

/-! ## The frame in BUF -/

theorem header_frameTaken (hd : Header) (p : List Byte) (l : Word16) (s : State) :
    (frameTaken hd p l s).buf.header = some hd :=
  (header_writeAll_above (le_refl 4) p).trans (Memory.header_writeAll_header s.buf hd)

/-- The payload from its byte `j` on stands at `4 + j` (R159). -/
theorem readRange_frameTaken (hd : Header) (p : List Byte) (l : Word16) (s : State) (j : Nat) :
    (frameTaken hd p l s).buf.readRange (4 + j) (p.drop j).length = some (p.drop j) :=
  Memory.readRange_writeAll_drop _ 4 p j

theorem sameOutside_frameTaken (hd : Header) (p : List Byte) (l : Word16) (s : State) :
    SameOutside s (frameTaken hd p l s) 0 (p.length + 4) := fun x hx =>
  (Memory.read_writeAll_outside _ p (by omega)).trans
    (Memory.read_writeAll_outside s.buf hd.bytes (show x < 0 ∨ 0 + 4 ≤ x by omega))

theorem toNat_ofNat_length {bs : List Byte} (h : bs.length < 65536) :
    (BitVec.ofNat 16 bs.length).toNat = bs.length := by
  simp; omega

/-- What the two frames have in common: the raw header, the registers of the frame, and all else unchanged. -/
theorem finish_frameTaken {hd : Header} {p : List Byte} {l : Word16} (hn : p.length + 4 = l.toNat) (k : OutKind)
    (off n : Word16) (s : State) :
    let t := finish k off n (frameTaken hd p l s)
    t.raw = some hd ∧ t.len = l ∧ t.hcnt = 4 ∧ t.pcnt.toNat = p.length ∧ t.consumed = s.consumed + l.toNat ∧
      SameOutside s t 0 l.toNat ∧ SameEnvironment s t := by
  have hlt := l.isLt
  refine ⟨header_frameTaken hd p l s, rfl, rfl, toNat_ofNat_length (by omega), ?consumed, ?outside,
    ⟨rfl, rfl, rfl, rfl⟩⟩
  case consumed => rw [← hn, Nat.add_comm p.length, ← Nat.add_assoc]; rfl
  case outside => rw [← hn]; exact sameOutside_frameTaken hd p l s

/-! ## The statements -/

/-- Settles O34: the view is the payload as stored from address 4. -/
theorem dataFrameGivesItsPayload : Obligations.DataFrameGivesItsPayload := by
  intro hd p l s hv hp hl hn hm he
  have hlt := l.isLt
  have hlen := toNat_ofNat_length (bs := p) (by omega)
  have hpub := published_finish .payload 4 (BitVec.ofNat 16 p.length) (frameTaken hd p l s)
  rw [hlen] at hpub
  refine ⟨_, exec_data_idle hv hp hl hn hm he, hpub, ?_, finish_frameTaken hn _ _ _ s⟩
  simp only [State.view, finish_viewLen, hlen]
  exact readRange_frameTaken hd p l s 0

/-- Settles O35: the view is the payload from its fifth byte on, and its first four are "ERR ". -/
theorem errorLineGivesItsText : Obligations.ErrorLineGivesItsText := by
  intro hd txt l s hv hp hl hn hm
  have hlt := l.isLt
  have hlen := toNat_ofNat_length (bs := txt) (by omega)
  have hp4 := errMagic_append_length txt
  have hpub := published_finish .errorLine 8 (BitVec.ofNat 16 txt.length) (frameTaken hd (Config.errMagic ++ txt) l s)
  rw [hlen] at hpub
  obtain ⟨hraw, hlenl, hhcnt, hpcnt, hrest⟩ := finish_frameTaken (hd := hd) (p := Config.errMagic ++ txt) (l := l)
    (by omega) .errorLine 8 (BitVec.ofNat 16 txt.length) s
  refine ⟨_, exec_errline_idle hv hp hl hn hm, hpub, ?view, hraw, ?magic, hlenl, hhcnt, hpcnt.trans hp4, hrest⟩
  case view =>
    simp only [State.view, finish_viewLen, hlen]
    exact readRange_frameTaken hd (Config.errMagic ++ txt) l s 4
  case magic => exact Memory.readRange_writeAll_take _ 4 (n := 4) (by omega)

end Sys2Proof.Machine
end

section
/-! A decode apart from the machine: how far it has come, as a value that each offer of the source moves on, and the
state that value stands for. The machine's events follow it (spec/42_frame_scanner.md R142 to R149). -/

namespace Sys2Proof.Machine

/-! ## How far a decode has come -/

/-- What a decode has read: header bytes, fewer than four, or the header and the payload bytes after it. -/
inductive Reading where
  | header (got : List Byte)
  | payload (hd : Header) (got : List Byte)

/-- A decode still reads, or it has ended with an outcome of this kind. -/
inductive Progress where
  | busy (r : Reading)
  | ended (r : Reading) (k : OutKind)

/-- What `LEN` holds after header completion: the header's value, 0 where it has none (R144, R127). -/
def declared (hd : Header) : Word16 := (lenParse hd).getD 0

/-- The bytes an outcome carries (R163). -/
def Reading.carried : Reading → OutKind → List Byte
  | .payload hd _, .invalidLength => hd.bytes
  | .payload _ got, .payload => got
  | .payload _ got, .errorLine => got.drop 4
  | _, _ => []

/-- The bytes a decode has taken. -/
def Reading.count : Reading → Nat
  | .header got => got.length
  | .payload _ got => 4 + got.length

/-- What the end of the source is to a decode (R145, R149). -/
def Reading.eoiKind : Reading → OutKind
  | .header [] => .endOfInput
  | _ => .truncated

/-- The kind at the end of a complete payload (R148). -/
def payloadKind (p : List Byte) : OutKind := if startsWithErr p then .errorLine else .payload

/-- The kind of a header that ends its frame (R121 to R127); none for the data class. -/
def signalKind : HeaderClass → Option OutKind
  | .nonhex | .rsvd3 | .overmax => some .invalidLength
  | .flush => some .flush
  | .delim => some .delim
  | .responseEnd => some .responseEnd
  | .data _ => none

/-- The header of a data frame and these payload bytes have been read: all of them, or not yet (R147, R148). -/
def payloadRead (hd : Header) (got : List Byte) : Progress :=
  if got.length + 4 = (declared hd).toNat then .ended (.payload hd got) (payloadKind got) else .busy (.payload hd got)

/-- The four bytes of a header have been read (R144). -/
def headerRead (P : Params) (hd : Header) : Progress :=
  match signalKind (classify P (lenParse hd)) with
  | some k => .ended (.payload hd []) k
  | none => payloadRead hd []

/-- One more byte (R143, R147). -/
def Reading.take (P : Params) (b : Byte) : Reading → Progress
  | .header [c0, c1, c2] => headerRead P ⟨c0, c1, c2, b⟩
  | .header got => .busy (.header (got ++ [b]))
  | .payload hd got => payloadRead hd (got ++ [b])

/-- The source is asked once: a running decode takes its next byte or learns of its end; a stalled source and an ended
decode do nothing (R55, R57). -/
def offer (P : Params) : Progress × Source → Progress × Source
  | (.busy r, ⟨b :: bs, t⟩) => (r.take P b, ⟨bs, t⟩)
  | (.busy r, ⟨[], .eoi⟩) => (.ended r r.eoiKind, ⟨[], .eoi⟩)
  | (.busy r, ⟨[], .fail⟩) => (.ended r .sourceFailure, ⟨[], .fail⟩)
  | x => x

theorem take_header {P : Params} {got : List Byte} (h : got.length ≤ 2) (b : Byte) :
    (Reading.header got).take P b = .busy (.header (got ++ [b])) := by
  match got, h with
  | [], _ | [_], _ | [_, _], _ => rfl

/-! ## The counts -/

/-- The bytes taken, whether the decode runs or has ended. -/
def Progress.count : Progress → Nat
  | .busy r | .ended r _ => r.count

theorem payloadRead_count (hd : Header) (got : List Byte) : (payloadRead hd got).count = 4 + got.length := by
  simp only [payloadRead]; split <;> rfl

theorem headerRead_count (P : Params) (hd : Header) : (headerRead P hd).count = 4 := by
  simp only [headerRead]
  split
  · rfl
  · exact payloadRead_count hd []

theorem take_count (P : Params) (b : Byte) (r : Reading) : (r.take P b).count = r.count + 1 := by
  simp only [Reading.take]
  split
  · exact headerRead_count P _
  · simp [Progress.count, Reading.count]
  · rw [payloadRead_count, List.length_append]; rfl

/-- What leaves the source has been taken (R33). -/
theorem offer_count (P : Params) (x : Progress × Source) :
    (offer P x).1.count + (offer P x).2.bs.length = x.1.count + x.2.bs.length := by
  simp only [offer]
  split
  · rw [take_count, List.length_cons]; exact Nat.add_right_comm ..
  · rfl
  · rfl
  · rfl

theorem offers_count (P : Params) (n : Nat) (x : Progress × Source) :
    ((offer P)^[n] x).1.count + ((offer P)^[n] x).2.bs.length = x.1.count + x.2.bs.length := by
  induction n generalizing x with
  | zero => rfl
  | succ n ih => rw [Function.iterate_succ_apply, ih, offer_count]

/-! ## What every decode keeps -/

/-- Fewer than four header bytes, or fewer payload bytes than an acceptable header promises; an ended decode carries
no more bytes than a view can name. -/
def Progress.Ok (P : Params) : Progress → Prop
  | .busy (.header got) => got.length ≤ 3
  | .busy (.payload hd got) => got.length + 4 < (declared hd).toNat ∧ (declared hd).toNat ≤ P.maxDeclared
  | .ended r k => (r.carried k).length < 65536

theorem declared_eq {hd : Header} {l : Word16} (hl : lenParse hd = some l) : declared hd = l := by
  rw [declared, hl]; rfl

theorem declared_of_data {P : Params} {hd : Header} {n : Nat} (hc : classify P (lenParse hd) = .data n) :
    n + 4 = (declared hd).toNat ∧ (declared hd).toNat ≤ P.maxDeclared := by
  obtain ⟨l, hl, hn, hm⟩ := classify_data.1 hc
  rw [declared_eq hl]
  exact ⟨hn, hm⟩

theorem carried_payloadKind_le (hd : Header) (p : List Byte) :
    ((Reading.payload hd p).carried (payloadKind p)).length ≤ p.length := by
  simp only [payloadKind]
  split
  · exact (List.length_drop ..).trans_le (Nat.sub_le ..)
  · exact le_refl _

theorem signalKind_eq_none {c : HeaderClass} : signalKind c = none ↔ ∃ n, c = .data n := by
  cases c <;> simp [signalKind]

theorem payloadRead_ok {P : Params} {hd : Header} {got : List Byte} (hle : got.length + 4 ≤ (declared hd).toNat)
    (hm : (declared hd).toNat ≤ P.maxDeclared) : (payloadRead hd got).Ok P := by
  have hlt := (declared hd).isLt
  have hcarried := carried_payloadKind_le hd got
  simp only [payloadRead]
  split
  · exact Nat.lt_of_le_of_lt hcarried (by omega)
  · exact ⟨by omega, hm⟩

theorem headerRead_ok (P : Params) (hd : Header) : (headerRead P hd).Ok P := by
  simp only [headerRead]
  split
  next k _ => cases k <;> exact Nat.lt_of_sub_ne_zero nofun
  next =>
    obtain ⟨n, hc⟩ := signalKind_eq_none.1 ‹_›
    obtain ⟨hn, hm⟩ := declared_of_data hc
    exact payloadRead_ok (by rw [List.length_nil]; omega) hm

theorem take_ok {P : Params} {r : Reading} (h : (Progress.busy r).Ok P) (b : Byte) : (r.take P b).Ok P := by
  match r, h with
  | .payload hd got, ⟨hlt, hm⟩ => exact payloadRead_ok (by simp; omega) hm
  | .header [_, _, _], _ => exact headerRead_ok P _
  | .header [], _ | .header [_], _ | .header [_, _], _ => simp [Reading.take, Progress.Ok]

/-- The kinds that an end of the source publishes; every other kind is published by a byte. -/
def SourceEndKind (k : OutKind) : Prop := k = .endOfInput ∨ k = .truncated ∨ k = .sourceFailure

theorem carried_sourceEnd {r : Reading} {k : OutKind} (hk : SourceEndKind k) : r.carried k = [] := by
  obtain rfl | rfl | rfl := hk <;> cases r <;> rfl

theorem sourceEndKind_eoiKind (r : Reading) : SourceEndKind r.eoiKind := by
  simp only [Reading.eoiKind]; split <;> simp [SourceEndKind]

/-- A decode that the source has ended carries nothing. -/
theorem ended_ok_of_sourceEnd (P : Params) (r : Reading) {k : OutKind} (hk : SourceEndKind k) :
    (Progress.ended r k).Ok P := by
  simp [Progress.Ok, carried_sourceEnd hk]

theorem offer_ok {P : Params} {x : Progress × Source} (h : x.1.Ok P) : (offer P x).1.Ok P := by
  simp only [offer]
  split
  · exact take_ok h _
  · exact ended_ok_of_sourceEnd P _ (sourceEndKind_eoiKind _)
  · exact ended_ok_of_sourceEnd P _ (.inr (.inr rfl))
  · exact h

theorem offers_ok {P : Params} (n : Nat) {x : Progress × Source} (h : x.1.Ok P) : ((offer P)^[n] x).1.Ok P := by
  induction n generalizing x with
  | zero => exact h
  | succ n ih => exact ih (offer_ok h)

/-! ## The state a decode stands for -/

/-- Where the view of a kind begins (R146). -/
def viewStart : OutKind → Word16
  | .payload => 4
  | .errorLine => 8
  | .flush | .delim | .responseEnd | .invalidLength | .endOfInput | .truncated | .sourceFailure => 0

/-- The state in which this much of a decode begun in `s` has been read. -/
def Reading.state : Reading → State → State
  | .header got, s =>
    { startDecode s with
      buf := s.buf.writeAll 0 got, hcnt := BitVec.ofNat 3 got.length, consumed := s.consumed + got.length }
  | .payload hd got, s => { frameTaken hd got (declared hd) s with phase := .pay }

def Progress.state : Progress → State → State
  | .busy r, s => r.state s
  | .ended r k, s => finish k (viewStart k) (BitVec.ofNat 16 (r.carried k).length) (r.state s)

theorem Reading.state_consumed (r : Reading) (s : State) : (r.state s).consumed = s.consumed + r.count := by
  cases r with
  | header got => rfl
  | payload hd got => exact Nat.add_assoc ..

theorem Progress.state_consumed (x : Progress) (s : State) : (x.state s).consumed = s.consumed + x.count := by
  cases x with
  | busy r | ended r k => exact r.state_consumed s

theorem Reading.state_busy (r : Reading) (s : State) : (r.state s).phase ≠ .idle ∧ (r.state s).outValid = false := by
  cases r with
  | header got => exact ⟨nofun, rfl⟩
  | payload hd got => exact ⟨nofun, rfl⟩

/-- The view of an ended decode reads as the bytes its outcome carries, whatever BUF held before (R163, R166). -/
theorem Progress.view_ended {P : Params} {r : Reading} {k : OutKind} (h : (Progress.ended r k).Ok P) (s : State) :
    ((Progress.ended r k).state s).view = some (r.carried k) := by
  show (r.state s).buf.readRange (viewStart k).toNat (BitVec.ofNat 16 (r.carried k).length).toNat = _
  rw [toNat_ofNat_length h]
  cases r with
  | header got => rfl
  | payload hd got =>
    cases k with
    | payload => exact readRange_frameTaken hd got (declared hd) s 0
    | errorLine => exact readRange_frameTaken hd got (declared hd) s 4
    | invalidLength => exact Memory.readRange_of_header (header_frameTaken hd got (declared hd) s)
    | flush | delim | responseEnd | endOfInput | truncated | sourceFailure => rfl

/-! ## The machine follows: header bytes -/

theorem headerByteTaken_state {got : List Byte} (h : got.length ≤ 3) (b : Byte) (s : State) :
    headerByteTaken b ((Reading.header got).state s) = (Reading.header (got ++ [b])).state s := by
  have hn : (BitVec.ofNat 3 got.length).toNat = got.length := by simp; omega
  simp only [headerByteTaken, Reading.state, hn, Memory.writeAll_append, List.length_append, BitVec.ofNat_add]
  simp [Nat.add_assoc]

/-- Header completion leaves what the header's class says (R144). -/
theorem afterHeader_headerTaken (P : Params) (hd : Header) (s : State) :
    afterHeader (classify P (lenParse hd)) (declared hd) (headerTaken hd s) = (headerRead P hd).state s := by
  simp only [headerRead]
  cases hc : classify P (lenParse hd) with
  | nonhex =>
    have h0 : 0 = declared hd := by rw [declared, classify_nonhex.1 hc]; rfl
    exact congrArg (fun l => headerFinished hd .invalidLength l 4 s) h0
  | flush => exact congrArg (fun l => headerFinished hd .flush l 0 s) (declared_eq (classify_flush.1 hc)).symm
  | delim => exact congrArg (fun l => headerFinished hd .delim l 0 s) (declared_eq (classify_delim.1 hc)).symm
  | responseEnd =>
    exact congrArg (fun l => headerFinished hd .responseEnd l 0 s) (declared_eq (classify_responseEnd.1 hc)).symm
  | rsvd3 => exact congrArg (fun l => headerFinished hd .invalidLength l 4 s) (declared_eq (classify_rsvd3.1 hc)).symm
  | overmax => rfl
  | data n =>
    obtain ⟨hn, -⟩ := declared_of_data hc
    simp only [signalKind, payloadRead, List.length_nil, Nat.zero_add]
    cases n with
    | zero =>
      have h4 : 4 = declared hd := BitVec.eq_of_toNat_eq hn
      rw [if_pos (by omega)]
      exact congrArg (fun l => finish .payload 4 0 { headerTaken hd s with len := l }) h4
    | succ n => rw [if_neg (by omega)]; rfl

/-! ## The machine follows: payload bytes -/

theorem payloadByteTaken_state {hd : Header} {got : List Byte} (h : got.length < 65536) (b : Byte) (s : State) :
    payloadByteTaken b ((Reading.payload hd got).state s) = (Reading.payload hd (got ++ [b])).state s := by
  have hn := toNat_ofNat_length h
  simp only [payloadByteTaken, Reading.state, frameTaken, hn, Memory.writeAll_append, List.length_append,
    BitVec.ofNat_add]
  simp [Nat.add_assoc]

/-- `Finish` at the end of a payload publishes the payload, or the text after "ERR " (R148). -/
theorem afterPayload_state {hd : Header} {p : List Byte} (hn : p.length + 4 = (declared hd).toNat) (s : State) :
    afterPayload (startsWithErr p) ((Reading.payload hd p).state s) =
      (Progress.ended (.payload hd p) (payloadKind p)).state s := by
  simp only [afterPayload, payloadKind]
  split
  case isTrue he =>
    have h4 := startsWithErr_length he
    have h8 : declared hd - 8 = BitVec.ofNat 16 (p.drop 4).length := by
      rw [List.length_drop, show p.length - 4 = (declared hd).toNat - 8 by omega]
      exact word16_sub_ofNat (declared hd) 8 (by omega)
    show finish .errorLine 8 (declared hd - 8) _ = _
    rw [h8]; rfl
  case isFalse =>
    have h4 : declared hd - 4 = BitVec.ofNat 16 p.length := by
      rw [show p.length = (declared hd).toNat - 4 by omega]
      exact word16_sub_ofNat (declared hd) 4 (by omega)
    show finish .payload 4 (declared hd - 4) _ = _
    rw [h4]; rfl

/-- Payload completion makes the "ERR " test on the whole payload (R148). -/
theorem completePayload_state {hd : Header} {p : List Byte} (hn : p.length + 4 = (declared hd).toNat) (s : State) :
    completePayload ((Reading.payload hd p).state s) =
      .next ((Progress.ended (.payload hd p) (payloadKind p)).state s) := by
  have hlen : ((Reading.payload hd p).state s).len = declared hd := rfl
  rw [← afterPayload_state hn s]
  by_cases h4 : 4 ≤ p.length
  · exact completePayload_tested (by rw [hlen]; omega) (Memory.readRange_writeAll_take _ 4 h4)
  · have he : startsWithErr p = false := Bool.eq_false_iff.2 fun he => h4 (startsWithErr_length he)
    rw [he]
    exact completePayload_short (by rw [hlen]; omega)

/-! ## The machine follows: one byte, one offer, any number of offers -/

/-- The instruction that a byte is while this much has been read (R88). -/
def Reading.byteEvent (b : Byte) : Reading → Instr
  | .header _ => .srcByteHdr b
  | .payload _ _ => .srcBytePay b

theorem exec_srcByteHdr_state {s : State} {got : List Byte} (hv : s.params.Valid) (h : got.length ≤ 2) (b : Byte) :
    exec (.srcByteHdr b) ((Reading.header got).state s) = .next ((Reading.header (got ++ [b])).state s) := by
  have hn : ((Reading.header got).state s).hcnt.toNat = got.length := by simp [Reading.state]; omega
  rw [exec_srcByteHdr_counted (s := (Reading.header got).state s) hv rfl (by omega), headerByteTaken_state (by omega)]

theorem exec_srcBytePay_state {s : State} {hd : Header} {got : List Byte} (hv : s.params.Valid)
    (h : (Progress.busy (.payload hd got)).Ok s.params) (b : Byte) :
    exec (.srcBytePay b) ((Reading.payload hd got).state s) = .next ((payloadRead hd (got ++ [b])).state s) := by
  obtain ⟨hlt, hm⟩ := h
  have hl := (declared hd).isLt
  have hlen : ((Reading.payload hd got).state s).len.toNat = (declared hd).toNat := rfl
  have hpcnt : ((Reading.payload hd got).state s).pcnt.toNat = got.length := toNat_ofNat_length (by omega)
  have htaken := payloadByteTaken_state (hd := hd) (got := got) (by omega) b s
  have hgot : (got ++ [b]).length = got.length + 1 := List.length_append
  rw [payloadRead]
  by_cases hlast : (got ++ [b]).length + 4 = (declared hd).toNat
  · rw [if_pos hlast, ← completePayload_state hlast, ← htaken]
    exact exec_srcBytePay_last (s := (Reading.payload hd got).state s) hv rfl hm (by omega) b
  · rw [if_neg hlast, Progress.state, ← htaken]
    exact exec_srcBytePay_counted (s := (Reading.payload hd got).state s) hv rfl hm (by omega) b

/-- A byte moves the machine's decode on as it moves the reading on (R143, R144, R147, R148). -/
theorem exec_byteEvent {s : State} {r : Reading} (hv : s.params.Valid) (h : (Progress.busy r).Ok s.params) (b : Byte) :
    exec (r.byteEvent b) (r.state s) = .next ((r.take s.params b).state s) := by
  match r, h with
  | .header [c0, c1, c2], _ =>
    have hh : (((Reading.header [c0, c1, c2]).state s).buf.write 3 b).header = some ⟨c0, c1, c2, b⟩ :=
      Memory.header_writeAll_header s.buf ⟨c0, c1, c2, b⟩
    exact (exec_srcByteHdr_fourth (s := (Reading.header [c0, c1, c2]).state s) hv rfl rfl hh).trans
      (congrArg _ (afterHeader_headerTaken s.params ⟨c0, c1, c2, b⟩ s))
  | .header [], _ | .header [_], _ | .header [_, _], _ => exact exec_srcByteHdr_state hv (by simp) b
  | .payload hd got, h => exact exec_srcBytePay_state hv h b

/-- The machine's state in a decode begun in `s` that has come to `x`, with these moves to come. -/
def resume (s : State) (x : Progress × Source) (ms : List Move) : State :=
  x.1.state { s with source := x.2, moves := ms }

/-- The symbol the source presents is decoded to the event of the phase (R57, R88). -/
theorem step_resume_symbol {s : State} {r : Reading} {src rest : Source} {k : BitVec 2} {d : Byte} {i : Instr}
    (hn : src.next = some (k, d, rest)) (hd : decodeSrc (r.state s).phase k d = .ok i) (ms : List Move) :
    step (resume s (.busy r, src) (.src :: ms)) = exec i (r.state { s with source := rest, moves := ms }) := by
  cases r <;> exact step_of_move_run (m := .src) (ms := ms) rfl (fetchMove_src_ok hn hd)

/-- An offer of a source without a byte: its condition, if it has one, ends the decode (R145, R149). -/
theorem step_resume_noByte {s : State} {r : Reading} (h : (Progress.busy r).Ok s.params) (t : Terminator)
    (ms : List Move) :
    step (resume s (.busy r, ⟨[], t⟩) (.src :: ms)) = .next (resume s (offer s.params (.busy r, ⟨[], t⟩)) ms) := by
  cases t with
  | stall =>
    cases r <;> exact step_of_quiet ((fetch_move (m := .src) rfl).trans (fetchMove_src_none Source.next_stall))
  | fail =>
    cases r with
    | header got => exact (step_resume_symbol Source.next_fail rfl ms).trans (exec_srcFailHdr_hdr rfl)
    | payload hd got => exact (step_resume_symbol Source.next_fail rfl ms).trans (exec_srcFailPay_pay rfl)
  | eoi =>
    cases r with
    | header got =>
      refine (step_resume_symbol Source.next_eoi rfl ms).trans ((exec_srcEoiHdr_hdr rfl).trans ?_)
      match got, h with
      | [], _ | [_], _ | [_, _], _ | [_, _, _], _ => rfl
    | payload hd got => exact (step_resume_symbol Source.next_eoi rfl ms).trans (exec_srcEoiPay_pay rfl)

/-- One offer of the source is one step of the machine. -/
theorem step_resume {s : State} {x : Progress × Source} (hv : s.params.Valid) (h : x.1.Ok s.params) (ms : List Move) :
    step (resume s x (.src :: ms)) = .next (resume s (offer s.params x) ms) := by
  match x, h with
  | (.ended r k, src), _ => cases r <;> exact step_src_idle (s := resume s (.ended _ k, src) (.src :: ms)) rfl rfl
  | (.busy r, ⟨b :: bs, t⟩), h =>
    exact (step_resume_symbol (i := r.byteEvent b) (Source.next_byte b bs t) (by cases r <;> rfl) ms).trans
      (exec_byteEvent (s := { s with source := ⟨bs, t⟩, moves := ms }) hv h b)
  | (.busy r, ⟨[], t⟩), h => exact step_resume_noByte h t ms

end Sys2Proof.Machine
end

section
/-! Runs of a decode: a `PULL` and any number of offers (spec/42_frame_scanner.md R164, R166). -/

namespace Sys2Proof.Machine

/-- Offers one after another, with other moves after them. -/
theorem runSteps_offers {s : State} (hv : s.params.Valid) (ms : List Move) (n : Nat) {x : Progress × Source}
    (h : x.1.Ok s.params) :
    runSteps n (resume s x (List.replicate n .src ++ ms)) = .next (resume s ((offer s.params)^[n] x) ms) := by
  induction n generalizing x with
  | zero => rfl
  | succ n ih =>
    rw [List.replicate_succ, List.cons_append, runSteps_succ, step_resume hv h, andThen_next, ih (offer_ok h),
      Function.iterate_succ_apply]

/-- A decode of `src` that has read nothing yet. -/
def started (src : Source) : Progress × Source := (.busy (.header []), src)

theorem started_ok (P : Params) (src : Source) : (started src).1.Ok P := Nat.zero_le 3

theorem step_pull_idle {s : State} {ms : List Move} (hp : s.phase = .idle) (hm : s.moves = .pull :: ms) :
    step s = .next (resume s (started s.source) ms) :=
  (step_of_move_run hm (fetchMove_pull _)).trans (exec_pull_idle (by exact hp))

/-- A `PULL` from `IDLE` and `n` offers leave the decode where `n` offers take it. -/
theorem runSteps_decode {s : State} (hv : s.params.Valid) (hp : s.phase = .idle) {n : Nat} {ms : List Move}
    (hm : s.moves = .pull :: (List.replicate n .src ++ ms)) :
    runSteps (1 + n) s = .next (resume s ((offer s.params)^[n] (started s.source)) ms) := by
  rw [Nat.add_comm, runSteps_succ, step_pull_idle hp hm, andThen_next, runSteps_offers hv ms n (started_ok _ _)]

theorem resume_consumed (s : State) (x : Progress × Source) (ms : List Move) :
    (resume s x ms).consumed = s.consumed + x.1.count := x.1.state_consumed _

theorem resume_source (s : State) (x : Progress × Source) (ms : List Move) : (resume s x ms).source = x.2 := by
  obtain ⟨r | ⟨r, k⟩, src⟩ := x <;> cases r <;> rfl

theorem resume_moves (s : State) (x : Progress × Source) (ms : List Move) : (resume s x ms).moves = ms := by
  obtain ⟨r | ⟨r, k⟩, src⟩ := x <;> cases r <;> rfl

/-- `CONSUMED` has grown by what has left the source (R33). -/
theorem resume_offers_consumed (s : State) (src : Source) (n : Nat) (ms : List Move) :
    let x := (offer s.params)^[n] (started src)
    (resume s x ms).consumed + x.2.bs.length = s.consumed + src.bs.length := by
  have hc := offers_count s.params n (started src)
  have h0 : (started src).1.count = 0 := rfl
  simp only [resume_consumed, started] at *
  omega

/-- Settles O53: both runs stand for the same decode, which the parameters and the source alone decide. -/
theorem decodeDependsOnlyOnTheSource : Obligations.DecodeDependsOnlyOnTheSource := by
  intro s1 s2 n hv hparams hp1 hp2 hsrc hm1 hm2
  have hrun1 := runSteps_decode (ms := []) hv hp1 (by rw [hm1, List.append_nil])
  have hrun2 := runSteps_decode (ms := []) (hparams ▸ hv) hp2 (by rw [hm2, hm1, List.append_nil])
  rw [← hparams, ← hsrc] at hrun2
  have hok := offers_ok n (started_ok s1.params s1.source)
  refine ⟨_, _, hrun1, hrun2, by rw [resume_source, resume_source], ?_⟩
  generalize (offer s1.params)^[n] (started s1.source) = x at hok
  have hc : (resume s1 x []).consumed + s2.consumed = (resume s2 x []).consumed + s1.consumed := by
    rw [resume_consumed, resume_consumed]; omega
  obtain ⟨r | ⟨r, k⟩, src⟩ := x
  case busy =>
    obtain ⟨-, hout⟩ := r.state_busy { s1 with source := src, moves := [] }
    exact ⟨by cases r <;> rfl, by cases r <;> rfl, hc, fun h => absurd h (Bool.eq_false_iff.1 hout)⟩
  case ended =>
    exact ⟨rfl, rfl, hc, fun _ => ⟨rfl, r.carried k, Progress.view_ended hok _, Progress.view_ended hok _⟩⟩

end Sys2Proof.Machine
end

section
/-! What offers do to each shape of stream, and that `Decode1` answers the same (spec/42_frame_scanner.md R141, R163,
R164). -/

namespace Sys2Proof.Machine

/-! ## The shapes of a stream -/

/-- What can stand at the front of a stream: no header; a header that ends its frame; a data header and a part of its
payload; a whole data frame. -/
inductive Shape (P : Params) : List Byte → Prop
  | noHeader {bs : List Byte} (h : bs.length < 4) : Shape P bs
  | signal (hd : Header) (rest : List Byte) {k : OutKind} (h : signalKind (classify P (lenParse hd)) = some k) :
      Shape P (hd.bytes ++ rest)
  | cut (hd : Header) (got : List Byte) {n : Nat} (h : classify P (lenParse hd) = .data n) (hlt : got.length < n) :
      Shape P (hd.bytes ++ got)
  | frame (hd : Header) (p rest : List Byte) (h : classify P (lenParse hd) = .data p.length) :
      Shape P (hd.bytes ++ (p ++ rest))

theorem shape_header (P : Params) (hd : Header) (tail : List Byte) : Shape P (hd.bytes ++ tail) := by
  cases hk : signalKind (classify P (lenParse hd)) with
  | some k => exact .signal hd tail hk
  | none =>
    obtain ⟨n, hc⟩ := signalKind_eq_none.1 hk
    by_cases hlt : tail.length < n
    · exact .cut hd tail hc hlt
    · have hn : (tail.take n).length = n := List.length_take_of_le (by omega)
      rw [← List.take_append_drop n tail]
      exact .frame hd _ _ (by rw [hn, hc])

theorem shape_total (P : Params) (bs : List Byte) : Shape P bs := by
  match bs with
  | [] | [_] | [_, _] | [_, _, _] => exact .noHeader (Nat.lt_of_sub_ne_zero nofun)
  | c0 :: c1 :: c2 :: c3 :: tail => exact shape_header P ⟨c0, c1, c2, c3⟩ tail

/-! ## `Decode1` on each shape -/

theorem decode1_noHeader {P : Params} {bs : List Byte} (h : bs.length < 4) (t : Terminator) :
    decode1 P ⟨bs, t⟩ = endEarly t (Reading.header bs).eoiKind := by
  match bs, h with
  | [], _ | [_], _ | [_, _], _ | [_, _, _], _ => rfl

theorem decode1_signal {P : Params} {hd : Header} {k : OutKind} (h : signalKind (classify P (lenParse hd)) = some k)
    (rest : List Byte) (t : Terminator) :
    decode1 P ⟨hd.bytes ++ rest, t⟩ = some ⟨k, (Reading.payload hd []).carried k, ⟨rest, t⟩⟩ := by
  rw [decode1_header]
  cases hc : classify P (lenParse hd) <;> rw [hc] at h <;> cases h <;> rfl

theorem decode1_cut {P : Params} {hd : Header} {got : List Byte} {n : Nat} (h : classify P (lenParse hd) = .data n)
    (hlt : got.length < n) (t : Terminator) : decode1 P ⟨hd.bytes ++ got, t⟩ = endEarly t .truncated := by
  rw [decode1_header, h]
  exact if_pos hlt

theorem startsWithErr_iff_take {p : List Byte} : startsWithErr p = true ↔ 4 ≤ p.length ∧ p.take 4 = Config.errMagic :=
  ⟨fun h => ⟨startsWithErr_length h, eq_of_beq h⟩, fun h => beq_iff_eq.2 h.2⟩

theorem decode1_frame {P : Params} {hd : Header} {p : List Byte} (h : classify P (lenParse hd) = .data p.length)
    (rest : List Byte) (t : Terminator) : decode1 P ⟨hd.bytes ++ (p ++ rest), t⟩ =
      some ⟨payloadKind p, (Reading.payload hd p).carried (payloadKind p), ⟨rest, t⟩⟩ := by
  rw [decode1_header, h]
  simp only [decodePayload, List.length_append, List.take_left, List.drop_left, ← startsWithErr_iff_take, payloadKind]
  rw [if_neg (by omega)]
  split <;> rfl

/-! ## Offers on each shape -/

/-- Bytes of the header, as long as they are fewer than four. -/
theorem offers_header_bytes (P : Params) (t : Terminator) (rest : List Byte) {bs got : List Byte}
    (h : got.length + bs.length ≤ 3) :
    (offer P)^[bs.length] (.busy (.header got), ⟨bs ++ rest, t⟩) = (.busy (.header (got ++ bs)), ⟨rest, t⟩) := by
  induction bs generalizing got with
  | nil => simp
  | cons b bs ih =>
    rw [List.length_cons] at h
    have htake : offer P (.busy (.header got), ⟨b :: bs ++ rest, t⟩) =
        (.busy (.header (got ++ [b])), ⟨bs ++ rest, t⟩) :=
      congrArg (·, _) (take_header (by omega) b)
    rw [List.length_cons, Function.iterate_succ_apply, htake, ih (by simp; omega), List.append_assoc]; rfl

/-- Bytes of the payload, as long as the header has promised them. -/
theorem offers_payload_bytes (P : Params) (hd : Header) (t : Terminator) (rest : List Byte) {bs got : List Byte}
    (h : got.length + bs.length + 4 ≤ (declared hd).toNat) :
    (offer P)^[bs.length] (payloadRead hd got, ⟨bs ++ rest, t⟩) = (payloadRead hd (got ++ bs), ⟨rest, t⟩) := by
  induction bs generalizing got with
  | nil => simp
  | cons b bs ih =>
    rw [List.length_cons] at h
    have hbusy : payloadRead hd got = .busy (.payload hd got) := if_neg (by omega)
    have htake : offer P (.busy (.payload hd got), ⟨b :: bs ++ rest, t⟩) =
        (payloadRead hd (got ++ [b]), ⟨bs ++ rest, t⟩) := rfl
    rw [hbusy, List.length_cons, Function.iterate_succ_apply, htake, ih (by simp; omega), List.append_assoc]; rfl

theorem offers_header (P : Params) (hd : Header) (tail : List Byte) (t : Terminator) :
    (offer P)^[4] (started ⟨hd.bytes ++ tail, t⟩) = (headerRead P hd, ⟨tail, t⟩) := rfl

theorem offers_signal {P : Params} {hd : Header} {k : OutKind} (h : signalKind (classify P (lenParse hd)) = some k)
    (rest : List Byte) (t : Terminator) :
    (offer P)^[hd.bytes.length] (started ⟨hd.bytes ++ rest, t⟩) = (.ended (.payload hd []) k, ⟨rest, t⟩) := by
  refine (offers_header P hd rest t).trans ?_
  rw [headerRead, h]

/-- A data header and payload bytes that it promises. -/
theorem offers_data {P : Params} {hd : Header} {bs : List Byte} {n : Nat} (h : classify P (lenParse hd) = .data n)
    (hn : bs.length ≤ n) (rest : List Byte) (t : Terminator) :
    (offer P)^[(hd.bytes ++ bs).length] (started ⟨hd.bytes ++ (bs ++ rest), t⟩) = (payloadRead hd bs, ⟨rest, t⟩) := by
  obtain ⟨hl, -⟩ := declared_of_data h
  have hread : headerRead P hd = payloadRead hd [] := by rw [headerRead, h]; rfl
  rw [List.length_append, Nat.add_comm, Function.iterate_add_apply]
  show (offer P)^[bs.length] ((offer P)^[4] _) = _
  rw [offers_header, hread, offers_payload_bytes P hd t rest (by simp; omega), List.nil_append]

theorem offers_frame {P : Params} {hd : Header} {p : List Byte} (h : classify P (lenParse hd) = .data p.length)
    (rest : List Byte) (t : Terminator) : (offer P)^[(hd.bytes ++ p).length] (started ⟨hd.bytes ++ (p ++ rest), t⟩) =
      (.ended (.payload hd p) (payloadKind p), ⟨rest, t⟩) := by
  rw [offers_data h (le_refl _), payloadRead, if_pos (declared_of_data h).1]

/-! ## Offers against `Decode1` -/

/-- A decode whose bytes run out: all of them are taken, and the end of the source decides. -/
def RunsOut (P : Params) (src : Source) : Prop :=
  ∃ r : Reading, (offer P)^[src.bs.length] (started src) = (.busy r, ⟨[], src.term⟩) ∧
    decode1 P src = endEarly src.term r.eoiKind

/-- A decode that its bytes decide: `Decode1` answers what the offers come to. -/
def DecidedByBytes (P : Params) (src : Source) : Prop :=
  ∃ (r : Reading) (k : OutKind) (taken rest : List Byte), src.bs = taken ++ rest ∧ ¬ SourceEndKind k ∧
    (offer P)^[taken.length] (started src) = (.ended r k, ⟨rest, src.term⟩) ∧
    decode1 P src = some ⟨k, r.carried k, ⟨rest, src.term⟩⟩

theorem not_sourceEndKind_payloadKind (p : List Byte) : ¬ SourceEndKind (payloadKind p) := by
  simp only [payloadKind]; split <;> simp [SourceEndKind]

theorem not_sourceEndKind_signalKind {c : HeaderClass} {k : OutKind} (h : signalKind c = some k) :
    ¬ SourceEndKind k := by
  cases c <;> cases h <;> simp [SourceEndKind]

theorem runsOut_or_decidedByBytes (P : Params) (src : Source) : RunsOut P src ∨ DecidedByBytes P src := by
  obtain ⟨bs, t⟩ := src
  cases shape_total P bs with
  | noHeader h =>
    have hoffers := offers_header_bytes P t [] (bs := bs) (got := []) (by simp; omega)
    rw [List.append_nil] at hoffers
    exact .inl ⟨.header bs, hoffers, decode1_noHeader h t⟩
  | signal hd rest h =>
    exact .inr ⟨.payload hd [], _, hd.bytes, rest, rfl, not_sourceEndKind_signalKind h, offers_signal h rest t,
      decode1_signal h rest t⟩
  | cut hd got h hlt =>
    have hoffers := offers_data h (Nat.le_of_lt hlt) [] t
    rw [List.append_nil, payloadRead, if_neg (by have := declared_of_data h; omega)] at hoffers
    exact .inl ⟨.payload hd got, hoffers, decode1_cut h hlt t⟩
  | frame hd p rest h =>
    exact .inr ⟨.payload hd p, _, hd.bytes ++ p, rest, (List.append_assoc ..).symm, not_sourceEndKind_payloadKind p,
      offers_frame h rest t, decode1_frame h rest t⟩

/-- The end of the source ends a decode as `Decode1` says. -/
theorem endEarly_eq_some {r : Reading} {t : Terminator} {d : Decoded} (h : endEarly t r.eoiKind = some d) (P : Params) :
    offer P (.busy r, ⟨[], t⟩) = (.ended r d.kind, d.rest) ∧ d.carried = [] ∧ d.rest = ⟨[], t⟩ ∧
      SourceEndKind d.kind := by
  cases t with
  | stall => cases h
  | fail => cases h; exact ⟨rfl, rfl, rfl, .inr (.inr rfl)⟩
  | eoi => cases h; exact ⟨rfl, rfl, rfl, sourceEndKind_eoiKind r⟩

theorem endEarly_eq_none {t : Terminator} {k : OutKind} (h : endEarly t k = none) : t = .stall := by
  cases t with
  | stall => rfl
  | fail | eoi => cases h

theorem eventsOf_sourceEnd {src : Source} {d : Decoded} (hr : d.rest.bs = []) (hk : SourceEndKind d.kind) :
    eventsOf src d = src.bs.length + 1 := by
  obtain hk | hk | hk := hk <;> simp [eventsOf, hr, hk]

theorem eventsOf_bytes {src : Source} {d : Decoded} {taken : List Byte} (hb : src.bs = taken ++ d.rest.bs)
    (hk : ¬ SourceEndKind d.kind) : eventsOf src d = taken.length := by
  have hlen : src.bs.length - d.rest.bs.length = taken.length := by rw [hb, List.length_append]; omega
  rw [eventsOf, hlen]
  cases hkind : d.kind <;> simp_all [SourceEndKind]

/-- As many offers as `Decode1` has events end the decode with its outcome and leave its source (R164). -/
theorem offers_eventsOf {P : Params} {src : Source} {d : Decoded} (h : decode1 P src = some d) :
    ∃ r : Reading, (offer P)^[eventsOf src d] (started src) = (.ended r d.kind, d.rest) ∧
      d.carried = r.carried d.kind := by
  obtain ⟨r, hoffers, hd⟩ | ⟨r, k, taken, rest, hb, hk, hoffers, hd⟩ := runsOut_or_decidedByBytes P src
  · obtain ⟨hend, hcarried, hrest, hkind⟩ := endEarly_eq_some (hd.symm.trans h) P
    refine ⟨r, ?_, hcarried.trans (carried_sourceEnd hkind).symm⟩
    rw [eventsOf_sourceEnd (by rw [hrest]) hkind, Function.iterate_succ_apply', hoffers, hend]
  · obtain rfl := Option.some.inj (hd.symm.trans h)
    refine ⟨r, ?_, rfl⟩
    rw [eventsOf_bytes hb hk, hoffers]

/-- A blocked decode has taken every byte, and further offers do nothing (R164). -/
theorem offers_blocked {P : Params} {src : Source} (h : decode1 P src = none) (n : Nat) :
    ∃ r : Reading, (offer P)^[src.bs.length + n] (started src) = (.busy r, ⟨[], .stall⟩) := by
  obtain ⟨r, hoffers, hd⟩ | ⟨r, k, taken, rest, -, -, -, hd⟩ := runsOut_or_decidedByBytes P src
  · have ht : src.term = .stall := endEarly_eq_none (hd.symm.trans h)
    refine ⟨r, ?_⟩
    rw [Nat.add_comm, Function.iterate_add_apply, hoffers, ht]
    exact Function.iterate_fixed rfl n
  · cases hd.symm.trans h

/-! ## The statements -/

/-- Settles O51: the machine follows the offers, and the offers come to what `Decode1` answers. -/
theorem eventsAgreeWithDecode1 : Obligations.EventsAgreeWithDecode1 := by
  intro s ms hv hp
  refine ⟨fun d hd hm => ?outcome, fun n hd hm => ?blocked⟩
  case outcome =>
    obtain ⟨r, hoffers, hcarried⟩ := offers_eventsOf hd
    have hok := offers_ok (eventsOf s.source d) (started_ok s.params s.source)
    have hcons := resume_offers_consumed s s.source (eventsOf s.source d) ms
    have hrun := runSteps_decode hv hp hm
    rw [hoffers] at hok hcons hrun
    exact ⟨_, hrun, rfl, rfl, rfl, (Progress.view_ended hok _).trans (by rw [hcarried]), resume_source ..,
      resume_moves .., hcons⟩
  case blocked =>
    obtain ⟨r, hoffers⟩ := offers_blocked hd n
    have hcons := resume_offers_consumed s s.source (s.source.bs.length + n) ms
    have hrun := runSteps_decode hv hp hm
    rw [hoffers] at hcons hrun
    obtain ⟨hphase, hout⟩ := r.state_busy { s with source := ⟨[], .stall⟩, moves := ms }
    exact ⟨_, hrun, hout, hphase, resume_source .., resume_moves .., hcons⟩

section
variable {s : State} {rest : List Byte} {ms : List Move} (hv : s.params.Valid) (hp : s.phase = .idle)
include hv hp

/-- The events of a header leave what its class says (R144). -/
theorem runSteps_header {hd : Header} {c : HeaderClass} (hc : classify s.params (lenParse hd) = c)
    (hb : s.source.bs = hd.bytes ++ rest)
    (hm : s.moves = .pull :: (List.replicate hd.bytes.length .src ++ ms)) : runSteps (1 + hd.bytes.length) s =
      .next (afterHeader c (declared hd) (headerTaken hd { s with source := ⟨rest, s.source.term⟩, moves := ms })) := by
  have hoffers := offers_header s.params hd rest s.source.term
  rw [← hb] at hoffers
  rw [runSteps_decode hv hp hm, ← hc, afterHeader_headerTaken]
  exact congrArg (fun x => Host.Outcome.next (resume s x ms)) hoffers

/-- The events of a frame with a payload. -/
theorem runSteps_frame {hd : Header} {p : List Byte} (hc : classify s.params (lenParse hd) = .data p.length)
    (hb : s.source.bs = hd.bytes ++ p ++ rest)
    (hm : s.moves = .pull :: (List.replicate (hd.bytes ++ p).length .src ++ ms)) :
    runSteps (1 + (hd.bytes ++ p).length) s =
      .next (resume s (.ended (.payload hd p) (payloadKind p), ⟨rest, s.source.term⟩) ms) := by
  rw [runSteps_decode hv hp hm, ← offers_frame hc rest s.source.term, ← List.append_assoc, ← hb]

end

/-- Settles O52: the events of each frame's bytes end in the state its row answers. -/
theorem wholeFrameEqualsItsEvents : Obligations.WholeFrameEqualsItsEvents := by
  intro s i rest ms hv hp hi hw hb hm
  have hv' : State.params { s with source := ⟨rest, s.source.term⟩, moves := ms } |>.Valid := hv
  cases i with
  | flush =>
    exact (runSteps_header hv hp (classify_flush.2 lenParse_flush) hb hm).trans (exec_flush_idle hv' hp).symm
  | delim =>
    exact (runSteps_header hv hp (classify_delim.2 lenParse_delim) hb hm).trans (exec_delim_idle hv' hp).symm
  | responseEnd =>
    exact (runSteps_header hv hp (classify_responseEnd.2 lenParse_responseEnd) hb hm).trans
      (exec_responseEnd_idle hv' hp).symm
  | rsvd3 =>
    exact (runSteps_header hv hp (classify_rsvd3.2 lenParse_rsvd3) hb hm).trans (exec_rsvd3_idle hv' hp).symm
  | overmax hd =>
    obtain ⟨l, hl, hmax⟩ := wellFormed_overmax hw
    rw [exec_overmax_idle hv' hp hl hmax, ← declared_eq hl]
    exact runSteps_header hv hp ((classify_overmax hv.1).2 ⟨l, hl, hmax⟩) hb hm
  | nonhex hd =>
    have hl := wellFormed_nonhex hw
    exact (runSteps_header hv hp (classify_nonhex.2 hl) hb hm).trans (exec_nonhex_idle hv' hp hl).symm
  | data hd p =>
    obtain ⟨l, hl, hn, hmax⟩ := wellFormed_data hw
    have he : startsWithErr p = false := not_startsWithErr_of_wellFormed hw
    have hk : payloadKind p = .payload := if_neg (Bool.eq_false_iff.1 he)
    refine (runSteps_frame hv hp (classify_data.2 ⟨l, hl, hn, hmax⟩) hb hm).trans ?_
    rw [exec_data_idle hv' hp hl hn hmax (beq_eq_false_iff_ne.1 he), hk, ← declared_eq hl]; rfl
  | errline hd txt =>
    obtain ⟨l, hl, hn, hmax⟩ := wellFormed_errline hw
    have hn' : (Config.errMagic ++ txt).length + 4 = l.toNat := by rw [errMagic_append_length, hn]
    have hk : payloadKind (Config.errMagic ++ txt) = .errorLine := if_pos (startsWithErr_iff.2 ⟨txt, rfl⟩)
    refine (runSteps_frame hv hp (classify_data.2 ⟨l, hl, hn', hmax⟩) hb hm).trans ?_
    rw [exec_errline_idle hv' hp hl hn hmax, hk, ← declared_eq hl]; rfl
  | sbPack | sbProgress | sbFatal | sbInvalid | hexdigDec | hexdigUpper | hexdigLower | hexdigNone | reset | pull |
    srcByteHdr | srcBytePay | srcEoiHdr | srcEoiPay | srcFailHdr | srcFailPay | srcRsvd | hexenc | encLength |
    encFrame | encFlush | encDelim | encResponseEnd | encSideband => cases hi

end Sys2Proof.Machine
end

section
/-! What each outcome of `Decode1` takes from the stream, an exhausted source, and the round trip through the encoder
(spec/42_frame_scanner.md R163, R168, R172). -/

namespace Sys2Proof.Machine

/-! ## The bytes of an outcome -/

theorem header_append_length (hd : Header) (bs : List Byte) : (hd.bytes ++ bs).length = 4 + bs.length :=
  List.length_append ..

/-- Settles O50, by the shape of the stream and what ended the decode. -/
theorem eachOutcomeConsumesItsBytes : Obligations.EachOutcomeConsumesItsBytes := by
  rintro P ⟨bs, t⟩ d hd
  cases shape_total P bs with
  | noHeader h =>
    rw [decode1_noHeader h] at hd
    refine ⟨bs, ?_⟩
    cases t with
    | stall => cases hd
    | fail =>
      cases hd
      exact ⟨(List.append_nil bs).symm, rfl, by simp, by simp, nofun, nofun, nofun, fun _ => ⟨rfl, rfl, .inl h⟩, nofun⟩
    | eoi =>
      cases hd
      cases bs with
      | nil =>
        exact ⟨rfl, rfl, by simp [Reading.eoiKind], by simp [Reading.eoiKind], nofun, nofun, fun _ => ⟨rfl, rfl⟩,
          by simp [Reading.eoiKind], nofun⟩
      | cons b bs =>
        exact ⟨(List.append_nil _).symm, rfl, by simp [Reading.eoiKind], by simp [Reading.eoiKind], nofun, nofun, nofun,
          fun _ => ⟨rfl, rfl, .inl h⟩, fun _ => by simp⟩
  | signal hdr rest h =>
    rw [decode1_signal h] at hd
    cases hd
    refine ⟨hdr.bytes, rfl, rfl, fun _ => rfl, ?_⟩
    have hsignal : ∀ c k, signalKind c = some k → k = .flush ∨ k = .delim ∨ k = .responseEnd ∨ k = .invalidLength := by
      intro c k hk
      cases c <;> cases hk <;> simp
    obtain rfl | rfl | rfl | rfl := hsignal _ _ h <;> simp
  | cut hdr got h hlt =>
    rw [decode1_cut h hlt] at hd
    obtain ⟨l, hl, hn, -⟩ := classify_data.1 h
    have hshort : (hdr.bytes ++ got).length < l.toNat := by rw [header_append_length]; omega
    refine ⟨hdr.bytes ++ got, ?_⟩
    cases t with
    | stall => cases hd
    | fail =>
      cases hd
      exact ⟨(List.append_nil _).symm, rfl, by simp, by simp, nofun, nofun, nofun,
        fun _ => ⟨rfl, rfl, .inr ⟨hdr, l, got, rfl, hl, hshort⟩⟩, nofun⟩
    | eoi =>
      cases hd
      exact ⟨(List.append_nil _).symm, rfl, by simp, by simp, nofun, nofun, nofun,
        fun _ => ⟨rfl, rfl, .inr ⟨hdr, l, got, rfl, hl, hshort⟩⟩, fun _ => by rw [header_append_length]; omega⟩
  | frame hdr p rest h =>
    obtain ⟨l, hl, hn, -⟩ := classify_data.1 h
    have hlen : (hdr.bytes ++ p).length = l.toNat := by rw [header_append_length]; omega
    rw [decode1_frame h] at hd
    refine ⟨hdr.bytes ++ p, ?_⟩
    by_cases he : startsWithErr p = true
    · have hk : payloadKind p = .errorLine := if_pos he
      have h4 := startsWithErr_length he
      rw [hk] at hd
      cases hd
      refine ⟨(List.append_assoc ..).symm, rfl, by simp, fun _ => ⟨hdr, l, p, rfl, hl, hlen⟩, nofun, fun _ => ?_, nofun,
        by simp, nofun⟩
      show _ = 8 + (p.drop 4).length
      rw [header_append_length, List.length_drop]; omega
    · have hk : payloadKind p = .payload := if_neg he
      rw [hk] at hd
      cases hd
      exact ⟨(List.append_assoc ..).symm, rfl, by simp, fun _ => ⟨hdr, l, p, rfl, hl, hlen⟩,
        fun _ => header_append_length hdr p, nofun, nofun, by simp, nofun⟩

/-! ## An exhausted source -/

theorem outcomes_of_decode1_same {P : Params} {src : Source} {k : OutKind} (h : decode1 P src = some ⟨k, [], src⟩)
    (n : Nat) : outcomes P n src = List.replicate n (k, []) := by
  induction n with
  | zero => rfl
  | succ n ih => simp only [outcomes, h, ih, List.replicate_succ]

theorem outcomes_eoi (P : Params) (n : Nat) : outcomes P n ⟨[], .eoi⟩ = List.replicate n (.endOfInput, []) :=
  outcomes_of_decode1_same rfl n

/-- A truncated stream has no byte left, and its end is a clean one (R172). -/
theorem rest_of_truncated {P : Params} {src : Source} {d : Decoded} (h : decode1 P src = some d)
    (hk : d.kind = .truncated) : d.rest = ⟨[], .eoi⟩ := by
  obtain ⟨r, -, hd⟩ | ⟨r, k, taken, rest, -, hn, -, hd⟩ := runsOut_or_decidedByBytes P src
  · rw [hd] at h
    cases ht : src.term <;> rw [ht] at h <;> cases h
    · rfl
    · cases hk
  · obtain rfl := Option.some.inj (hd.symm.trans h)
    exact absurd (.inr (.inl hk)) hn

/-- A `PULL` and one offer of a source that is at its end publish its condition, and take and store nothing. -/
theorem runSteps_exhausted {s : State} {ms : List Move} {k : OutKind} {t : Terminator} (hp : s.phase = .idle)
    (hm : s.moves = .pull :: .src :: ms) (hs : s.source = ⟨[], t⟩)
    (ho : offer s.params (started ⟨[], t⟩) = (.ended (.header []) k, ⟨[], t⟩)) (hk : SourceEndKind k) :
    ∃ u, runSteps 2 s = .next u ∧ Published u k 0 0 ∧ u.source = s.source ∧ u.moves = ms ∧
      u.consumed = s.consumed ∧ SameBuffer s u := by
  have hrun : runSteps 2 s = .next (resume s (.ended (.header []) k, ⟨[], t⟩) ms) := by
    rw [runSteps_succ, step_pull_idle hp hm, andThen_next, runSteps_succ, hs, started,
      step_resume_noByte (s := s) (r := .header []) (Nat.zero_le 3), andThen_next, runSteps_zero]
    exact congrArg (fun x => Host.Outcome.next (resume s x ms)) ho
  refine ⟨_, hrun, ?_, hs.symm, rfl, rfl, fun _ => rfl⟩
  obtain rfl | rfl | rfl := hk <;> exact published_finish _ 0 0 _

/-- Settles O54: every decode of an exhausted source gives its condition and leaves it, in `Decode1` and in the
machine. -/
theorem exhaustedSourceRepeatsItsCondition : Obligations.ExhaustedSourceRepeatsItsCondition := by
  refine ⟨fun P n => ⟨outcomes_eoi P n, outcomes_of_decode1_same rfl n⟩, fun P src d n hd hk => ?truncated,
    fun s ms hp hm => ⟨fun hs => ?eoi, fun hs => ?fail⟩⟩
  case truncated => rw [rest_of_truncated hd hk, outcomes_eoi]
  case eoi => exact runSteps_exhausted hp hm hs rfl (.inl rfl)
  case fail => exact runSteps_exhausted hp hm hs rfl (.inr (.inr rfl))

/-! ## The encoder -/

/-- The four digits the encoder writes spell the length (R192, R207). -/
theorem exists_encodeLength {P : Params} (hv : P.Valid) {n : Nat} (hn : n ≤ P.maxPayloadEnc) :
    ∃ hd, encodeLength P n = some hd ∧ classify P (lenParse hd) = .data n := by
  have hm := (valid_le_maxPayloadEnc hv).1 hn
  obtain ⟨-, hmax, -⟩ := hv
  refine ⟨_, encodeLength_some hm, classify_data.2 ⟨_, lenParse_eq_some.2 ⟨_, _, _, _, hexDecode_hexEncode _,
    hexDecode_hexEncode _, hexDecode_hexEncode _, hexDecode_hexEncode _, rfl⟩, ?_⟩⟩
  rw [assembleLength_toNat]
  simp only [BitVec.toNat_ofNat]
  omega

/-- Settles O18: the encoder's header promises the payload, and `Decode1` reads such a frame. -/
theorem frameRoundTripThroughDecode1 : Obligations.FrameRoundTripThroughDecode1 := by
  intro P p x t hv hp
  obtain ⟨hd, henc, hc⟩ := exists_encodeLength hv hp
  have hdec := decode1_frame hc x t
  rw [← List.append_assoc] at hdec
  refine ⟨hd.bytes ++ p, by rw [encodeFrame, henc]; rfl, fun he => ?payload, fun he => ?errorLine⟩
  case payload =>
    have hk : payloadKind p = .payload := if_neg fun h => he (startsWithErr_iff_take.1 h).2
    rw [hk] at hdec
    exact hdec
  case errorLine =>
    have hk : payloadKind p = .errorLine := if_pos (beq_iff_eq.2 he)
    rw [hk] at hdec
    exact hdec

end Sys2Proof.Machine
end

section
/-! The sideband demultiplexer: its four rows, its inverse, and the outputs that read it from the view
(spec/43_sideband_demux.md R180 to R185, R189). -/

namespace Sys2Proof.Machine

/-! ## The tag byte (R83, R91) -/

theorem tagOfByte_invalid {b : Byte} : tagOfByte b = .invalid ↔ b ≠ 1 ∧ b ≠ 2 ∧ b ≠ 3 := by
  constructor
  · intro h
    refine ⟨?_, ?_, ?_⟩ <;> rintro rfl <;> cases h
  · rintro ⟨h1, h2, h3⟩
    rw [tagOfByte, if_neg h1, if_neg h2, if_neg h3]

@[simp] theorem tagOfByte_tagCode (t : Tag) : tagOfByte ((tagCode t).setWidth 8) = t := by cases t <;> rfl

theorem tagCode_tagOfByte {b : Byte} (h : tagOfByte b ≠ .invalid) : (tagCode (tagOfByte b)).setWidth 8 = b := by
  cases hb : tagOfByte b with
  | invalid => exact absurd hb h
  | pack => exact (tagOfByte_pack.1 hb).symm
  | progress => exact (tagOfByte_progress.1 hb).symm
  | fatal => exact (tagOfByte_fatal.1 hb).symm

/-! ## The two functions, by the tag of the first byte -/

theorem decodeSideband_tagged {b : Byte} (h : tagOfByte b ≠ .invalid) (c : List Byte) :
    decodeSideband (b :: c) = (tagOfByte b, c) := by
  cases hb : tagOfByte b with
  | invalid => exact absurd hb h
  | pack | progress | fatal => simp [decodeSideband, hb]

theorem decodeSideband_untagged {p : List Byte} (h : ∀ b c, p = b :: c → tagOfByte b = .invalid) :
    decodeSideband p = (.invalid, p) := by
  cases p with
  | nil => rfl
  | cons b c => simp [decodeSideband, h b c rfl]

theorem encodeSideband_tagged {g : Byte} (h : tagOfByte g ≠ .invalid) (c : List Byte) :
    encodeSideband g c = some (g :: c) := by
  cases hg : tagOfByte g with
  | invalid => exact absurd hg h
  | pack | progress | fatal => simp [encodeSideband, hg]

theorem wellFormed_sbInvalid {P : Params} {p : List Byte} (h : ∀ b c, p = b :: c → tagOfByte b = .invalid) :
    (Instr.sbInvalid p).wellFormed P = true := by
  cases p with
  | nil => rfl
  | cons b c => simp [Instr.wellFormed, h b c rfl]

/-- Settles O9: a tagged row answers its content, and the row without a tag is well formed and answers its bytes. -/
theorem sidebandRowsReturnTagAndRemainder : Obligations.SidebandRowsReturnTagAndRemainder := by
  intro s
  refine ⟨fun c => ⟨rfl, decodeSideband_tagged (b := 1) nofun c⟩, fun c => ⟨rfl, decodeSideband_tagged (b := 2) nofun c⟩,
    fun c => ⟨rfl, decodeSideband_tagged (b := 3) nofun c⟩, fun p hp => ?untagged⟩
  case untagged =>
    have hu : ∀ b c, p = b :: c → tagOfByte b = .invalid := fun b c h => tagOfByte_invalid.2 (hp b c h)
    exact ⟨whenWellFormed_wf (i := .sbInvalid p) (wellFormed_sbInvalid hu) _, decodeSideband_untagged hu⟩

/-- Settles O10: both functions put or take the tag's own byte at the front. -/
theorem sidebandDecodeInvertsEncode : Obligations.SidebandDecodeInvertsEncode := by
  refine ⟨fun t c ht => ?decodeEncode, fun p r t hd ht => ?encodeDecode⟩
  case decodeEncode =>
    have hb : tagOfByte ((tagCode t).setWidth 8) ≠ .invalid := by rwa [tagOfByte_tagCode]
    exact ⟨_, encodeSideband_tagged hb c, by rw [decodeSideband_tagged hb, tagOfByte_tagCode]⟩
  case encodeDecode =>
    obtain hu | ⟨b, c, rfl, hb, htag⟩ := decodeSideband_cases p
    · exact absurd (congrArg Prod.fst (hd.symm.trans hu)) ht
    · obtain ⟨rfl, rfl⟩ := Prod.mk.inj (hd.symm.trans htag)
      rw [tagCode_tagOfByte hb]
      exact encodeSideband_tagged hb r

/-! ## The outputs that read the view (R185) -/

theorem sidebandOut_untagged {s : State} {p : List Byte} (hv : s.outValid = true) (hk : s.outKind = .payload)
    (hview : s.view = some p) (ht : (decodeSideband p).1 = .invalid) :
    s.sidebandOut = some ⟨.invalid, s.viewOff, s.viewLen⟩ := by
  simp [State.sidebandOut, hv, hk, hview, ht]

theorem sidebandOut_tagged {s : State} {p : List Byte} (hv : s.outValid = true) (hk : s.outKind = .payload)
    (hview : s.view = some p) (ht : (decodeSideband p).1 ≠ .invalid) :
    s.sidebandOut = some ⟨(decodeSideband p).1, s.viewOff + 1, s.viewLen - 1⟩ := by
  cases htag : (decodeSideband p).1 with
  | invalid => exact absurd htag ht
  | pack | progress | fatal => simp [State.sidebandOut, hv, hk, hview, htag]

theorem sidebandOut_of_no_payload {s : State} (h : s.outValid = false ∨ s.outKind ≠ .payload) :
    s.sidebandOut = some ⟨.invalid, s.viewOff, s.viewLen⟩ := by
  refine if_neg ?_
  rintro ⟨hv, hk⟩
  obtain h | h := h
  · exact absurd (hv.symm.trans h) nofun
  · exact h hk

/-- Without its first byte a range reads as the remaining bytes. -/
theorem Memory.readRange_tail {m : Memory} {a n : Nat} {b : Byte} {c : List Byte}
    (h : m.readRange a n = some (b :: c)) : m.readRange (a + 1) (n - 1) = some c := by
  obtain ⟨rfl, hread⟩ := Memory.readRange_eq_some.1 h
  refine Memory.readRange_eq_some.2 ⟨rfl, fun j hj => ?_⟩
  rw [Nat.add_assoc, Nat.add_comm 1 j, hread (j + 1) (by simpa using hj), List.getElem?_cons_succ]

theorem Inv.exists_view {s : State} (h : Inv s) (hv : s.outValid = true) : ∃ p, s.view = some p := by
  obtain ⟨-, -, -, hw⟩ := h.published hv
  exact Option.isSome_iff_exists.1 (Memory.readRange_isSome.2 hw)

theorem Inv.payload_viewOff {s : State} (h : Inv s) (hv : s.outValid = true) (hk : s.outKind = .payload) :
    s.viewOff = 4 := by
  obtain ⟨-, -, hview, -⟩ := h.published hv
  simpa [ViewOfKind, hk] using hview

/-- Past a tag byte, `MemRead(SB_OFF, SB_LEN)` is the remainder (R185): the view is not empty, so `SB_LEN` does not
wrap. -/
theorem readRange_past_tag {s : State} {b : Byte} {c : List Byte} (hoff : s.viewOff = 4)
    (hview : s.view = some (b :: c)) : s.buf.readRange (s.viewOff + 1).toNat (s.viewLen - 1).toNat = some c := by
  have hlen : c.length + 1 = s.viewLen.toNat := (Memory.readRange_eq_some.1 hview).1
  have hoff' : (s.viewOff + 1).toNat = s.viewOff.toNat + 1 := by rw [hoff]; rfl
  have hlen' : (s.viewLen - 1).toNat = s.viewLen.toNat - 1 := by bv_omega
  rw [hoff', hlen']
  exact Memory.readRange_tail hview

/-- Settles O49: the view of a `PAYLOAD` is readable and begins at 4, and its first byte is a tag or is not. -/
theorem sidebandOutputsReadTheView : Obligations.SidebandOutputsReadTheView := by
  refine fun s h => ⟨fun hv hk => ?payload, sidebandOut_of_no_payload⟩
  obtain ⟨p, hview⟩ := h.exists_view hv
  have hoff := h.payload_viewOff hv hk
  obtain hu | ⟨b, c, rfl, hb, ht⟩ := decodeSideband_cases p
  · have hout := sidebandOut_untagged hv hk hview (by rw [hu])
    refine ⟨p, _, hview, hout, by rw [hu], fun _ => ⟨rfl, rfl⟩, fun hn => absurd rfl hn, .inl hoff, ?_⟩
    rw [hu]
    exact hview
  · have hout := sidebandOut_tagged hv hk hview (by rwa [ht])
    rw [ht] at hout
    refine ⟨b :: c, _, hview, hout, by rw [ht], fun hn => absurd hn hb, fun _ => ⟨rfl, rfl⟩, .inr ?_, ?_⟩
    · show s.viewOff + 1 = 5
      rw [hoff]; rfl
    · rw [ht]
      exact readRange_past_tag hoff hview

end Sys2Proof.Machine
end

section
/-! The frame encoder: its digits and its length field, what each of its rows answers, and what every frame it
produces keeps (spec/44_encoder_reference.md R191 to R200, R206, R207). -/

namespace Sys2Proof.Machine

/-! ## The digits and the length field -/

/-- R191, in numbers. -/
theorem hexEncode_toNat (n : Nibble) :
    (hexEncode n).toNat = if n.toNat ≤ 9 then 0x30 + n.toNat else 0x61 + (n.toNat - 10) := by
  have hn := n.isLt
  rw [hexEncode]
  split <;> exact Nat.mod_eq_of_lt (by omega)

/-- A length field exists only up to the maximum (R193), and then it is the one `encodeLength_some` writes out. -/
theorem le_maxDeclared_of_encodeLength {P : Params} {k : Nat} {hd : Header} (h : encodeLength P k = some hd) :
    k + 4 ≤ P.maxDeclared := by
  by_contra hlt
  rw [encodeLength_none (Nat.lt_of_not_le hlt)] at h
  cases h

/-- Every byte of a length field is one of the encoder's digits (R192). -/
theorem encodeLength_bytes {P : Params} {k : Nat} {hd : Header} (h : encodeLength P k = some hd) :
    ∀ b ∈ hd.bytes, ∃ n, b = hexEncode n := by
  rw [encodeLength_some (le_maxDeclared_of_encodeLength h)] at h
  cases h
  simp [Header.bytes]

/-- The length field spells the payload's length plus 4 (R207). -/
theorem lenParse_encodeLength {P : Params} {k : Nat} {hd : Header} (hv : P.Valid) (h : encodeLength P k = some hd) :
    ∃ l, lenParse hd = some l ∧ l.toNat = k + 4 := by
  obtain ⟨hd', henc, hc⟩ := exists_encodeLength hv ((valid_le_maxPayloadEnc hv).2 (le_maxDeclared_of_encodeLength h))
  obtain rfl : hd' = hd := Option.some.inj (henc.symm.trans h)
  obtain ⟨l, hl, hn, -⟩ := classify_data.1 hc
  exact ⟨l, hl, hn.symm⟩

/-- Settles O16: the value the field spells is `n + 4`, whose class is `DATA(n)`. -/
theorem lengthFieldRoundTrip : Obligations.LengthFieldRoundTrip := by
  intro P n hv hn
  obtain ⟨hd, henc, hc⟩ := exists_encodeLength hv hn
  obtain ⟨l, hl, hln⟩ := lenParse_encodeLength hv henc
  obtain rfl : l = BitVec.ofNat 16 (n + 4) := by rw [← hln, BitVec.ofNat_toNat, BitVec.setWidth_eq]
  exact ⟨hd, henc, hl, hl ▸ hc⟩

/-! ## Frames -/

theorem encodeFrame_eq_some {P : Params} {p bs : List Byte} :
    encodeFrame P p = some bs ↔ ∃ hd, encodeLength P p.length = some hd ∧ hd.bytes ++ p = bs := by
  rw [encodeFrame, Option.map_eq_some_iff]

theorem encodeFrame_eq_none {P : Params} {p : List Byte} :
    encodeFrame P p = none ↔ encodeLength P p.length = none := by
  rw [encodeFrame, Option.map_eq_none_iff]

/-- Settles O17: the frame's field is a length field of the encoder, so it spells the length in its own digits. -/
theorem encodedFrameKeepsTheFrameInvariant : Obligations.EncodedFrameKeepsTheFrameInvariant := by
  intro P p bs hv h
  obtain ⟨hd, henc, rfl⟩ := encodeFrame_eq_some.1 h
  have hle := le_maxDeclared_of_encodeLength henc
  obtain ⟨l, hl, hln⟩ := lenParse_encodeLength hv henc
  refine ⟨hd, l, rfl, hl, by omega, by omega, by omega, fun b hb => ?_⟩
  obtain ⟨n, rfl⟩ := encodeLength_bytes henc b hb
  exact hexEncode_lowerCase n

/-! ## What the rows answer: the bytes of the function, or its refusal (R190, R193, R199) -/

theorem exec_encLength_some {s : State} {k : Nat} {hd : Header} (h : encodeLength s.params k = some hd) :
    exec (.encLength k) s = .next { s with answer := .bytes hd.bytes } := by
  simp only [exec, execEncLength, h, giveAnswer]

theorem exec_encLength_none {s : State} {k : Nat} (h : encodeLength s.params k = none) :
    exec (.encLength k) s = .refused .encoderPreconditionViolation := by
  simp only [exec, execEncLength, h]

theorem exec_encFrame_some {s : State} {p bs : List Byte} (h : encodeFrame s.params p = some bs) :
    exec (.encFrame p) s = .next { s with answer := .bytes bs } := by
  simp only [exec, execEncFrame, h, giveAnswer]

theorem exec_encFrame_none {s : State} {p : List Byte} (h : encodeFrame s.params p = none) :
    exec (.encFrame p) s = .refused .encoderPreconditionViolation := by
  simp only [exec, execEncFrame, h]

theorem exec_encSideband_some {g : Byte} {c bs : List Byte} (h : encodeSideband g c = some bs) (s : State) :
    exec (.encSideband g c) s = .next { s with answer := .bytes bs } := by
  simp only [exec, execEncSideband, h, giveAnswer]

theorem exec_encSideband_none {g : Byte} {c : List Byte} (h : encodeSideband g c = none) (s : State) :
    exec (.encSideband g c) s = .refused .sidebandTagUndefined := by
  simp only [exec, execEncSideband, h]

theorem encodeSideband_untagged {g : Byte} (h : tagOfByte g = .invalid) (c : List Byte) : encodeSideband g c = none := by
  simp only [encodeSideband, h]

/-- Settles O11: a byte stands for a tag exactly when it is 1, 2 or 3. -/
theorem sidebandEncoderPrependsOrRefuses : Obligations.SidebandEncoderPrependsOrRefuses := by
  refine fun g c s => ⟨fun hg => ?tagged, fun hg => ?untagged⟩
  case tagged =>
    have htag : tagOfByte g ≠ .invalid := by
      rw [Ne, tagOfByte_invalid]
      tauto
    exact exec_encSideband_some (encodeSideband_tagged htag c) s
  case untagged => exact exec_encSideband_none (encodeSideband_untagged (tagOfByte_invalid.2 hg) c) s

/-- Settles O12: the row answers `hexEncode` of the nibble. -/
theorem hexEncodeReturnsTheDigit : Obligations.HexEncodeReturnsTheDigit :=
  fun n _ => ⟨hexEncode n, rfl, hexEncode_toNat n, hexDecode_hexEncode n⟩

/-- Settles O13: up to the maximum the length field exists, digit by digit. -/
theorem encoderReturnsPrefixAndPayload : Obligations.EncoderReturnsPrefixAndPayload := by
  refine ⟨fun k s hv hk => ?length, fun p s hv hp => ?frame⟩
  case length => exact exec_encLength_some (encodeLength_some ((valid_le_maxPayloadEnc hv).1 hk))
  case frame =>
    have henc := encodeLength_some ((valid_le_maxPayloadEnc hv).1 hp)
    exact exec_encFrame_some (encodeFrame_eq_some.2 ⟨_, henc, rfl⟩)

/-- Above `MAX_PAYLOAD_ENC` there is no length field, whatever the parameters (R193). -/
theorem encodeLength_above_maxPayloadEnc {P : Params} {k : Nat} (h : P.maxPayloadEnc < k) : encodeLength P k = none := by
  rw [Params.maxPayloadEnc] at h
  exact encodeLength_none (by omega)

/-- Settles O14: without a length field both rows refuse. -/
theorem encoderRefusesAboveTheMaximum : Obligations.EncoderRefusesAboveTheMaximum :=
  ⟨rfl, fun _ _ hk => exec_encLength_none (encodeLength_above_maxPayloadEnc hk),
    fun _ _ hp => exec_encFrame_none (encodeFrame_eq_none.2 (encodeLength_above_maxPayloadEnc hp))⟩

/-- Settles O15: each row answers the header of its control frame, which `Decode1` reads as that signal. -/
theorem controlEncodersRoundTrip : Obligations.ControlEncodersRoundTrip := by
  refine fun s x t => ⟨⟨rfl, ?flush⟩, ⟨rfl, ?delim⟩, ⟨rfl, ?responseEnd⟩⟩
  case flush => exact decode1_signal (hd := .flush) (congrArg signalKind (classify_flush.2 lenParse_flush)) x t
  case delim => exact decode1_signal (hd := .delim) (congrArg signalKind (classify_delim.2 lenParse_delim)) x t
  case responseEnd =>
    exact decode1_signal (hd := .responseEnd) (congrArg signalKind (classify_responseEnd.2 lenParse_responseEnd)) x t

end Sys2Proof.Machine
end

section
/-! The cause of an `INVALID_LENGTH`, recomputed from the raw header (spec/60_exceptions.md R215). -/

namespace Sys2Proof.Machine

/-! ## The cause by the value of the length field -/

theorem invalidCause_nonhex {hd : Header} (h : lenParse hd = none) : invalidCause hd = .nonhex := by
  rw [invalidCause, h]

theorem invalidCause_rsvd3 {hd : Header} (h : lenParse hd = some 3) : invalidCause hd = .rsvd3 := by
  rw [invalidCause, h]; rfl

theorem invalidCause_overmax {hd : Header} {l : Word16} (h : lenParse hd = some l) (h3 : l ≠ 3) :
    invalidCause hd = .overmax := by
  rw [invalidCause, h]; exact if_neg h3

/-- A value above the maximum is not the reserved 3: R8 has the maximum at 4 or more. -/
theorem ne_three_of_maxDeclared_lt {P : Params} {l : Word16} (hv : P.Valid) (hm : P.maxDeclared < l.toNat) :
    l ≠ 3 := by
  rintro rfl
  exact absurd (hv.1.trans hm.le) (by decide)

/-! ## The raw header -/

/-- The outcome of a frame that ends at its header has that header as its raw bytes. -/
theorem raw_headerFinished (hd : Header) (k : OutKind) (l n : Word16) (s : State) :
    (headerFinished hd k l n s).raw = some hd :=
  Memory.header_writeAll_header s.buf hd

/-! ## The statement -/

/-- Settles O37: each row ends at its header, and its own condition on the length field is the cause's. -/
theorem invalidCauseIsInTheRawBytes : Obligations.InvalidCauseIsInTheRawBytes := by
  refine fun s t hv hp => ⟨fun h => ?rsvd3, fun hd h => ?overmax, fun hd h => ?nonhex⟩
  case rsvd3 =>
    cases (exec_rsvd3_idle hv hp).symm.trans h
    exact ⟨Header.rsvd3, raw_headerFinished _ .invalidLength 3 4 s, invalidCause_rsvd3 lenParse_rsvd3⟩
  case overmax =>
    obtain ⟨l, hl, hm⟩ := wellFormed_overmax (whenWellFormed_eq_next h).1
    cases (exec_overmax_idle hv hp hl hm).symm.trans h
    exact ⟨raw_headerFinished hd .invalidLength l 4 s, invalidCause_overmax hl (ne_three_of_maxDeclared_lt hv hm)⟩
  case nonhex =>
    have hl := wellFormed_nonhex (whenWellFormed_eq_next h).1
    cases (exec_nonhex_idle hv hp hl).symm.trans h
    exact ⟨raw_headerFinished hd .invalidLength 0 4 s, invalidCause_nonhex hl⟩

end Sys2Proof.Machine
end

section
/-! The event `RESET` (spec/70_reset_and_hazards.md R240, R241). -/

namespace Sys2Proof.Machine

/-- `RESET` tests no phase (R240): from every state its writes are the step. -/
theorem exec_reset (s : State) : exec .reset s = .next (resetRegisters s) := rfl

/-- Settles O20: the writes of `RESET` are R240's list, whatever the phase. -/
theorem resetEventWritesTheResetValues : Obligations.ResetEventWritesTheResetValues := by
  intro s
  rw [exec_reset, resetRegisters]

end Sys2Proof.Machine
end
